-- ==== Sys2Proof/Word.lean ====
section
/-! DEFINITION. The words of the machine: bytes, the 64-bit data of a register slot, a binary32 value and a
vector of four lanes (00_scope.md section 4 and rule R8). -/

namespace Sys2Proof

/-- One byte, the smallest unit of the address space (20_memory.md rule R40). -/
abbrev Byte := BitVec 8

/-- The 64 data bits of one register slot (30_encoding.md rule R141). -/
abbrev Word64 := BitVec 64

/-- A finite binary32 value, held as the whole number of units of `2^-149` it is: every finite binary32 value is
such a multiple (00_scope.md rule R8), so sums, differences and products are exact integers before the one
rounding. The sign of a zero is not tracked (rule R10). -/
structure F32 where
  units : Int
deriving DecidableEq, Repr

/-- How many units of `2^-149` make 1. -/
def F32.one : Nat := 2 ^ 149

/-- A vector of `LANES` = 4 lanes; lane 0 belongs to the sample at the lowest address (00_scope.md section 4). -/
structure Lanes (α : Type) where
  l0 : α
  l1 : α
  l2 : α
  l3 : α
deriving DecidableEq, Repr

namespace Lanes

variable {α β γ : Type}

/-- The same value in every lane. -/
def fill (a : α) : Lanes α := ⟨a, a, a, a⟩

/-- Lane `i`; lane 3 stands for every number above 3. -/
def get (v : Lanes α) : Nat → α
  | 0 => v.l0
  | 1 => v.l1
  | 2 => v.l2
  | _ => v.l3

/-- The vector whose lane `i` is `f i`. -/
def ofFn (f : Nat → α) : Lanes α := ⟨f 0, f 1, f 2, f 3⟩

/-- Lane by lane, one operand. -/
def map (f : α → β) (v : Lanes α) : Lanes β := ⟨f v.l0, f v.l1, f v.l2, f v.l3⟩

/-- Lane by lane, two operands; the lanes do not interact. -/
def map2 (f : α → β → γ) (v : Lanes α) (w : Lanes β) : Lanes γ :=
  ⟨f v.l0 w.l0, f v.l1 w.l1, f v.l2 w.l2, f v.l3 w.l3⟩

end Lanes

end Sys2Proof
end

