-- ==== Sys2Proof/Config.lean ====
section
/-! DEFINITION. What an implementation fixes (00_scope.md rules R5 and R6) and the free values, the constants with no
body that stand where the spec states no value. -/

namespace Sys2Proof

/-- A run of `size` consecutive byte addresses from `base`. -/
structure Span where
  base : Nat
  size : Nat
deriving DecidableEq, Repr

/-- Which green coefficients the matrix uses (00_scope.md rule R6, 41_csc_matrix.md rule R60). -/
inductive CoeffSet where
  | std
  | ref
deriving DecidableEq, Repr

/-- The tie rule of the float to integer conversion (00_scope.md rules R6 and R11). -/
inductive CvtTies where
  | even
  | away
deriving DecidableEq, Repr

/-- The order in which the groups of one command are converted (00_scope.md rule R6). -/
inductive GroupOrder where
  | ascending
  | any
deriving DecidableEq, Repr

/-- The parameters of 00_scope.md rule R6 that all engines share, and where the platform has ordinary memory
(20_memory.md rules R47 and R49). `FP_FORMAT` and `FP_EVAL` are fixed and need no field; `N_ENGINES` is the number of
engines in the state. DESIGN CHOICE (log 2): the state carries this record, and no step writes it. -/
structure Config where
  coeffSet   : CoeffSet
  cvtTies    : CvtTies
  groupOrder : GroupOrder
  addrW      : Nat
  dimW       : Nat
  alignIn    : Nat
  alignOut   : Nat
  ram        : List Span
deriving DecidableEq, Repr

/-- What the platform gives one engine: where its register block lies, if it is mapped into memory (`CSR_BASE`, open
in the spec; 60_exceptions.md rule R170), and which bytes it may read and write (20_memory.md rule R47). -/
structure Port where
  csrBase  : Option Nat
  readable : List Span
  writable : List Span
deriving DecidableEq, Repr

/-- The defaults of 00_scope.md rule R6. DESIGN CHOICE (log 5): the whole address space is ordinary memory. -/
def Config.standard : Config where
  coeffSet := .std
  cvtTies := .even
  groupOrder := .ascending
  addrW := 32
  dimW := 16
  alignIn := 1
  alignOut := 4
  ram := [⟨0, 2 ^ 32⟩]

/-- DESIGN CHOICE (log 5): no memory image of the register block, and every byte may be read and written. -/
def Port.standard : Port where
  csrBase := none
  readable := [⟨0, 2 ^ 32⟩]
  writable := [⟨0, 2 ^ 32⟩]

/-- The legal values of 00_scope.md rule R6. -/
def Config.legal (c : Config) : Bool :=
  decide (16 ≤ c.addrW ∧ c.addrW ≤ 64 ∧ 1 ≤ c.dimW ∧ c.dimW ≤ 32) &&
  decide (c.alignIn = 2 ^ Nat.log2 c.alignIn ∧ c.alignOut = 2 ^ Nat.log2 c.alignOut)

/-- `CSR_BASE` is any `ADDR_W`-bit address aligned to 64 (00_scope.md rule R6). -/
def Port.legal (c : Config) (p : Port) : Bool :=
  match p.csrBase with
  | none => true
  | some a => decide (a % 64 = 0 ∧ a < 2 ^ c.addrW)

/-- `BLOCK`, samples per block side (00_scope.md rule R5). -/
def Config.block : Nat := 8

/-- `LANES`, samples converted per group (00_scope.md rule R5). -/
def Config.lanes : Nat := 4

/-- FREE VALUE (log 8): what the float to integer conversion gives for a value outside the s32 range, which
00_scope.md rule R11 leaves unspecified. The argument is the value in units of `2^-149`. -/
opaque Config.cvtUnstated : Int → BitVec 32

/-- FREE VALUE (log 9): what `rnd32` gives for a rational outside the domain 00_scope.md rule R9 states. The arguments
are the numerator and the denominator; the value is in units of `2^-149`. -/
opaque Config.rndUnstated : Int → Nat → Int

/-- FREE VALUE (log 10): which of the groups not yet converted comes next when `GROUP_ORDER = any`
(40_convert_command.md rule R119). The arguments are the engine's place and its counter of free choices. -/
opaque Config.freeGroup : Nat → Nat → Nat

end Sys2Proof
end

