-- ==== Sys2Proof/Machine/Float.lean ====
section
/-! DEFINITION. The arithmetic of 00_scope.md rules R7 to R11 and the constants of 41_csc_matrix.md rule R60, on exact
integers and fractions with one rounding per operation. -/

namespace Sys2Proof.Machine

/-- `rne` of 00_scope.md rule R9 for the fraction `p / q` of naturals: nearest, ties to even. -/
def rneDiv (p q : Nat) : Nat :=
  if 2 * (p % q) < q then p / q
  else if q < 2 * (p % q) then p / q + 1
  else p / q + p / q % 2

/-- Nearest, ties to the greater magnitude, the other tie rule of 00_scope.md rule R11. -/
def awayDiv (p q : Nat) : Nat :=
  if 2 * (p % q) < q then p / q else p / q + 1

/-- The domain 00_scope.md rule R9 states for a nonzero argument of magnitude `a / d`: `2^-126` up to below `2^128`. -/
def rndDomain (a d : Nat) : Bool :=
  decide (d ≤ a * 2 ^ 126) && decide (a < 2 ^ 128 * d)

/-- How far the unit in the last place at magnitude `a / d` lies above `2^-149`, as a power of two: `e - 23 + 149` for
`e = floor(log2 (a / d))` (00_scope.md rule R9). -/
def ulpShift (a d : Nat) : Nat := Nat.log2 (a * F32.one / d) - 23

/-- `rnd32` on a magnitude in the domain, in units of `2^-149` (00_scope.md rule R9): `n * u` with `n = rne(q / u)`. -/
def rndMag (a d : Nat) : Nat :=
  rneDiv (a * F32.one) (d * 2 ^ ulpShift a d) * 2 ^ ulpShift a d

/-- `rnd32(num / den)` (00_scope.md rule R9). Outside the stated domain the value is free (log 9). -/
def rnd32 (num : Int) (den : Nat) : F32 :=
  if num = 0 then ⟨0⟩
  else if rndDomain num.natAbs den then ⟨num.sign * (rndMag num.natAbs den : Int)⟩
  else ⟨Config.rndUnstated num den⟩

/-- `fadd` of 00_scope.md rule R10. -/
def fadd (a b : F32) : F32 := rnd32 (a.units + b.units) F32.one

/-- `fsub` of 00_scope.md rule R10. -/
def fsub (a b : F32) : F32 := rnd32 (a.units - b.units) F32.one

/-- `fmul` of 00_scope.md rule R10: the exact product, rounded once; nothing is fused. -/
def fmul (a b : F32) : F32 := rnd32 (a.units * b.units) (F32.one * F32.one)

/-- `u8_to_f32` of 00_scope.md rule R10, exact. -/
def u8ToF32 (b : Byte) : F32 := ⟨(b.toNat * F32.one : Nat)⟩

/-- `lit32` of 00_scope.md rule R10 for the decimal literal `digits / 10^places`. -/
def lit32 (digits : Nat) (places : Nat) : F32 := rnd32 digits (10 ^ places)

/-- The finite binary32 value of a bit pattern (00_scope.md rule R8), used to read the table of 41_csc_matrix.md rule
R60. -/
def f32OfBits (b : BitVec 32) : F32 :=
  let e := (b.extractLsb' 23 8).toNat
  let m := (b.extractLsb' 0 23).toNat
  let mag := if e = 0 then m else (2 ^ 23 + m) * 2 ^ (e - 1)
  if b.getLsbD 31 then ⟨-(mag : Int)⟩ else ⟨(mag : Int)⟩

/-- The magnitude of a value rounded to an integer by the tie rule (00_scope.md rule R11). -/
def roundMag (t : CvtTies) (a : Nat) : Nat :=
  match t with
  | .even => rneDiv a F32.one
  | .away => awayDiv a F32.one

/-- A value rounded to an integer; both tie rules are symmetric in the sign (00_scope.md rule R11). -/
def roundInt (t : CvtTies) (f : F32) : Int := f.units.sign * (roundMag t f.units.natAbs : Int)

/-- Whether an integer is an `s32` value (00_scope.md section 4). -/
def fitsS32 (v : Int) : Bool := decide (-2147483648 ≤ v) && decide (v ≤ 2147483647)

/-- `cvt_s32` of 00_scope.md rule R11. Outside the s32 range the value is free (log 8). -/
def cvtS32 (t : CvtTies) (f : F32) : BitVec 32 :=
  if fitsS32 (roundInt t f) then BitVec.ofInt 32 (roundInt t f) else Config.cvtUnstated f.units

/-- `sat_u16` of 00_scope.md rule R7; the operand is signed. -/
def satU16 (v : BitVec 32) : BitVec 16 :=
  if v.toInt < 0 then 0
  else if 65535 < v.toInt then 65535
  else v.setWidth 16

/-- `sat_u8` of 00_scope.md rule R7; the operand is unsigned. -/
def satU8 (v : BitVec 16) : BitVec 8 :=
  if 255 < v.toNat then 255 else v.setWidth 8

/-- `clamp255` of 00_scope.md rule R7. -/
def clamp255 (v : Int) : Int := if v < 0 then 0 else if 255 < v then 255 else v

/-- `BIAS` (41_csc_matrix.md rule R60). -/
def kBias : F32 := lit32 1280 1

/-- `K_R`, the literal 1.402 (41_csc_matrix.md rule R60). -/
def kR : F32 := lit32 1402 3

/-- `K_GB`, the literal 0.344136 or 0.381834 (41_csc_matrix.md rule R60). -/
def kGB : CoeffSet → F32
  | .std => lit32 344136 6
  | .ref => lit32 381834 6

/-- `K_GR`, the literal 0.714136 or 0.71414 (41_csc_matrix.md rule R60). -/
def kGR : CoeffSet → F32
  | .std => lit32 714136 6
  | .ref => lit32 71414 5

/-- `K_B`, the literal 1.772 (41_csc_matrix.md rule R60). -/
def kB : F32 := lit32 1772 3

end Sys2Proof.Machine
end

