-- ==== Sys2Proof/Syntax.lean ====
section
/-! DEFINITION. The operations of the block: one constructor per row of spec/opcode_table.json
(30_encoding.md rule R144). -/

namespace Sys2Proof

/-- The six operand registers, numbers 0 to 5 (10_state.md rule R20). -/
inductive OpReg where
  | lumaBase
  | cbBase
  | crBase
  | outBase
  | blockCols
  | blockRows
deriving DecidableEq, Repr

/-- The eight host registers (10_state.md rule R20). -/
inductive Reg where
  | op (r : OpReg)
  | ctrl
  | status
deriving DecidableEq, Repr

/-- The fifteen operations. The two host actions carry the register and, on a write, the 64 data bits
(30_encoding.md rules R142 and R143); nothing else has an operand (rule R145). -/
inductive Instr where
  /-- WRREG, 40_convert_command.md rule R110. -/
  | wrreg (r : Reg) (wdata : Word64)
  /-- RDREG, 40_convert_command.md rule R111. -/
  | rdreg (r : Reg)
  /-- CONVERT, 40_convert_command.md rule R112. -/
  | convert
  /-- CTRLNOP, 40_convert_command.md rule R115. -/
  | ctrlnop
  /-- GROUP, 40_convert_command.md rule R113. -/
  | group
  /-- LDW, 41_csc_matrix.md rule R61. -/
  | ldw
  /-- CENTER, 41_csc_matrix.md rule R62. -/
  | center
  /-- MATR, 41_csc_matrix.md rule R63. -/
  | matr
  /-- MATG, 41_csc_matrix.md rule R64. -/
  | matg
  /-- MATB, 41_csc_matrix.md rule R65. -/
  | matb
  /-- CVT, 42_pixel_packer.md rule R80. -/
  | cvt
  /-- SAT16, 42_pixel_packer.md rule R81. -/
  | sat16
  /-- SAT8, 42_pixel_packer.md rule R82. -/
  | sat8
  /-- PACK, 42_pixel_packer.md rule R83. -/
  | pack
  /-- STORE, 42_pixel_packer.md rule R84. -/
  | store
deriving DecidableEq, Repr

end Sys2Proof
end

