-- ==== Sys2Proof/WellFormed.lean ====
section
/-! DEFINITION. Which terms of `Instr` are operations of the block. -/

namespace Sys2Proof

/-- A write of `CTRL` is CONVERT or CTRLNOP, not WRREG (40_convert_command.md rule R110); every other term is an
operation. A WRREG of `STATUS` is one the block refuses, so it is well formed. -/
def Instr.wellFormed : Instr → Bool
  | .wrreg .ctrl _ => false
  | .wrreg (.op _) _ => true
  | .wrreg .status _ => true
  | .rdreg _ => true
  | .convert => true
  | .ctrlnop => true
  | .group => true
  | .ldw => true
  | .center => true
  | .matr => true
  | .matg => true
  | .matb => true
  | .cvt => true
  | .sat16 => true
  | .sat8 => true
  | .pack => true
  | .store => true

end Sys2Proof
end

