-- ==== Sys2Proof/Decode.lean ====
section
/-! DEFINITION. The codes of 30_encoding.md, the decoder, total on any bits, and after it the encoder. -/

namespace Sys2Proof

/-- The coded operations. An access to the register block has a direction, a 6-bit block offset and a size in bytes
(formats REGWR and REGRD, 30_encoding.md rules R142 and R143), and a write has 64 data bits; a stage has a 4-bit name
(rule R150). The three are told apart by their format, as rule R144's table does; they never meet in one stream. -/
inductive Code where
  | write (offset : BitVec 6) (size : Nat) (wdata : Word64)
  | read (offset : BitVec 6) (size : Nat)
  | stage (name : BitVec 4)
deriving DecidableEq, Repr

/-- Why a code is no operation of the block. -/
inductive Reject where
  /-- Not 8 bytes at a multiple of 8 (30_encoding.md rule R146). -/
  | partialAccess
  /-- A write of `CTRL` with one of `wdata[63:1]` set (30_encoding.md rule R146, 40_convert_command.md rule R112). -/
  | reservedBits
  /-- A stage name above `1010`, which names nothing (30_encoding.md rule R150). -/
  | noStage
deriving DecidableEq, Repr

/-- The register in slot `n` of the block (30_encoding.md rule R141). -/
def Reg.ofNum (n : BitVec 3) : Reg :=
  if n = 0 then .op .lumaBase
  else if n = 1 then .op .cbBase
  else if n = 2 then .op .crBase
  else if n = 3 then .op .outBase
  else if n = 4 then .op .blockCols
  else if n = 5 then .op .blockRows
  else if n = 6 then .ctrl
  else .status

/-- The slot number of a register (10_state.md rule R20). -/
def Reg.num : Reg → BitVec 3
  | .op .lumaBase => 0
  | .op .cbBase => 1
  | .op .crBase => 2
  | .op .outBase => 3
  | .op .blockCols => 4
  | .op .blockRows => 5
  | .ctrl => 6
  | .status => 7

/-- A whole slot: 8 bytes at a multiple of 8 (30_encoding.md rule R142). -/
def wholeSlot (offset : BitVec 6) (size : Nat) : Bool :=
  decide (size = 8) && decide (offset.extractLsb' 0 3 = 0)

/-- The register an offset names: offset bits 5:3 (30_encoding.md rule R142). -/
def slotReg (offset : BitVec 6) : Reg := Reg.ofNum (offset.extractLsb' 3 3)

/-- The offset of a register's slot, `8n` (30_encoding.md rule R141). -/
def slotOffset (r : Reg) : BitVec 6 := r.num ++ 0#3

/-- A whole-slot write: to `CTRL` it is CONVERT or CTRLNOP by the data, refused when a reserved bit is set whatever
the run state (30_encoding.md rule R146); to another register it is WRREG. -/
def decodeWrite (r : Reg) (wdata : Word64) : Except Reject Instr :=
  match r with
  | .ctrl =>
    if wdata = 1 then .ok .convert
    else if wdata = 0 then .ok .ctrlnop
    else .error .reservedBits
  | .op o => .ok (.wrreg (.op o) wdata)
  | .status => .ok (.wrreg .status wdata)

/-- The stage names of 30_encoding.md rules R144 and R150. -/
def decodeStage (name : BitVec 4) : Except Reject Instr :=
  if name = 0 then .ok .group
  else if name = 1 then .ok .ldw
  else if name = 2 then .ok .center
  else if name = 3 then .ok .matr
  else if name = 4 then .ok .matg
  else if name = 5 then .ok .matb
  else if name = 6 then .ok .cvt
  else if name = 7 then .ok .sat16
  else if name = 8 then .ok .sat8
  else if name = 9 then .ok .pack
  else if name = 10 then .ok .store
  else .error .noStage

/-- The decoder: the direction and the register number are all it needs (30_encoding.md rule R147). -/
def decode : Code → Except Reject Instr
  | .write offset size wdata =>
    if wholeSlot offset size then decodeWrite (slotReg offset) wdata else .error .partialAccess
  | .read offset size =>
    if wholeSlot offset size then .ok (.rdreg (slotReg offset)) else .error .partialAccess
  | .stage name => decodeStage name

/-- The encoder, from the operation map of 30_encoding.md rule R144. -/
def encode : Instr → Code
  | .wrreg r wdata => .write (slotOffset r) 8 wdata
  | .rdreg r => .read (slotOffset r) 8
  | .convert => .write (slotOffset .ctrl) 8 1
  | .ctrlnop => .write (slotOffset .ctrl) 8 0
  | .group => .stage 0
  | .ldw => .stage 1
  | .center => .stage 2
  | .matr => .stage 3
  | .matg => .stage 4
  | .matb => .stage 5
  | .cvt => .stage 6
  | .sat16 => .stage 7
  | .sat8 => .stage 8
  | .pack => .stage 9
  | .store => .stage 10

/-- A whole-slot access from the 7-bit pattern (direction, block offset) and the data bits of the data phase
(30_encoding.md rules R142 and R143). -/
def accessOfPattern (pattern data : Nat) : Code :=
  if pattern / 64 % 2 = 1 then .write (BitVec.ofNat 6 pattern) 8 (BitVec.ofNat 64 data)
  else .read (BitVec.ofNat 6 pattern) 8

/-- The code a row of spec/opcode_table.json writes: 4 bits for a stage, 7 bits for a register access, 8 bits for the
two `CTRL` rows, whose eighth bit, the lowest, is `wdata[0]` (30_encoding.md rule R144). Padded to whole bytes the
three overlap; DESIGN CHOICE (log 15): a byte below 16 is a stage name, a byte below 128 a 7-bit pattern, any other an
8-bit one. Data bits follow from the second byte on. -/
def codeOfTableWord (nbits w : Nat) : Code :=
  if nbits ≤ 4 then .stage (BitVec.ofNat 4 w)
  else if nbits = 7 then accessOfPattern (w % 128) (w / 128)
  else if w < 16 then .stage (BitVec.ofNat 4 w)
  else if w % 256 < 128 then accessOfPattern (w % 128) (w / 256)
  else accessOfPattern (w / 2 % 128) (2 * (w / 256) + w % 2)

/-- The instruction the decoder reads from a word numbered as spec/opcode_table.json numbers it. -/
def decodeTableWord (nbits w : Nat) : Option Instr := (decode (codeOfTableWord nbits w)).toOption

end Sys2Proof
end

