-- ==== Sys2Proof/Machine/State.lean ====
section
/-! DEFINITION. The state of the machine as plain data, the reasons a step can stop, and the state after reset. -/

namespace Sys2Proof.Machine

/-- The run state (10_state.md rule R30). -/
inductive Run where
  | idle
  | busy
  | done
deriving DecidableEq, Repr

/-- One of registers 0 to 5 with its mark `written[n]` (10_state.md rule R29). The value is held right-justified in the
64 bits of its slot (30_encoding.md rule R141); the bits above the field's width are 0 (log 23). -/
structure OperandReg where
  value   : Word64
  written : Bool
deriving DecidableEq, Repr

/-- The lane vectors of the datapath (10_state.md rule R33), held so that the stages can be taken one by one (log 6). -/
structure Datapath where
  yb  : Lanes Byte
  cbb : Lanes Byte
  crb : Lanes Byte
  yf  : Lanes F32
  cbf : Lanes F32
  crf : Lanes F32
  cbc : Lanes F32
  crc : Lanes F32
  rf  : Lanes F32
  gf  : Lanes F32
  bf  : Lanes F32
  ri  : Lanes (BitVec 32)
  gi  : Lanes (BitVec 32)
  bi  : Lanes (BitVec 32)
  rh  : Lanes (BitVec 16)
  gh  : Lanes (BitVec 16)
  bh  : Lanes (BitVec 16)
  r8  : Lanes Byte
  g8  : Lanes Byte
  b8  : Lanes Byte
  p   : Lanes (BitVec 32)
deriving DecidableEq, Repr

/-- The datapath between group steps: it holds nothing (10_state.md rules R33 and R39). DESIGN CHOICE (log 6): all
lanes zero. -/
def Datapath.empty : Datapath where
  yb := .fill 0
  cbb := .fill 0
  crb := .fill 0
  yf := .fill ⟨0⟩
  cbf := .fill ⟨0⟩
  crf := .fill ⟨0⟩
  cbc := .fill ⟨0⟩
  crc := .fill ⟨0⟩
  rf := .fill ⟨0⟩
  gf := .fill ⟨0⟩
  bf := .fill ⟨0⟩
  ri := .fill 0
  gi := .fill 0
  bi := .fill 0
  rh := .fill 0
  gh := .fill 0
  bh := .fill 0
  r8 := .fill 0
  g8 := .fill 0
  b8 := .fill 0
  p := .fill 0

/-- One instance of the block: everything but memory is its own (10_state.md rule R38). `converted` holds the groups of
the running command already converted, used when `GROUP_ORDER = any` (10_state.md rule R31); `g` counts them, and
`freeIdx`, the model's own, counts the free choices of a group made so far (log 10). `CTRL` holds nothing
(rule R27) and `STATUS` is computed from `run` (rule R28), so neither has a field. -/
structure Engine where
  port      : Port
  lumaBase  : OperandReg
  cbBase    : OperandReg
  crBase    : OperandReg
  outBase   : OperandReg
  blockCols : OperandReg
  blockRows : OperandReg
  run       : Run
  g         : Nat
  converted : List Nat
  freeIdx   : Nat
  dp        : Datapath
deriving DecidableEq, Repr

/-- An operand register that holds no value. DESIGN CHOICE (log 3): the stored value is 0, which the false mark hides. -/
def OperandReg.unwritten : OperandReg := ⟨0, false⟩

/-- An engine right after reset (10_state.md rule R39). -/
def Engine.fresh (p : Port) : Engine where
  port := p
  lumaBase := .unwritten
  cbBase := .unwritten
  crBase := .unwritten
  outBase := .unwritten
  blockCols := .unwritten
  blockRows := .unwritten
  run := .idle
  g := 0
  converted := []
  freeIdx := 0
  dp := .empty

/-- An action that is waiting to happen. Engines are named by their place, counted from 0 (log 1, log 17). -/
inductive Event where
  /-- A coded operation on engine `k`: a register access through its port, or a stage by name; `stage 0` is the engine's
  own turn, the group step. -/
  | code (k : Nat) (c : Code)
  /-- The host or another agent reads `n` consecutive bytes of the address space from `a`. -/
  | busRead (a n : Nat)
  /-- The host or another agent writes bytes to consecutive addresses from `a`. -/
  | busWrite (a : Nat) (bytes : List Byte)
  /-- The pseudo-instruction WAIT on engine `k` (30_encoding.md rule R149). -/
  | wait (k : Nat)
  /-- The platform resets engine `k` (70_reset_and_hazards.md rule R130). -/
  | reset (k : Nat)
deriving DecidableEq, Repr

/-- Why a step has no meaning. The twelve `ref` reasons are those of 60_exceptions.md rule R161; each is safe: the
model stops where the hardware's behaviour is unknown. -/
inductive Refusal where
  /-- An operation whose meaning is not written yet; no meaning answers with it. Safe. -/
  | notModelled (mnemonic : String)
  /-- `REF_PARTIAL_ACCESS`, raised by the decoder and by a bus access to a register block: not 8 bytes at a multiple
  of 8. Safe. -/
  | refPartialAccess
  /-- `REF_READ_ONLY`, raised by WRREG of `STATUS`. Safe. -/
  | refReadOnly
  /-- `REF_WRITE_ONLY`, raised by RDREG of `CTRL`. Safe. -/
  | refWriteOnly
  /-- `REF_RESERVED_BITS`, raised by WRREG and by a write of `CTRL`: a bit above the field is 1. Safe. -/
  | refReservedBits
  /-- `REF_BUSY`, raised by WRREG of registers 0 to 5 and by CONVERT while `RUN = BUSY`. Safe. -/
  | refBusy
  /-- `REF_UNWRITTEN`, raised by RDREG of registers 0 to 5 and by CONVERT: the mark `written[n]` of a needed register is
  false, which 10_state.md rule R29, 40_convert_command.md rules R111 and R112 and 60_exceptions.md rule R161 refuse.
  Safe. -/
  | refUnwritten
  /-- `REF_DIM_ZERO`, raised by CONVERT: a dimension is 0. Safe. -/
  | refDimZero
  /-- `REF_MISALIGNED`, raised by CONVERT: a base is not a multiple of its alignment. Safe. -/
  | refMisaligned
  /-- `REF_REGION_WRAP`, raised by CONVERT: a region runs past the address space. Safe. -/
  | refRegionWrap
  /-- `REF_REGION_NOT_ADMITTED`, raised by CONVERT: a byte of a region is not ordinary memory this engine may use. Safe. -/
  | refRegionNotAdmitted
  /-- `REF_ALIAS`, raised by CONVERT: the regions conflict with one another or with a running command. Safe. -/
  | refAlias
  /-- `REF_HOST_TOUCH`, raised by a memory access on the bus that touches the regions of a running command. Safe. -/
  | refHostTouch
  /-- Raised by a stage name that names nothing (30_encoding.md rule R150, log 22). Safe. -/
  | noStage
  /-- Raised by an action on an engine that does not exist (log 22). Safe. -/
  | noEngine
deriving DecidableEq, Repr

/-- Why the machine stops with a fault. The block itself raises none (60_exceptions.md rule R160). -/
inductive Fault where
  /-- Raised by GROUP, LDW and STORE: the engine would access the byte at `a`, which it may not reach. The launch checks
  keep every accepted command from it (log 13). Safe. -/
  | engineAccess (a : Nat)
  /-- Raised by a memory access on the bus: no ordinary memory at `a` (log 14). Safe. -/
  | busHole (a : Nat)
deriving DecidableEq, Repr

/-- The machine. The engine the action in hand is for stands in focus as `eng`, with the engines before it and after it
in `engL` and `engR` (log 17). `mem` is in canonical form: addresses rising, no byte equal to what an unlisted address
reads as. `refusal` is the refusal mark of 10_state.md rule R37. `rdata` and `mdata` are what the latest register read
and the latest memory read returned (log 16), and `inbox` the pending actions, oldest first (log 1). -/
structure State where
  cfg     : Config
  engL    : List Engine
  eng     : Engine
  engR    : List Engine
  mem     : List Host.Cell
  refusal : Option Refusal
  rdata   : Word64
  mdata   : List Byte
  inbox   : List Event
deriving DecidableEq, Repr

/-- The machine right after reset (10_state.md rule R39): one engine with nothing written, `RUN = IDLE`, `g = 0`, the
refusal mark clear, the parameters of 00_scope.md rule R6 at their defaults and nothing listed in memory. -/
def State.reset : State where
  cfg := .standard
  engL := []
  eng := .fresh .standard
  engR := []
  mem := []
  refusal := none
  rdata := 0
  mdata := []
  inbox := []

/-- What a meaning answers. -/
abbrev Out := Host.Outcome State Fault Refusal

end Sys2Proof.Machine
end

