-- ==== Sys2Proof/Machine/Flags.lean ====
section
/-! DEFINITION. The bits a host can test. There are no flags or condition codes (10_state.md rule R35); the progress
bits of `STATUS` are computed from the run state (rule R28). -/

namespace Sys2Proof.Machine

/-- `STATUS.BUSY`, bit 0 (10_state.md rule R28). -/
def Run.busyBit : Run → Bool
  | .busy => true
  | .idle => false
  | .done => false

/-- `STATUS.DONE`, bit 1 (10_state.md rule R28). -/
def Run.doneBit : Run → Bool
  | .done => true
  | .idle => false
  | .busy => false

/-- The 64 bits a read of `STATUS` returns, `zext_64({DONE, BUSY})` (40_convert_command.md rule R111). -/
def Run.statusWord (r : Run) : Word64 :=
  (BitVec.ofBool r.doneBit ++ BitVec.ofBool r.busyBit).setWidth 64

end Sys2Proof.Machine
end

