-- ==== Sys2Proof/Machine/Operands.lean ====
section
/-! DEFINITION. The operand registers, the quantities computed from them, the four regions of a command and the
addresses of a group (10_state.md rules R20 to R32, 20_memory.md rules R42 to R48). -/

namespace Sys2Proof.Machine

/-- Read an operand register with its mark. -/
def Engine.get (e : Engine) : OpReg → OperandReg
  | .lumaBase => e.lumaBase
  | .cbBase => e.cbBase
  | .crBase => e.crBase
  | .outBase => e.outBase
  | .blockCols => e.blockCols
  | .blockRows => e.blockRows

/-- Replace an operand register with its mark. -/
def Engine.set (e : Engine) (o : OpReg) (x : OperandReg) : Engine :=
  match o with
  | .lumaBase => { e with lumaBase := x }
  | .cbBase => { e with cbBase := x }
  | .crBase => { e with crBase := x }
  | .outBase => { e with outBase := x }
  | .blockCols => { e with blockCols := x }
  | .blockRows => { e with blockRows := x }

/-- The width `F` of an operand register's field (40_convert_command.md rule R110). -/
def fieldWidth (c : Config) : OpReg → Nat
  | .lumaBase => c.addrW
  | .cbBase => c.addrW
  | .crBase => c.addrW
  | .outBase => c.addrW
  | .blockCols => c.dimW
  | .blockRows => c.dimW

/-- `wdata[F-1:0]` (30_encoding.md rule R145). -/
def lowField (f : Nat) (w : Word64) : Word64 := BitVec.ofNat 64 (w.toNat % 2 ^ f)

/-- Whether `wdata[63:F]` is 0 (30_encoding.md rule R146). -/
def fitsField (f : Nat) (w : Word64) : Bool := decide (w.toNat < 2 ^ f)

/-- All six marks are true (10_state.md rule R29). -/
def Engine.allWritten (e : Engine) : Bool :=
  e.lumaBase.written && e.cbBase.written && e.crBase.written && e.outBase.written &&
    e.blockCols.written && e.blockRows.written

/-- An operand register as an unsigned number (30_encoding.md rule R145). -/
def Engine.num (e : Engine) (o : OpReg) : Nat := (e.get o).value.toNat

/-- `W`, the width in samples (10_state.md rule R32). -/
def Engine.width (e : Engine) : Nat := Config.block * e.num .blockCols

/-- `H`, the height in samples (10_state.md rule R32). -/
def Engine.height (e : Engine) : Nat := Config.block * e.num .blockRows

/-- `N`, the sample count, an exact integer (10_state.md rule R32). -/
def Engine.samples (e : Engine) : Nat := 64 * e.num .blockCols * e.num .blockRows

/-- `G_TOTAL`, the group count (10_state.md rule R32). -/
def Engine.gTotal (e : Engine) : Nat := 16 * e.num .blockCols * e.num .blockRows

/-- The linear index of the sample at a row and a column (20_memory.md rule R43). -/
def Engine.index (e : Engine) (row col : Nat) : Nat := row * e.width + col

/-- Whether an address lies in a run of bytes. -/
def Span.has (s : Span) (a : Nat) : Bool := decide (s.base ≤ a) && decide (a < s.base + s.size)

/-- Whether two runs of bytes share a byte. -/
def Span.meets (s t : Span) : Bool :=
  decide (max s.base t.base < min (s.base + s.size) (t.base + t.size))

/-- Whether some run of a list has an address. -/
def anyHas (l : List Span) (a : Nat) : Bool := l.any (fun s => Span.has s a)

/-- Whether some run of a list shares a byte with a run. -/
def anyMeets (l : List Span) (s : Span) : Bool := l.any (fun t => Span.meets t s)

/-- What a run of bytes takes away from the gap `[lo, hi)`: the parts below and above it that are left. -/
def Span.cut (s : Span) (gap : Nat × Nat) : List (Nat × Nat) :=
  [(gap.1, min gap.2 s.base), (max gap.1 (s.base + s.size), gap.2)].filter (fun x => decide (x.1 < x.2))

/-- The gaps a list of runs leaves of given gaps. -/
def gapsLeft : List Span → List (Nat × Nat) → List (Nat × Nat)
  | [], gaps => gaps
  | s :: l, gaps => gapsLeft l (gaps.flatMap (Span.cut s))

/-- Whether a list of runs covers every byte of a run. -/
def covers (l : List Span) (s : Span) : Bool :=
  (gapsLeft l ([(s.base, s.base + s.size)].filter (fun x => decide (x.1 < x.2)))).isEmpty

/-- The luma plane of a command (20_memory.md rule R42). -/
def Engine.lumaPlane (e : Engine) : Span := ⟨e.num .lumaBase, e.samples⟩

/-- The chroma-blue plane (20_memory.md rule R42). -/
def Engine.cbPlane (e : Engine) : Span := ⟨e.num .cbBase, e.samples⟩

/-- The chroma-red plane (20_memory.md rule R42). -/
def Engine.crPlane (e : Engine) : Span := ⟨e.num .crBase, e.samples⟩

/-- The pixel buffer (20_memory.md rule R42). -/
def Engine.outRegion (e : Engine) : Span := ⟨e.num .outBase, 4 * e.samples⟩

/-- The three regions a command reads (20_memory.md rule R42). -/
def Engine.planes (e : Engine) : List Span := [e.lumaPlane, e.cbPlane, e.crPlane]

/-- The four regions of a command (20_memory.md rule R42). -/
def Engine.regions (e : Engine) : List Span := [e.lumaPlane, e.cbPlane, e.crPlane, e.outRegion]

/-- The 64 bytes of the register block, where it is mapped into memory (20_memory.md rule R55). -/
def Engine.csrBlock (e : Engine) : Option Span := e.port.csrBase.map (fun a => ⟨a, 64⟩)

/-- The bases have the alignment a command needs (20_memory.md rule R46). -/
def Engine.aligned (c : Config) (e : Engine) : Bool :=
  decide (e.num .lumaBase % c.alignIn = 0) && decide (e.num .cbBase % c.alignIn = 0) &&
    decide (e.num .crBase % c.alignIn = 0) && decide (e.num .outBase % c.alignOut = 0)

/-- The four regions lie inside the address space (20_memory.md rule R47). -/
def Engine.inSpace (c : Config) (e : Engine) : Bool :=
  e.regions.all (fun s => decide (s.base + s.size ≤ 2 ^ c.addrW))

/-- The pixel buffer shares a byte with a plane of the same command (20_memory.md rule R48). -/
def Engine.selfAlias (e : Engine) : Bool := anyMeets e.planes e.outRegion

/-- A command conflicts with a running one: its pixel buffer shares a byte with a region the other reads or writes, or
one of its planes with a region the other writes (20_memory.md rule R56, 40_convert_command.md rule R112). -/
def Engine.conflicts (e other : Engine) : Bool :=
  decide (other.run = .busy) &&
    (anyMeets other.regions e.outRegion || anyMeets e.planes other.outRegion)

/-- The addresses of the four bytes a group reads from a plane (20_memory.md rule R44). -/
def groupReads (base g : Nat) : List Nat :=
  [base + 4 * g, base + 4 * g + 1, base + 4 * g + 2, base + 4 * g + 3]

/-- The addresses of the sixteen bytes a group writes (20_memory.md rule R44). -/
def groupWrites (base g : Nat) : List Nat := (List.range 16).map (fun k => base + 16 * g + k)

end Sys2Proof.Machine
end

