-- ==== Sys2Proof/Machine/Ops.lean ====
section
/-! DEFINITION. The named operations over memory, the engines and the state. The block takes no exception and returns
from none (60_exceptions.md rules R160, R164 and R165); what stands in their place is the refusal of rule R161, and
`State.markRefusal` is the one operation that records it. -/

namespace Sys2Proof.Machine

/-! Memory, one flat byte space (20_memory.md rule R40). -/

/-- What a byte that nothing has written reads as. DESIGN CHOICE (log 4): 0. -/
def blankByte : Byte := 0

/-- The byte at an address. -/
def memRead : List Host.Cell → Nat → Byte
  | [], _ => blankByte
  | (k, v) :: m, a => if k = a then v else memRead m a

/-- Put a cell in its place by address. -/
def memInsert (a : Nat) (b : Byte) : List Host.Cell → List Host.Cell
  | [] => [(a, b)]
  | (k, v) :: m => if a < k then (a, b) :: (k, v) :: m else (k, v) :: memInsert a b m

/-- Write a byte; a byte equal to what an unlisted address reads as is not listed. -/
def memWrite (m : List Host.Cell) (a : Nat) (b : Byte) : List Host.Cell :=
  if b = blankByte then m.filter (fun c => c.1 != a)
  else memInsert a b (m.filter (fun c => c.1 != a))

/-- The canonical form: addresses strictly rising and no byte listed that an unlisted address reads as. -/
def Memory.wf : List Host.Cell → Bool
  | [] => true
  | (k, v) :: m => decide (v ≠ blankByte) && m.all (fun c => decide (k < c.1)) && Memory.wf m

/-- `MemRead(a, n)`, little-endian (20_memory.md rule R41). -/
def memReadLE (m : List Host.Cell) (a : Nat) : Nat → Nat
  | 0 => 0
  | n + 1 => (memRead m a).toNat + 256 * memReadLE m (a + 1) n

/-- `MemWrite(a, n, v)`, little-endian, single bytes in ascending address order (20_memory.md rules R41 and R45). -/
def memWriteLE (m : List Host.Cell) (a : Nat) : Nat → Nat → List Host.Cell
  | 0, _ => m
  | n + 1, v => memWriteLE (memWrite m a (BitVec.ofNat 8 v)) (a + 1) n (v / 256)

/-- The `n` bytes from an address, lowest address first. -/
def memReadBytes (m : List Host.Cell) (a : Nat) : Nat → List Byte
  | 0 => []
  | n + 1 => memRead m a :: memReadBytes m (a + 1) n

/-- Write bytes to consecutive addresses. -/
def memWriteBytes (m : List Host.Cell) (a : Nat) : List Byte → List Host.Cell
  | [] => m
  | b :: l => memWriteBytes (memWrite m a b) (a + 1) l

/-- The number whose little-endian bytes are given (20_memory.md rule R41). -/
def bytesLE : List Byte → Nat
  | [] => 0
  | b :: l => b.toNat + 256 * bytesLE l

/-! Updates of the state, one per field a meaning writes. -/

def State.withEng (s : State) (e : Engine) : State := { s with eng := e }

def State.withMem (s : State) (m : List Host.Cell) : State := { s with mem := m }

def State.withRdata (s : State) (w : Word64) : State := { s with rdata := w }

def State.withMdata (s : State) (l : List Byte) : State := { s with mdata := l }

def State.withInbox (s : State) (l : List Event) : State := { s with inbox := l }

/-- Record a refusal: the mark is set by the first refused action and never changed again, and nothing else changes
(10_state.md rule R37, 60_exceptions.md rule R161). -/
def State.markRefusal (s : State) (r : Refusal) : State :=
  match s.refusal with
  | none => { s with refusal := some r }
  | some _ => s

/-! The engines (10_state.md rule R38). -/

/-- All engines, in their places. -/
def State.engines (s : State) : List Engine := s.engL ++ s.eng :: s.engR

/-- The place of the engine in focus. -/
def State.here (s : State) : Nat := s.engL.length

/-- The engines not in focus. -/
def State.peers (s : State) : List Engine := s.engL ++ s.engR

/-- Bring the engine in place `k` into focus; there may be none there. -/
def State.focus (s : State) (k : Nat) : Option State :=
  match s.engines[k]? with
  | none => none
  | some e => some { s with engL := s.engines.take k, eng := e, engR := s.engines.drop (k + 1) }

/-- The register blocks that are mapped into memory; they are no ordinary memory (20_memory.md rules R49 and R55). -/
def State.csrBlocks (s : State) : List Span := s.engines.filterMap Engine.csrBlock

/-- Whether a byte is ordinary memory: inside the address space, where the platform has memory, and in no register
block (20_memory.md rules R47, R49 and R55). -/
def ordinary (c : Config) (csr : List Span) (a : Nat) : Bool :=
  decide (a < 2 ^ c.addrW) && anyHas c.ram a && !anyHas csr a

/-- Whether the engine in focus may read the byte at an address (20_memory.md rule R47). -/
def State.mayRead (s : State) (a : Nat) : Bool :=
  ordinary s.cfg s.csrBlocks a && anyHas s.eng.port.readable a

/-- Whether the engine in focus may write the byte at an address (20_memory.md rule R47). -/
def State.mayWrite (s : State) (a : Nat) : Bool :=
  ordinary s.cfg s.csrBlocks a && anyHas s.eng.port.writable a

/-- A region lies wholly in ordinary memory that a list of runs gives leave for (40_convert_command.md rule R112). -/
def admits (c : Config) (csr allowed : List Span) (r : Span) : Bool :=
  covers c.ram r && covers allowed r && !anyMeets csr r

/-- The four regions of a command lie in ordinary memory that its engine may read (the planes) or write (the pixel
buffer) (20_memory.md rule R47, 40_convert_command.md rule R112). -/
def Engine.admitted (c : Config) (csr : List Span) (e : Engine) : Bool :=
  e.planes.all (admits c csr e.port.readable) && admits c csr e.port.writable e.outRegion

/-! The group in hand. -/

/-- The groups of the running command not yet converted (10_state.md rule R31). -/
def Engine.remaining (e : Engine) : List Nat :=
  (List.range e.gTotal).filter (fun x => !e.converted.contains x)

/-- The group the engine in focus converts next: `g` in ascending order; in any order a free one of those not yet
converted (40_convert_command.md rules R113 and R119, log 10). -/
def State.curGroup (s : State) : Nat :=
  match s.cfg.groupOrder with
  | .ascending => s.eng.g
  | .any => s.eng.remaining.getD (Config.freeGroup s.here s.eng.freeIdx % s.eng.remaining.length) s.eng.g

/-- An engine has a step exactly when `RUN = BUSY`; otherwise it does nothing (40_convert_command.md rule R113,
60_exceptions.md rule R172, log 7). -/
def whenBusy (s : State) (k : State → Out) : Out :=
  if s.eng.run = .busy then k s else .next s

/-- A reset of an engine: it is as fresh, memory and the refusal mark stay (70_reset_and_hazards.md rule R130, log 19).
The counter of free choices goes on, so that no choice after the reset repeats one before it (log 10). -/
def State.resetEngine (s : State) : State :=
  s.withEng { Engine.fresh s.eng.port with freeIdx := s.eng.freeIdx }

/-! What an answer holds. -/

/-- The next state of an answer. -/
def nextOf : Out → Option State
  | .next s => some s
  | .fault _ => none
  | .refused _ => none

/-- The refusal of an answer. -/
def refusalOf : Out → Option Refusal
  | .next _ => none
  | .fault _ => none
  | .refused r => some r

/-- The fault of an answer. -/
def faultOf : Out → Option Fault
  | .next _ => none
  | .fault f => some f
  | .refused _ => none

end Sys2Proof.Machine
end

