-- ==== Sys2Proof/Machine/Command.lean ====
section
/-! DEFINITION. The CONVERT command: the launch checks in their order and the accepted start (40_convert_command.md rule
R112, 60_exceptions.md rule R162). -/

namespace Sys2Proof.Machine

/-- The launch checks of 40_convert_command.md rule R112, in order; the first that fails gives the reason. -/
def launchCheck (s : State) : Option Refusal :=
  if s.eng.run = .busy then some .refBusy
  else if !s.eng.allWritten then some .refUnwritten
  else if s.eng.num .blockCols = 0 ∨ s.eng.num .blockRows = 0 then some .refDimZero
  else if !s.eng.aligned s.cfg then some .refMisaligned
  else if !s.eng.inSpace s.cfg then some .refRegionWrap
  else if !s.eng.admitted s.cfg s.csrBlocks then some .refRegionNotAdmitted
  else if s.eng.selfAlias || s.peers.any s.eng.conflicts then some .refAlias
  else none

/-- The accepted start: `g <- 0`, `RUN <- BUSY`, no group converted yet; no memory access happens
(40_convert_command.md rule R112). -/
def started (s : State) : State :=
  s.withEng { s.eng with run := .busy, g := 0, converted := [] }

/-- A write of 1 to `CTRL`. -/
def launch (s : State) : Out :=
  match launchCheck s with
  | some r => .refused r
  | none => .next (started s)

/-- CONVERT (40_convert_command.md rule R112). -/
def execConvert (s : State) : Out := launch s

end Sys2Proof.Machine
end

