-- ==== Sys2Proof/Machine/HostActions.lean ====
section
/-! DEFINITION. The host actions on the register block: WRREG, RDREG and CTRLNOP (40_convert_command.md rules R110, R111
and R115). -/

namespace Sys2Proof.Machine

/-- The register takes `wdata[F-1:0]` and its mark becomes true (40_convert_command.md rule R110). -/
def writeOperand (s : State) (o : OpReg) (wdata : Word64) : State :=
  s.withEng (s.eng.set o ⟨lowField (fieldWidth s.cfg o) wdata, true⟩)

/-- WRREG (40_convert_command.md rule R110). A write of `CTRL` is no WRREG: such a term is ill formed, and what it
answers is what the write of `CTRL` answers (log 25). -/
def execWrreg (r : Reg) (wdata : Word64) (s : State) : Out :=
  match r with
  | .status => .refused .refReadOnly
  | .ctrl =>
    if wdata = 1 then launch s
    else if wdata = 0 then .next s
    else .refused .refReservedBits
  | .op o =>
    if s.eng.run = .busy then .refused .refBusy
    else if !fitsField (fieldWidth s.cfg o) wdata then .refused .refReservedBits
    else .next (writeOperand s o wdata)

/-- RDREG (40_convert_command.md rule R111): the data returned is left in `rdata` (log 16); no read has a side effect on
the block. -/
def execRdreg (r : Reg) (s : State) : Out :=
  match r with
  | .ctrl => .refused .refWriteOnly
  | .status => .next (s.withRdata s.eng.run.statusWord)
  | .op o =>
    if (s.eng.get o).written then .next (s.withRdata (s.eng.get o).value)
    else .refused .refUnwritten

/-- CTRLNOP (40_convert_command.md rule R115): accepted in every run state, changes nothing. -/
def execCtrlnop (s : State) : Out := .next s

end Sys2Proof.Machine
end

