-- ==== Sys2Proof/Machine/Matrix.lean ====
section
/-! DEFINITION. color_space_converter: the stages LDW, CENTER, MATR, MATG and MATB (41_csc_matrix.md rules R61 to R65).
Each stage is an operation on the datapath, used by GROUP and by the stage's own meaning. -/

namespace Sys2Proof.Machine

/-! One lane of each stage. -/

/-- CENTER on one lane (41_csc_matrix.md rule R62). -/
def centerLane (c : F32) : F32 := fsub c kBias

/-- MATR on one lane (41_csc_matrix.md rule R63). -/
def redLane (y cr : F32) : F32 := fadd y (fmul kR cr)

/-- MATG on one lane: left to right, each product and each difference rounded (41_csc_matrix.md rule R64). -/
def greenLane (k : CoeffSet) (y cb cr : F32) : F32 :=
  fsub (fsub y (fmul (kGB k) cb)) (fmul (kGR k) cr)

/-- MATB on one lane (41_csc_matrix.md rule R65). -/
def blueLane (y cb : F32) : F32 := fadd y (fmul kB cb)

/-! The stages on the datapath. -/

/-- The four bytes of group `g` of the plane at `base` (20_memory.md rule R44). -/
def loadLanes (m : List Host.Cell) (base g : Nat) : Lanes Byte :=
  .ofFn (fun i => memRead m (base + 4 * g + i))

/-- Load and widen (41_csc_matrix.md rule R61). -/
def Datapath.load (d : Datapath) (y cb cr : Lanes Byte) : Datapath :=
  { d with
    yb := y, cbb := cb, crb := cr
    yf := y.map u8ToF32, cbf := cb.map u8ToF32, crf := cr.map u8ToF32 }

/-- Centre both chroma vectors (41_csc_matrix.md rule R62). -/
def Datapath.center (d : Datapath) : Datapath :=
  { d with cbc := d.cbf.map centerLane, crc := d.crf.map centerLane }

/-- The red row (41_csc_matrix.md rule R63). -/
def Datapath.matr (d : Datapath) : Datapath := { d with rf := d.yf.map2 redLane d.crc }

/-- The green row (41_csc_matrix.md rule R64). -/
def Datapath.matg (k : CoeffSet) (d : Datapath) : Datapath :=
  { d with gf := .ofFn (fun i => greenLane k (d.yf.get i) (d.cbc.get i) (d.crc.get i)) }

/-- The blue row (41_csc_matrix.md rule R65). -/
def Datapath.matb (d : Datapath) : Datapath := { d with bf := d.yf.map2 blueLane d.cbc }

/-! The stages on the state. -/

/-- Replace the datapath of the engine in focus. -/
def State.withDp (s : State) (d : Datapath) : State := s.withEng { s.eng with dp := d }

/-- The twelve addresses LDW reads, plane by plane (41_csc_matrix.md rule R61). -/
def State.loadAddrs (s : State) : List Nat :=
  groupReads (s.eng.num .lumaBase) s.curGroup ++ groupReads (s.eng.num .cbBase) s.curGroup ++
    groupReads (s.eng.num .crBase) s.curGroup

/-- The first byte LDW would read that this engine may not read; an accepted command has none (log 13). -/
def State.loadFault (s : State) : Option Nat := s.loadAddrs.find? (fun a => !s.mayRead a)

/-- LDW on the state (41_csc_matrix.md rule R61). -/
def State.loadStage (s : State) : State :=
  s.withDp (s.eng.dp.load (loadLanes s.mem (s.eng.num .lumaBase) s.curGroup)
    (loadLanes s.mem (s.eng.num .cbBase) s.curGroup) (loadLanes s.mem (s.eng.num .crBase) s.curGroup))

/-! The meanings of the stages taken by name: enabled, like the group step, when `RUN = BUSY` (log 6, log 7). -/

/-- LDW (41_csc_matrix.md rule R61). -/
def execLdw (s : State) : Out :=
  whenBusy s (fun s =>
    match s.loadFault with
    | some a => .fault (.engineAccess a)
    | none => .next s.loadStage)

/-- CENTER (41_csc_matrix.md rule R62). -/
def execCenter (s : State) : Out := whenBusy s (fun s => .next (s.withDp s.eng.dp.center))

/-- MATR (41_csc_matrix.md rule R63). -/
def execMatr (s : State) : Out := whenBusy s (fun s => .next (s.withDp s.eng.dp.matr))

/-- MATG (41_csc_matrix.md rule R64). -/
def execMatg (s : State) : Out := whenBusy s (fun s => .next (s.withDp (s.eng.dp.matg s.cfg.coeffSet)))

/-- MATB (41_csc_matrix.md rule R65). -/
def execMatb (s : State) : Out := whenBusy s (fun s => .next (s.withDp s.eng.dp.matb))

end Sys2Proof.Machine
end

