-- ==== Sys2Proof/Machine/Packer.lean ====
section
/-! DEFINITION. pixel_packer: the stages CVT, SAT16, SAT8, PACK and STORE (42_pixel_packer.md rules R80 to R84), and the
pixel function `PIX` of 40_convert_command.md rule R117. -/

namespace Sys2Proof.Machine

/-- PACK on one lane: Alpha 0, Red, Green, Blue from the most significant byte down (42_pixel_packer.md rule R83). -/
def packLane (r g b : Byte) : BitVec 32 :=
  (r.setWidth 32 <<< 16) ||| (g.setWidth 32 <<< 8) ||| b.setWidth 32

/-- `CH8` of 40_convert_command.md rule R117. -/
def ch8 (t : CvtTies) (f : F32) : Byte := satU8 (satU16 (cvtS32 t f))

/-- `PIX(y, cb, cr)` of 40_convert_command.md rule R117, a function of the three bytes and the configuration. -/
def pix (c : Config) (y cb cr : Byte) : BitVec 32 :=
  packLane
    (ch8 c.cvtTies (redLane (u8ToF32 y) (centerLane (u8ToF32 cr))))
    (ch8 c.cvtTies (greenLane c.coeffSet (u8ToF32 y) (centerLane (u8ToF32 cb)) (centerLane (u8ToF32 cr))))
    (ch8 c.cvtTies (blueLane (u8ToF32 y) (centerLane (u8ToF32 cb))))

/-- Float to integer (42_pixel_packer.md rule R80). -/
def Datapath.cvt (t : CvtTies) (d : Datapath) : Datapath :=
  { d with ri := d.rf.map (cvtS32 t), gi := d.gf.map (cvtS32 t), bi := d.bf.map (cvtS32 t) }

/-- The first saturating narrow (42_pixel_packer.md rule R81). -/
def Datapath.sat16 (d : Datapath) : Datapath :=
  { d with rh := d.ri.map satU16, gh := d.gi.map satU16, bh := d.bi.map satU16 }

/-- The second saturating narrow (42_pixel_packer.md rule R82). -/
def Datapath.sat8 (d : Datapath) : Datapath :=
  { d with r8 := d.rh.map satU8, g8 := d.gh.map satU8, b8 := d.bh.map satU8 }

/-- Interleave (42_pixel_packer.md rule R83). -/
def Datapath.pack (d : Datapath) : Datapath :=
  { d with p := .ofFn (fun i => packLane (d.r8.get i) (d.g8.get i) (d.b8.get i)) }

/-- Write the four pixels of group `g` to the pixel buffer at `base`, lane 0 first (42_pixel_packer.md rule R84). -/
def storeGroup (m : List Host.Cell) (base g : Nat) (p : Lanes (BitVec 32)) : List Host.Cell :=
  let m0 := memWriteLE m (base + 16 * g) 4 (p.get 0).toNat
  let m1 := memWriteLE m0 (base + 16 * g + 4) 4 (p.get 1).toNat
  let m2 := memWriteLE m1 (base + 16 * g + 8) 4 (p.get 2).toNat
  memWriteLE m2 (base + 16 * g + 12) 4 (p.get 3).toNat

/-- The sixteen addresses STORE writes (42_pixel_packer.md rule R88). -/
def State.storeAddrs (s : State) : List Nat := groupWrites (s.eng.num .outBase) s.curGroup

/-- The first byte STORE would write that this engine may not write; an accepted command has none (log 13). -/
def State.storeFault (s : State) : Option Nat := s.storeAddrs.find? (fun a => !s.mayWrite a)

/-- STORE on the state (42_pixel_packer.md rule R84). -/
def State.storeStage (s : State) : State :=
  s.withMem (storeGroup s.mem (s.eng.num .outBase) s.curGroup s.eng.dp.p)

/-! The meanings of the stages taken by name: enabled, like the group step, when `RUN = BUSY` (log 6, log 7). -/

/-- CVT (42_pixel_packer.md rule R80). -/
def execCvt (s : State) : Out := whenBusy s (fun s => .next (s.withDp (s.eng.dp.cvt s.cfg.cvtTies)))

/-- SAT16 (42_pixel_packer.md rule R81). -/
def execSat16 (s : State) : Out := whenBusy s (fun s => .next (s.withDp s.eng.dp.sat16))

/-- SAT8 (42_pixel_packer.md rule R82). -/
def execSat8 (s : State) : Out := whenBusy s (fun s => .next (s.withDp s.eng.dp.sat8))

/-- PACK (42_pixel_packer.md rule R83). -/
def execPack (s : State) : Out := whenBusy s (fun s => .next (s.withDp s.eng.dp.pack))

/-- STORE (42_pixel_packer.md rule R84). -/
def execStore (s : State) : Out :=
  whenBusy s (fun s =>
    match s.storeFault with
    | some a => .fault (.engineAccess a)
    | none => .next s.storeStage)

end Sys2Proof.Machine
end

