-- ==== Sys2Proof/Machine/Sequencer.lean ====
section
/-! DEFINITION. The sequencer: GROUP, the one step of the engine (40_convert_command.md rule R113). -/

namespace Sys2Proof.Machine

/-- The stages 2 to 9 of a group step, in their fixed order (40_convert_command.md rule R113). -/
def Datapath.compute (c : Config) (d : Datapath) : Datapath :=
  ((((((((d.center).matr).matg c.coeffSet).matb).cvt c.cvtTies).sat16).sat8).pack)

/-- The sequencer's update after STORE: `g <- g + 1`, and `RUN <- DONE` when `g` reaches `G_TOTAL`
(40_convert_command.md rule R113). In any order the group is entered in the set of those converted and the free choice
is used up (log 10). No lane value survives the step (10_state.md rule R33). -/
def State.finishGroup (s : State) : State :=
  let e := s.eng
  let run := if e.g + 1 = e.gTotal then Run.done else e.run
  match s.cfg.groupOrder with
  | .ascending => s.withEng { e with g := e.g + 1, run := run, dp := .empty }
  | .any =>
    s.withEng { e with
      g := e.g + 1, run := run, converted := s.curGroup :: e.converted, freeIdx := e.freeIdx + 1, dp := .empty }

/-- A group step with every byte within reach: stages 1 to 10, then the sequencer's update. -/
def State.convertGroup (s : State) : State :=
  let s := s.loadStage
  let s := s.withDp (s.eng.dp.compute s.cfg)
  s.storeStage.finishGroup

/-- GROUP (40_convert_command.md rule R113): one atomic step, enabled when `RUN = BUSY` (log 7). The reads come before
the write (20_memory.md rule R50). -/
def execGroup (s : State) : Out :=
  whenBusy s (fun s =>
    match s.loadFault with
    | some a => .fault (.engineAccess a)
    | none =>
      match s.storeFault with
      | some a => .fault (.engineAccess a)
      | none => .next s.convertGroup)

end Sys2Proof.Machine
end

