-- ==== Sys2Proof/Machine/Dispatch.lean ====
section
/-! DEFINITION. One arm per operation. -/

namespace Sys2Proof.Machine

def exec (i : Instr) (s : State) : Host.Outcome State Fault Refusal :=
  match i with
  | .wrreg r wdata => Sys2Proof.Machine.execWrreg r wdata s
  | .rdreg r => Sys2Proof.Machine.execRdreg r s
  | .convert => Sys2Proof.Machine.execConvert s
  | .ctrlnop => Sys2Proof.Machine.execCtrlnop s
  | .group => Sys2Proof.Machine.execGroup s
  | .ldw => Sys2Proof.Machine.execLdw s
  | .center => Sys2Proof.Machine.execCenter s
  | .matr => Sys2Proof.Machine.execMatr s
  | .matg => Sys2Proof.Machine.execMatg s
  | .matb => Sys2Proof.Machine.execMatb s
  | .cvt => Sys2Proof.Machine.execCvt s
  | .sat16 => Sys2Proof.Machine.execSat16 s
  | .sat8 => Sys2Proof.Machine.execSat8 s
  | .pack => Sys2Proof.Machine.execPack s
  | .store => Sys2Proof.Machine.execStore s

end Sys2Proof.Machine
end

