-- ==== Sys2Proof/Machine/Serve.lean ====
section
/-! DEFINITION. How a pending action is carried out: a coded operation on an engine, a memory access on the bus, the
pseudo-instruction WAIT and the platform's reset; and whose turn it is when nothing is pending. -/

namespace Sys2Proof.Machine

/-- The refusal a rejected code meets (60_exceptions.md rule R161, 30_encoding.md rule R146). -/
def refusalOfReject : Reject → Refusal
  | .partialAccess => .refPartialAccess
  | .reservedBits => .refReservedBits
  | .noStage => .noStage

/-- A coded operation on the engine in focus. -/
def runCode (c : Code) (s : State) : Out :=
  match decode c with
  | .ok i => exec i s
  | .error r => .refused (refusalOfReject r)

/-- Act on the engine in place `k`. -/
def onEngine (k : Nat) (s : State) (f : State → Out) : Out :=
  match s.focus k with
  | none => .refused .noEngine
  | some s => f s

/-- The place of the first engine whose mapped register block shares a byte with a run of addresses, and the block's
first address (20_memory.md rule R55, 60_exceptions.md rule R170). -/
def blockAt : List Engine → Nat → Span → Option (Nat × Nat)
  | [], _, _ => none
  | e :: l, k, r =>
    match e.csrBlock with
    | none => blockAt l (k + 1) r
    | some b => if Span.meets b r then some (k, b.base) else blockAt l (k + 1) r

/-- The offset of an access inside a register block, if it lies wholly in it; an access that runs over an edge of the
block is none of its slots (30_encoding.md rule R142, log 20). -/
def blockOffset (base : Nat) (r : Span) : Option (BitVec 6) :=
  if base ≤ r.base ∧ r.base + r.size ≤ base + 64 then some (BitVec.ofNat 6 (r.base - base)) else none

/-- Whether an access by another agent to a run of bytes is one the running commands forbid: a write of a byte of one of
their four regions, or a read of a byte of a pixel buffer (70_reset_and_hazards.md rule R133). -/
def touches (write : Bool) (r : Span) (e : Engine) : Bool :=
  decide (e.run = .busy) && (if write then anyMeets e.regions r else Span.meets e.outRegion r)

/-- The first byte of a run that is no ordinary memory (log 14). -/
def firstHole (s : State) (a : Nat) : Nat → Option Nat
  | 0 => none
  | n + 1 =>
    if decide (a < 2 ^ s.cfg.addrW) && anyHas s.cfg.ram a then firstHole s (a + 1) n else some a

/-- A memory access on the bus outside every register block. -/
def memAccess (write : Bool) (a n : Nat) (s : State) (t : State) : Out :=
  if s.engines.any (touches write ⟨a, n⟩) then .refused .refHostTouch
  else match firstHole s a n with
    | some h => .fault (.busHole h)
    | none => .next t

/-- A read of `n` bytes of the address space by the host or another agent: in a mapped register block it is RDREG of a
whole slot (30_encoding.md rule R143), elsewhere a memory read. -/
def busRead (a n : Nat) (s : State) : Out :=
  match blockAt s.engines 0 ⟨a, n⟩ with
  | some (k, base) =>
    match blockOffset base ⟨a, n⟩ with
    | none => .refused .refPartialAccess
    | some o => onEngine k s (runCode (.read o n))
  | none => memAccess false a n s (s.withMdata (memReadBytes s.mem a n))

/-- A write of bytes by the host or another agent: in a mapped register block it is a whole-slot write
(30_encoding.md rule R142), elsewhere a memory write. -/
def busWrite (a : Nat) (bytes : List Byte) (s : State) : Out :=
  match blockAt s.engines 0 ⟨a, bytes.length⟩ with
  | some (k, base) =>
    match blockOffset base ⟨a, bytes.length⟩ with
    | none => .refused .refPartialAccess
    | some o => onEngine k s (runCode (.write o bytes.length (BitVec.ofNat 64 (bytesLE bytes))))
  | none => memAccess true a bytes.length s (s.withMem (memWriteBytes s.mem a bytes))

/-- A turn of each of `n` engines, in the order of their places; a turn of an engine that is not BUSY does nothing
(40_convert_command.md rule R113, log 18). -/
def engineTurns (n : Nat) : List Event := (List.range n).map (fun j => .code j (.stage 0))

/-- One round of WAIT on the engine in focus, in place `k`: read `STATUS`; if `DONE` is not set, every engine takes its
turn and WAIT goes on (30_encoding.md rule R149, log 18). So no BUSY engine is kept from its step while the host waits
(40_convert_command.md rule R114, 60_exceptions.md rule R173). -/
def waitRound (k : Nat) (s : State) : Out :=
  match exec (.rdreg .status) s with
  | .next t =>
    if t.rdata.getLsbD 1 then .next t
    else .next (t.withInbox (engineTurns t.engines.length ++ .wait k :: t.inbox))
  | .fault f => .fault f
  | .refused r => .refused r

/-- Carry out an action. -/
def serve (ev : Event) (s : State) : Out :=
  match ev with
  | .code k c => onEngine k s (runCode c)
  | .busRead a n => busRead a n s
  | .busWrite a bytes => busWrite a bytes s
  | .wait k => onEngine k s (waitRound k)
  | .reset k => onEngine k s (fun s => .next s.resetEngine)

/-- The place of the first BUSY engine. -/
def firstBusy : List Engine → Nat → Option Nat
  | [], _ => none
  | e :: l, k => if e.run = .busy then some k else firstBusy l (k + 1)

/-- Nothing is pending: the first BUSY engine takes its step (log 17); when none is BUSY the block rests
(60_exceptions.md rule R172). -/
def engineTurn (s : State) : Out :=
  match firstBusy s.engines 0 with
  | none => .next s
  | some k => onEngine k s (exec .group)

/-! Host programs (30_encoding.md rules R148 and R149). -/

/-- `WR <reg>, <value>` on engine `k` (30_encoding.md rule R148). DESIGN CHOICE (log 27): a value is a natural number, and
of one from `2^64` on, which the 64 data bits do not hold and of which the spec says nothing, the low 64 bits are
written. -/
def wr (k : Nat) (r : Reg) (v : Nat) : Event := .code k (.write (slotOffset r) 8 (BitVec.ofNat 64 v))

/-- `RD <reg>` on engine `k`. -/
def rd (k : Nat) (r : Reg) : Event := .code k (.read (slotOffset r) 8)

/-- The pseudo-instruction START. -/
def startActions (k : Nat) : List Event := [wr k .ctrl 1]

/-- The pseudo-instruction `CONVERT l, cb, cr, out, bc, br` (30_encoding.md rule R149); its six values go through `wr` (log
27). -/
def convertActions (k l cb cr out bc br : Nat) : List Event :=
  [wr k (.op .lumaBase) l, wr k (.op .cbBase) cb, wr k (.op .crBase) cr, wr k (.op .outBase) out,
    wr k (.op .blockCols) bc, wr k (.op .blockRows) br] ++ startActions k ++ [.wait k]

end Sys2Proof.Machine
end

