-- ==== Sys2Proof/Machine/Step.lean ====
section
/-! DEFINITION. One step of the machine. -/

namespace Sys2Proof.Machine

/-- One step. With the refusal mark set the run is over (10_state.md rule R37, 70_reset_and_hazards.md rule R136). Else
the oldest pending action is taken from the inbox and carried out, and with none pending a BUSY engine steps (log 1). -/
def step (s : State) : Host.Outcome State Fault Refusal :=
  match s.refusal with
  | some r => .refused r
  | none =>
    match s.inbox with
    | [] => engineTurn s
    | ev :: rest => serve ev (s.withInbox rest)

/-- Place a table row's word where the next step takes its action: in front of the pending actions, for the engine in
focus (log 1, log 15). -/
def State.withFetchWord (s : State) (nbits w : Nat) : State :=
  s.withInbox (.code s.here (codeOfTableWord nbits w) :: s.inbox)

end Sys2Proof.Machine
end

