-- ==== Sys2Proof/Safety.lean ====
section
/-! DEFINITION. What counts as a safe run, and the invariant of the machine, in the terms the statements use. -/

namespace Sys2Proof.Machine

/-- The state a run is in after its next action: the next state, or, when the action is refused, the same state with the
refusal mark set (10_state.md rule R37, 60_exceptions.md rule R161, log 12). -/
def settle (s : State) : State :=
  match step s with
  | .next t => t
  | .fault _ => s
  | .refused r => s.markRefusal r

/-- The state after `n` actions of a run. -/
def runFor : Nat → State → State
  | 0, s => s
  | n + 1, s => runFor n (settle s)

/-- A run is inside the contract as long as the refusal mark is clear; every claim about a run takes this as a premise
(10_state.md rule R37). -/
def safe (s : State) : Bool := decide (s.refusal = none)

/-- The register fields hold values of their widths (10_state.md rules R21 to R26). -/
def Engine.fits (c : Config) (e : Engine) : Bool :=
  [OpReg.lumaBase, .cbBase, .crBase, .outBase, .blockCols, .blockRows].all
    (fun o => fitsField (fieldWidth c o) (e.get o).value)

/-- What the launch checks establish of the engine's own operands (40_convert_command.md rule R112). -/
def Engine.launchable (c : Config) (csr : List Span) (e : Engine) : Bool :=
  e.allWritten && decide (e.num .blockCols ≠ 0 ∧ e.num .blockRows ≠ 0) && e.aligned c && e.inSpace c &&
    e.admitted c csr && !e.selfAlias

/-- Where a running command stands: fewer than `G_TOTAL` groups are converted, and in any order the set of those
converted has `g` members, all of them groups of the command (10_state.md rule R31). -/
def Engine.position (c : Config) (e : Engine) : Bool :=
  decide (e.g < e.gTotal) &&
    (match c.groupOrder with
      | .ascending => true
      | .any => decide (e.converted.Nodup ∧ e.converted.length = e.g) &&
          e.converted.all (fun x => decide (x < e.gTotal)))

/-- What holds of one engine between steps. -/
structure Engine.Inv (c : Config) (csr : List Span) (e : Engine) : Prop where
  portLegal : e.port.legal c = true
  fits      : e.fits c = true
  gBound    : e.g < 2 ^ (2 * c.dimW + 4)
  busy      : e.run = .busy → e.launchable c csr = true ∧ e.position c = true

/-- Two engines are not both BUSY on conflicting regions (20_memory.md rule R56). -/
def Engine.apart (e f : Engine) : Prop :=
  e.run = .busy → f.run = .busy → e.conflicts f = false ∧ f.conflicts e = false

/-- The invariant of the machine: legal parameters, memory in canonical form inside the address space, every engine
right, and no two running commands in conflict. -/
structure State.Inv (s : State) : Prop where
  cfgLegal : s.cfg.legal = true
  memWf    : Memory.wf s.mem = true
  memIn    : ∀ c ∈ s.mem, c.1 < 2 ^ s.cfg.addrW
  engines  : ∀ e ∈ s.engines, e.Inv s.cfg s.csrBlocks
  apart    : s.engines.Pairwise Engine.apart

end Sys2Proof.Machine
end

