-- ==== Sys2Proof/Certificates/Slice0/Obligations.lean ====
section
/-! DEFINITION. The statements for the provers. Each names the rule of spec/ it formalises; where a clause is the
model's own choice the docstring names the log entry. -/

open Sys2Proof Sys2Proof.Machine

namespace Sys2Proof.Claims

/-! Words the statements share. -/

/-- Every byte of memory reads as before. -/
def SameMem (s t : State) : Prop := ∀ a, memRead t.mem a = memRead s.mem a

/-- Outside the engine in focus and memory everything is as before: the parameters, the other engines, the refusal mark,
the pending actions and what the latest memory read returned. -/
def SameAround (s t : State) : Prop :=
  t.cfg = s.cfg ∧ t.engL = s.engL ∧ t.engR = s.engR ∧ t.refusal = s.refusal ∧ t.inbox = s.inbox ∧ t.mdata = s.mdata

/-- The six operand registers with their marks, and the engine's port, are as before. -/
def SameOperands (s t : State) : Prop := (∀ o, t.eng.get o = s.eng.get o) ∧ t.eng.port = s.eng.port

/-- The sequencer is as before: the run state, the group counter, the groups converted and the free choices made. -/
def SameSequencer (s t : State) : Prop :=
  t.eng.run = s.eng.run ∧ t.eng.g = s.eng.g ∧ t.eng.converted = s.eng.converted ∧ t.eng.freeIdx = s.eng.freeIdx

/-- `t` is `s` with the datapath of the engine in focus replaced by `d`, and everything else as in `s`. -/
def OnlyDatapath (s t : State) (d : Datapath) : Prop :=
  t.eng.dp = d ∧ SameOperands s t ∧ SameSequencer s t ∧ t.mem = s.mem ∧ t.rdata = s.rdata ∧ SameAround s t

/-- `a` is one of the `n` addresses from `base`. -/
def InRun (base n a : Nat) : Prop := base ≤ a ∧ a < base + n

/-- `N` of the command in the registers of an engine (10_state.md rule R32). -/
def sampleCount (e : Engine) : Nat := 64 * (e.num .blockCols) * (e.num .blockRows)

/-- `a` is a byte of one of the three planes of an engine's command (20_memory.md rule R42). -/
def InPlanes (e : Engine) (a : Nat) : Prop :=
  InRun (e.num .lumaBase) (sampleCount e) a ∨ InRun (e.num .cbBase) (sampleCount e) a ∨
    InRun (e.num .crBase) (sampleCount e) a

/-- `a` is a byte of the pixel buffer of an engine's command (20_memory.md rule R42). -/
def InPixels (e : Engine) (a : Nat) : Prop := InRun (e.num .outBase) (4 * sampleCount e) a

/-! The launch checks of 40_convert_command.md rule R112, byte by byte. -/

def Written (e : Engine) : Prop := ∀ o, (e.get o).written = true

def DimsPositive (e : Engine) : Prop := e.num .blockCols ≠ 0 ∧ e.num .blockRows ≠ 0

def BasesAligned (c : Config) (e : Engine) : Prop :=
  e.num .lumaBase % c.alignIn = 0 ∧ e.num .cbBase % c.alignIn = 0 ∧ e.num .crBase % c.alignIn = 0 ∧
    e.num .outBase % c.alignOut = 0

def RegionsInSpace (c : Config) (e : Engine) : Prop :=
  e.num .lumaBase + sampleCount e ≤ 2 ^ c.addrW ∧ e.num .cbBase + sampleCount e ≤ 2 ^ c.addrW ∧
    e.num .crBase + sampleCount e ≤ 2 ^ c.addrW ∧ e.num .outBase + 4 * sampleCount e ≤ 2 ^ c.addrW

def BytesAdmitted (s : State) : Prop :=
  (∀ a, InPlanes s.eng a → s.mayRead a = true) ∧ (∀ a, InPixels s.eng a → s.mayWrite a = true)

/-- No byte of the pixel buffer is a byte of a plane, of a region a running command of another engine reads or writes,
and no byte of a plane is a byte another running command writes. -/
def NoAlias (s : State) : Prop :=
  (∀ a, ¬ (InPixels s.eng a ∧ InPlanes s.eng a)) ∧
    ∀ f ∈ s.peers, f.run = .busy → ∀ a,
      ¬ (InPixels s.eng a ∧ (InPlanes f a ∨ InPixels f a)) ∧ ¬ (InPlanes s.eng a ∧ InPixels f a)

/-- The twelve bytes LDW reads for group `g` (20_memory.md rule R44). -/
def InGroupReads (e : Engine) (g a : Nat) : Prop :=
  InRun (e.num .lumaBase + 4 * g) 4 a ∨ InRun (e.num .cbBase + 4 * g) 4 a ∨ InRun (e.num .crBase + 4 * g) 4 a

/-- The sixteen bytes STORE writes for group `g` (20_memory.md rule R44). -/
def InGroupWrites (e : Engine) (g a : Nat) : Prop := InRun (e.num .outBase + 16 * g) 16 a

/-- The byte of a plane for linear index `i` (20_memory.md rule R43). -/
def sample (s : State) (base : OpReg) (i : Nat) : Byte := memRead s.mem (s.eng.num base + i)

/-- `PIX` of the three samples at linear index `i` (40_convert_command.md rule R116). -/
def pixelAt (s : State) (i : Nat) : BitVec 32 :=
  pix s.cfg (sample s .lumaBase i) (sample s .cbBase i) (sample s .crBase i)

/-- No one of `n` bytes from `a` belongs to a register block that is mapped into memory (20_memory.md rule R55). -/
def OffTheBlocks (s : State) (a n : Nat) : Prop :=
  ∀ e ∈ s.engines, ∀ base, e.port.csrBase = some base → ∀ x, InRun a n x → ¬ InRun base 64 x

/-- The values of 41_csc_matrix.md rules R61 to R65 on the way from three samples to the three channels, these last. -/
def matrixValues (k : CoeffSet) (y cb cr : Byte) : List F32 :=
  let yf := u8ToF32 y
  let b := centerLane (u8ToF32 cb)
  let r := centerLane (u8ToF32 cr)
  [yf, u8ToF32 cb, u8ToF32 cr, b, r, fmul kR r, fmul (kGB k) b, fmul (kGR k) r, fmul kB b,
    fsub yf (fmul (kGB k) b), redLane yf r, greenLane k yf b r, blueLane yf b]

/-- The command in the one engine has just been accepted and nothing else is pending: the state a run of one command
starts from. -/
def JustStarted (s : State) : Prop :=
  s.Inv ∧ s.engL = [] ∧ s.engR = [] ∧ s.inbox = [] ∧ s.refusal = none ∧ s.eng.run = .busy ∧ s.eng.g = 0

end Sys2Proof.Claims

open Sys2Proof.Claims

/-! ## Encodings -/

/-- Every well-formed operation is what its code decodes to, with every operand at every value (30_encoding.md rules R141
to R144 and R150). -/
def Obligations.DecodeOfEncodeIsTheOperation : Prop :=
  ∀ i : Instr, i.wellFormed = true → decode (encode i) = .ok i

/-- A code has one meaning: what decodes to an operation is that operation's code, and the operation is well formed
(30_encoding.md rules R144, R146 and R147). -/
def Obligations.EncodeOfDecodeIsTheCode : Prop :=
  ∀ (c : Code) (i : Instr), decode c = .ok i → encode i = c ∧ i.wellFormed = true

/-- Words written out from 30_encoding.md rules R141 to R144 and R150 and the listings of 95_test_vectors.md V2 decode to what
they stand for. That a table word shorter than a byte is padded to one, and that the data bits it does not give are 0, is
the model's choice (log 15). -/
def Obligations.SpecWordsDecode : Prop :=
  decode (.write 0b000000#6 8 0x1000#64) = .ok (.wrreg (.op .lumaBase) 0x1000#64) ∧
  decode (.write 0b011000#6 8 0x2000#64) = .ok (.wrreg (.op .outBase) 0x2000#64) ∧
  decode (.write 0b100000#6 8 0x2#64) = .ok (.wrreg (.op .blockCols) 2#64) ∧
  decode (.write 0b111000#6 8 0x0#64) = .ok (.wrreg .status 0#64) ∧
  decode (.read 0b111000#6 8) = .ok (.rdreg .status) ∧
  decode (.read 0b011000#6 8) = .ok (.rdreg (.op .outBase)) ∧
  decode (.write 0b110000#6 8 1#64) = .ok .convert ∧
  decode (.write 0b110000#6 8 0#64) = .ok .ctrlnop ∧
  decodeTableWord 8 0b11100001 = some .convert ∧
  decodeTableWord 8 0b11100000 = some .ctrlnop ∧
  decodeTableWord 8 0b01101000 = some (.wrreg (.op .blockRows) 0#64) ∧
  decodeTableWord 8 0b00111000 = some (.rdreg .status) ∧
  decodeTableWord 8 0b0110 = some .cvt ∧
  decodeTableWord 8 0b1010 = some .store

/-- 30_encoding.md rule R150: the eleven stage patterns name the group step and the ten stages, and `1011` to `1111` name
nothing. -/
def Obligations.StagePatternsNameTheStages : Prop :=
  decode (.stage 0b0000#4) = .ok .group ∧ decode (.stage 0b0001#4) = .ok .ldw ∧
  decode (.stage 0b0010#4) = .ok .center ∧ decode (.stage 0b0011#4) = .ok .matr ∧
  decode (.stage 0b0100#4) = .ok .matg ∧ decode (.stage 0b0101#4) = .ok .matb ∧
  decode (.stage 0b0110#4) = .ok .cvt ∧ decode (.stage 0b0111#4) = .ok .sat16 ∧
  decode (.stage 0b1000#4) = .ok .sat8 ∧ decode (.stage 0b1001#4) = .ok .pack ∧
  decode (.stage 0b1010#4) = .ok .store ∧
  ∀ n : BitVec 4, 0b1011#4 ≤ n → decode (.stage n) = .error .noStage

/-- 30_encoding.md rule R146, row by row, in any state in which no earlier reason of 60_exceptions.md rule R162 applies:
reserved bits, the read-only and the write-only register, an unwritten register, an access that is no whole slot, and the
reserved bits of `STATUS`, which read 0. -/
def Obligations.ReservedEncodingsAreRefused : Prop :=
  (∀ s o w, s.eng.run ≠ .busy → 2 ^ fieldWidth s.cfg o ≤ w.toNat →
    runCode (.write (slotOffset (.op o)) 8 w) s = .refused .refReservedBits) ∧
  (∀ s (w : Word64), 2 ≤ w.toNat → runCode (.write 0b110000#6 8 w) s = .refused .refReservedBits) ∧
  (∀ s w, runCode (.write 0b111000#6 8 w) s = .refused .refReadOnly) ∧
  (∀ s, runCode (.read 0b110000#6 8) s = .refused .refWriteOnly) ∧
  (∀ s o, (s.eng.get o).written = false →
    runCode (.read (slotOffset (.op o)) 8) s = .refused .refUnwritten) ∧
  (∀ s (offset : BitVec 6) size w, ¬ (size = 8 ∧ offset.toNat % 8 = 0) →
    runCode (.write offset size w) s = .refused .refPartialAccess ∧
      runCode (.read offset size) s = .refused .refPartialAccess) ∧
  (∀ s, ∃ t, runCode (.read 0b111000#6 8) s = .next t ∧ t.rdata.toNat < 4)

/-! ## Steps -/

/-- With the mark clear and a coded operation oldest in the inbox, the step takes it out, brings its engine into focus
and runs the decoded operation; a code that is no operation is refused by name. The inbox and the focus are the model's form
(log 1, log 17); that a stage pattern which names nothing is refused `noStage`, and an operation on an engine that does not
exist `noEngine`, is its choice (log 22). -/
def Obligations.StepRunsTheDecodedOperation : Prop :=
  (∀ (s f : State) (k : Nat) (c : Code) (rest : List Event), s.refusal = none → s.inbox = .code k c :: rest →
    (s.withInbox rest).focus k = some f →
    (∀ i, decode c = .ok i → step s = exec i f) ∧
    (∀ r, decode c = .error r → step s = .refused (refusalOfReject r)) ∧
    f.inbox = rest ∧ s.engines[k]? = some f.eng ∧ f.engines = s.engines ∧ f.mem = s.mem ∧ f.cfg = s.cfg) ∧
  (∀ (s : State) (k : Nat) (c : Code) (rest : List Event), s.refusal = none → s.inbox = .code k c :: rest →
    s.engines.length ≤ k → step s = .refused .noEngine)

/-- A table row's word, placed by `withFetchWord`, is what the next step runs, in any state with the mark clear (log 1,
log 15). -/
def Obligations.PlacedWordIsRunNext : Prop :=
  ∀ (s : State) (nbits w : Nat) (i : Instr), s.refusal = none → decodeTableWord nbits w = some i →
    step (s.withFetchWord nbits w) = exec i s

/-- 10_state.md rule R37: the mark is clear at reset; the first refused action sets it and changes nothing else, and no
later step or reset clears it. That `settle` records it, and that with the mark set every step is refused for the same reason
and the state stays, where 70_reset_and_hazards.md rule R136 specifies nothing, is the model's choice (log 12). -/
def Obligations.RefusalMarkIsSetOnceAndKept : Prop :=
  State.reset.refusal = none ∧
  (∀ s r, s.refusal = none → step s = .refused r → settle s = { s with refusal := some r }) ∧
  (∀ s r, s.refusal = some r → step s = .refused r ∧ ∀ n, runFor n s = s)

/-- 60_exceptions.md rule R172: with nothing pending and no engine BUSY, a step does nothing. -/
def Obligations.RestingBlockDoesNothing : Prop :=
  ∀ s : State, s.refusal = none → s.inbox = [] → (∀ e ∈ s.engines, e.run ≠ .busy) → step s = .next s

/-- With nothing pending, the first BUSY engine, wherever it stands, is brought into focus and takes its group step (log
17). -/
def Obligations.BusyEngineTakesTheGroupStep : Prop :=
  ∀ (s f : State) (k : Nat), s.refusal = none → s.inbox = [] → s.focus k = some f → f.eng.run = .busy →
    (∀ (j : Nat) (e : Engine), j < k → s.engines[j]? = some e → e.run ≠ .busy) →
    step s = exec .group f ∧ f.inbox = [] ∧ s.engines[k]? = some f.eng ∧ f.engines = s.engines ∧ f.mem = s.mem ∧
      f.cfg = s.cfg

/-- 60_exceptions.md rules R160 and R173, 40_convert_command.md rule R114: in a state the invariant holds of, with the mark
clear, the machine has a next state when nothing is pending; and when the host waits for an engine that is not DONE, one
round of WAIT, a read of `STATUS` and a turn of each engine (log 18), brings every BUSY engine one group nearer to its end,
whichever engine the host waits for. -/
def Obligations.EngineTurnNeverFails : Prop :=
  (∀ s : State, s.Inv → s.refusal = none → s.inbox = [] → ∃ t, step s = .next t) ∧
  (∀ (s : State) (k : Nat) (e : Engine) (rest : List Event), s.Inv → s.refusal = none → s.inbox = .wait k :: rest →
    s.engines[k]? = some e → e.run ≠ .done →
    ∃ t, Host.Core.run Sys2Proof.core (s.engines.length + 1) s = .next t ∧ t.Inv ∧ t.refusal = none ∧
      t.inbox = .wait k :: rest ∧ t.engines.length = s.engines.length ∧
      ∀ (j : Nat) (f : Engine), s.engines[j]? = some f →
        (f.run ≠ .busy → t.engines[j]? = some f) ∧
        (f.run = .busy → ∃ f', t.engines[j]? = some f' ∧ f'.g = f.g + 1 ∧ (∀ o, f'.get o = f.get o) ∧
          (f.g + 1 = f.gTotal → f'.run = .done) ∧ (f.g + 1 ≠ f.gTotal → f'.run = .busy)))

/-! ## Reset -/

/-- The reset values 10_state.md rule R39 gives: the six marks false, `STATUS` 0, `RUN` IDLE, `g` 0, the refusal mark
clear. -/
def Obligations.ResetValues : Prop :=
  (∀ o, (State.reset.eng.get o).written = false) ∧ State.reset.eng.run.statusWord = 0 ∧
    State.reset.eng.run = .idle ∧ State.reset.eng.g = 0 ∧ State.reset.refusal = none

/-- 70_reset_and_hazards.md rule R130: a reset of an engine in any run state leaves it IDLE with `g = 0`, `STATUS` 0 and
every mark false, and changes neither memory nor another engine nor the refusal mark. That after a reset while BUSY the
pixel buffer of the ended command holds exactly what memory held before, where rules R130 and R135 give it any value, is the
model's choice (log 19, unsafe), and so is the form of a datapath that holds nothing (log 6). -/
def Obligations.ResetOfAnEngine : Prop :=
  ∀ (s : State) (k : Nat) (rest : List Event), s.refusal = none → s.inbox = .reset k :: rest →
    k < s.engines.length →
    ∃ t e, step s = .next t ∧ t.engines[k]? = some e ∧ e.run = .idle ∧ e.g = 0 ∧ e.run.statusWord = 0 ∧
      e.dp = .empty ∧ (∀ o, (e.get o).written = false) ∧ (∀ j, j ≠ k → t.engines[j]? = s.engines[j]?) ∧
      t.mem = s.mem ∧ t.refusal = none ∧ t.cfg = s.cfg ∧ t.inbox = rest

/-! ## Host actions -/

/-- 40_convert_command.md rule R110, the whole of WRREG: the refusals in their order, the accepted write with its frame,
and that a write of `CTRL` is CONVERT or CTRLNOP. -/
def Obligations.WrregMeaning : Prop :=
  (∀ s w, exec (.wrreg .status w) s = .refused .refReadOnly) ∧
  (∀ (w : Word64) i, decode (.write (slotOffset .ctrl) 8 w) = .ok i → (w = 1 ∧ i = .convert) ∨ (w = 0 ∧ i = .ctrlnop)) ∧
  (∀ s o w, s.eng.run = .busy → exec (.wrreg (.op o) w) s = .refused .refBusy) ∧
  (∀ s o w, s.eng.run ≠ .busy → 2 ^ fieldWidth s.cfg o ≤ w.toNat →
    exec (.wrreg (.op o) w) s = .refused .refReservedBits) ∧
  (∀ s o w, s.eng.run ≠ .busy → w.toNat < 2 ^ fieldWidth s.cfg o →
    ∃ t, exec (.wrreg (.op o) w) s = .next t ∧ t.eng.get o = ⟨w, true⟩ ∧
      (∀ o', o' ≠ o → t.eng.get o' = s.eng.get o') ∧ t.eng.port = s.eng.port ∧ SameSequencer s t ∧
      t.eng.dp = s.eng.dp ∧ t.mem = s.mem ∧ t.rdata = s.rdata ∧ SameAround s t)

/-- 40_convert_command.md rule R111, the whole of RDREG: the refusals, the data returned (held in `rdata`, log 16), and
that a read changes nothing else. -/
def Obligations.RdregMeaning : Prop :=
  (∀ s, exec (.rdreg .ctrl) s = .refused .refWriteOnly) ∧
  (∀ s, ∃ t, exec (.rdreg .status) s = .next t ∧ t = { s with rdata := t.rdata } ∧
    (s.eng.run = .idle → t.rdata = 0) ∧ (s.eng.run = .busy → t.rdata = 1) ∧ (s.eng.run = .done → t.rdata = 2)) ∧
  (∀ s o, (s.eng.get o).written = false → exec (.rdreg (.op o)) s = .refused .refUnwritten) ∧
  (∀ s o, (s.eng.get o).written = true →
    exec (.rdreg (.op o)) s = .next { s with rdata := (s.eng.get o).value })

/-- 40_convert_command.md rule R115: a write of 0 to `CTRL` is accepted in every run state and changes nothing. -/
def Obligations.CtrlnopMeaning : Prop :=
  decode (.write (slotOffset .ctrl) 8 0) = .ok .ctrlnop ∧ ∀ s, exec .ctrlnop s = .next s

/-- 40_convert_command.md rule R112, the whole of CONVERT: the launch checks in their order, each with its reason, and the
accepted start, which sets `g` and `RUN` and changes nothing else. A code that writes `CTRL` with a reserved bit set is
refused before it is a command. -/
def Obligations.ConvertMeaning : Prop :=
  (∀ s (w : Word64), 2 ≤ w.toNat → runCode (.write (slotOffset .ctrl) 8 w) s = .refused .refReservedBits) ∧
  decode (.write (slotOffset .ctrl) 8 1) = .ok .convert ∧
  ∀ s : State,
    (s.eng.run = .busy → exec .convert s = .refused .refBusy) ∧
    (s.eng.run ≠ .busy → ¬ Written s.eng → exec .convert s = .refused .refUnwritten) ∧
    (s.eng.run ≠ .busy → Written s.eng → ¬ DimsPositive s.eng → exec .convert s = .refused .refDimZero) ∧
    (s.eng.run ≠ .busy → Written s.eng → DimsPositive s.eng → ¬ BasesAligned s.cfg s.eng →
      exec .convert s = .refused .refMisaligned) ∧
    (s.eng.run ≠ .busy → Written s.eng → DimsPositive s.eng → BasesAligned s.cfg s.eng →
      ¬ RegionsInSpace s.cfg s.eng → exec .convert s = .refused .refRegionWrap) ∧
    (s.eng.run ≠ .busy → Written s.eng → DimsPositive s.eng → BasesAligned s.cfg s.eng →
      RegionsInSpace s.cfg s.eng → ¬ BytesAdmitted s → exec .convert s = .refused .refRegionNotAdmitted) ∧
    (s.eng.run ≠ .busy → Written s.eng → DimsPositive s.eng → BasesAligned s.cfg s.eng →
      RegionsInSpace s.cfg s.eng → BytesAdmitted s → ¬ NoAlias s → exec .convert s = .refused .refAlias) ∧
    (s.eng.run ≠ .busy → Written s.eng → DimsPositive s.eng → BasesAligned s.cfg s.eng →
      RegionsInSpace s.cfg s.eng → BytesAdmitted s → NoAlias s →
      ∃ t, exec .convert s = .next t ∧ t.eng.g = 0 ∧ t.eng.run = .busy ∧ t.eng.run.statusWord = 1 ∧
        SameOperands s t ∧ t.eng.dp = s.eng.dp ∧ t.mem = s.mem ∧ t.rdata = s.rdata ∧ SameAround s t)

/-! ## The group step and its stages -/

/-- 40_convert_command.md rule R113, "Enabled exactly when RUN = BUSY": in IDLE and DONE the engine's operations do nothing
(log 7). -/
def Obligations.EngineStepsNeedBusy : Prop :=
  ∀ (s : State) (i : Instr), s.eng.run ≠ .busy →
    i ∈ [Instr.group, .ldw, .center, .matr, .matg, .matb, .cvt, .sat16, .sat8, .pack, .store] →
    exec i s = .next s

/-- GROUP (40_convert_command.md rule R113) on the group in hand: with its bytes within reach it completes; pixel `4g + i`
is `PIX` of the samples at index `4g + i` as they were before the step; every byte outside the sixteen stored is as before;
`g` goes up by one, and `STATUS` goes from 1 to 2 exactly when that reaches `G_TOTAL`; operands, other engines, marks and
data read stay. That the datapath is empty afterwards is the model's form of rule R33 (log 6). -/
def Obligations.GroupConvertsItsFourPixels : Prop :=
  ∀ s : State, s.eng.run = .busy →
    (∀ a, InGroupReads s.eng s.curGroup a → s.mayRead a = true) →
    (∀ a, InGroupWrites s.eng s.curGroup a → s.mayWrite a = true) →
    ∃ t, exec .group s = .next t ∧
      (∀ i, i < 4 → memReadLE t.mem (s.eng.num .outBase + 4 * (4 * s.curGroup + i)) 4 =
        (pixelAt s (4 * s.curGroup + i)).toNat) ∧
      (∀ a, ¬ InGroupWrites s.eng s.curGroup a → memRead t.mem a = memRead s.mem a) ∧
      t.eng.g = s.eng.g + 1 ∧
      (s.eng.g + 1 = s.eng.gTotal → t.eng.run = .done ∧ t.eng.run.statusWord = 2) ∧
      (s.eng.g + 1 ≠ s.eng.gTotal → t.eng.run = .busy ∧ t.eng.run.statusWord = 1) ∧
      SameOperands s t ∧ t.rdata = s.rdata ∧ SameAround s t ∧ t.eng.dp = .empty

/-- The group in hand: `g` in ascending order; in any order one of the command's groups not yet converted, and it is
entered among those converted (10_state.md rule R31, 40_convert_command.md rules R113 and R119; log 10). The premise is
part of the invariant. -/
def Obligations.GroupInHandIsUnconverted : Prop :=
  ∀ s : State, s.eng.position s.cfg = true →
    s.curGroup < s.eng.gTotal ∧ (s.cfg.groupOrder = .ascending → s.curGroup = s.eng.g) ∧
    (s.cfg.groupOrder = .any → s.curGroup ∉ s.eng.converted ∧
      ∀ t, s.eng.run = .busy → exec .group s = .next t → t.eng.converted = s.curGroup :: s.eng.converted)

/-- 60_exceptions.md rule R160: in a state the invariant holds of, a BUSY engine's GROUP, LDW and STORE complete. In any other
state, where a byte of the group in hand is out of the engine's reach, they stop with a fault that names such a byte: one the
group reads and may not read, or one it writes and may not write (the model's choice, log 13). -/
def Obligations.OutOfReachStops : Prop :=
  (∀ s : State, s.Inv → s.eng.run = .busy →
    (∃ t, exec .group s = .next t) ∧ (∃ t, exec .ldw s = .next t) ∧ ∃ t, exec .store s = .next t) ∧
  ∀ s : State, s.eng.run = .busy →
    (∀ a, InGroupReads s.eng s.curGroup a → s.mayRead a = false →
      (∃ b, exec .group s = .fault (.engineAccess b) ∧ InGroupReads s.eng s.curGroup b ∧ s.mayRead b = false) ∧
        ∃ b, exec .ldw s = .fault (.engineAccess b) ∧ InGroupReads s.eng s.curGroup b ∧ s.mayRead b = false) ∧
    (∀ a, InGroupWrites s.eng s.curGroup a → s.mayWrite a = false →
      ((∀ b, InGroupReads s.eng s.curGroup b → s.mayRead b = true) →
        ∃ b, exec .group s = .fault (.engineAccess b) ∧ InGroupWrites s.eng s.curGroup b ∧ s.mayWrite b = false) ∧
        ∃ b, exec .store s = .fault (.engineAccess b) ∧ InGroupWrites s.eng s.curGroup b ∧ s.mayWrite b = false)

/-- LDW (41_csc_matrix.md rule R61): lane `i` of each byte vector is the byte at index `4g + i` of its plane, and each is
widened exactly, as an unsigned number; nothing but the datapath changes. -/
def Obligations.LdwLoadsAndWidens : Prop :=
  ∀ s : State, s.eng.run = .busy → (∀ a, InGroupReads s.eng s.curGroup a → s.mayRead a = true) →
    ∃ t d, exec .ldw s = .next t ∧ OnlyDatapath s t d ∧
      (∀ i, i < 4 →
        d.yb.get i = sample s .lumaBase (4 * s.curGroup + i) ∧
        d.cbb.get i = sample s .cbBase (4 * s.curGroup + i) ∧
        d.crb.get i = sample s .crBase (4 * s.curGroup + i) ∧
        (d.yf.get i).units = (d.yb.get i).toNat * 2 ^ 149 ∧
        (d.cbf.get i).units = (d.cbb.get i).toNat * 2 ^ 149 ∧
        (d.crf.get i).units = (d.crb.get i).toNat * 2 ^ 149) ∧
      d = { s.eng.dp with yb := d.yb, cbb := d.cbb, crb := d.crb, yf := d.yf, cbf := d.cbf, crf := d.crf }

/-- CENTER (41_csc_matrix.md rule R62): 128.0 is subtracted from both chroma vectors, luma and everything else stay, and on
every byte the result is the exact integer. -/
def Obligations.CenterSubtractsTheBias : Prop :=
  (∀ s : State, s.eng.run = .busy →
    ∃ t d, exec .center s = .next t ∧ OnlyDatapath s t d ∧
      (∀ i, i < 4 → d.cbc.get i = fsub (s.eng.dp.cbf.get i) ⟨128 * 2 ^ 149⟩ ∧
        d.crc.get i = fsub (s.eng.dp.crf.get i) ⟨128 * 2 ^ 149⟩) ∧
      d = { s.eng.dp with cbc := d.cbc, crc := d.crc }) ∧
  (∀ b : Byte, (fsub (u8ToF32 b) ⟨128 * 2 ^ 149⟩).units = ((b.toNat : Int) - 128) * 2 ^ 149)

/-- MATR (41_csc_matrix.md rule R63): the product is rounded, then the sum; nothing else changes. -/
def Obligations.MatrComputesTheRedRow : Prop :=
  ∀ s : State, s.eng.run = .busy →
    ∃ t d, exec .matr s = .next t ∧ OnlyDatapath s t d ∧
      (∀ i, i < 4 → d.rf.get i = fadd (s.eng.dp.yf.get i) (fmul kR (s.eng.dp.crc.get i))) ∧
      d = { s.eng.dp with rf := d.rf }

/-- MATG (41_csc_matrix.md rule R64): left to right, each product and each difference rounded, with the coefficients of
`COEFF_SET`; nothing else changes. -/
def Obligations.MatgComputesTheGreenRow : Prop :=
  ∀ s : State, s.eng.run = .busy →
    ∃ t d, exec .matg s = .next t ∧ OnlyDatapath s t d ∧
      (∀ i, i < 4 → d.gf.get i =
        fsub (fsub (s.eng.dp.yf.get i) (fmul (kGB s.cfg.coeffSet) (s.eng.dp.cbc.get i)))
          (fmul (kGR s.cfg.coeffSet) (s.eng.dp.crc.get i))) ∧
      d = { s.eng.dp with gf := d.gf }

/-- MATB (41_csc_matrix.md rule R65): the product is rounded, then the sum; nothing else changes. -/
def Obligations.MatbComputesTheBlueRow : Prop :=
  ∀ s : State, s.eng.run = .busy →
    ∃ t d, exec .matb s = .next t ∧ OnlyDatapath s t d ∧
      (∀ i, i < 4 → d.bf.get i = fadd (s.eng.dp.yf.get i) (fmul kB (s.eng.dp.cbc.get i))) ∧
      d = { s.eng.dp with bf := d.bf }

/-- CVT (42_pixel_packer.md rule R80): each lane of the three vectors is converted by the tie rule; nothing else
changes. -/
def Obligations.CvtConvertsToIntegers : Prop :=
  ∀ s : State, s.eng.run = .busy →
    ∃ t d, exec .cvt s = .next t ∧ OnlyDatapath s t d ∧
      (∀ i, i < 4 → d.ri.get i = cvtS32 s.cfg.cvtTies (s.eng.dp.rf.get i) ∧
        d.gi.get i = cvtS32 s.cfg.cvtTies (s.eng.dp.gf.get i) ∧
        d.bi.get i = cvtS32 s.cfg.cvtTies (s.eng.dp.bf.get i)) ∧
      d = { s.eng.dp with ri := d.ri, gi := d.gi, bi := d.bi }

/-- SAT16 (42_pixel_packer.md rule R81): each signed lane is clamped to 0..65535; nothing else changes. -/
def Obligations.Sat16NarrowsToSixteenBits : Prop :=
  ∀ s : State, s.eng.run = .busy →
    ∃ t d, exec .sat16 s = .next t ∧ OnlyDatapath s t d ∧
      (∀ i, i < 4 →
        ((d.rh.get i).toNat : Int) = max 0 (min 65535 (s.eng.dp.ri.get i).toInt) ∧
        ((d.gh.get i).toNat : Int) = max 0 (min 65535 (s.eng.dp.gi.get i).toInt) ∧
        ((d.bh.get i).toNat : Int) = max 0 (min 65535 (s.eng.dp.bi.get i).toInt)) ∧
      d = { s.eng.dp with rh := d.rh, gh := d.gh, bh := d.bh }

/-- SAT8 (42_pixel_packer.md rule R82): each unsigned lane is clamped to 255; nothing else changes. -/
def Obligations.Sat8NarrowsToEightBits : Prop :=
  ∀ s : State, s.eng.run = .busy →
    ∃ t d, exec .sat8 s = .next t ∧ OnlyDatapath s t d ∧
      (∀ i, i < 4 →
        (d.r8.get i).toNat = min 255 (s.eng.dp.rh.get i).toNat ∧
        (d.g8.get i).toNat = min 255 (s.eng.dp.gh.get i).toNat ∧
        (d.b8.get i).toNat = min 255 (s.eng.dp.bh.get i).toNat) ∧
      d = { s.eng.dp with r8 := d.r8, g8 := d.g8, b8 := d.b8 }

/-- PACK (42_pixel_packer.md rule R83): pixel `i` is Alpha 0, Red, Green, Blue of lane `i` from the most significant byte
down; nothing else changes. -/
def Obligations.PackInterleavesTheChannels : Prop :=
  ∀ s : State, s.eng.run = .busy →
    ∃ t d, exec .pack s = .next t ∧ OnlyDatapath s t d ∧
      (∀ i, i < 4 → (d.p.get i).toNat =
        (s.eng.dp.r8.get i).toNat * 2 ^ 16 + (s.eng.dp.g8.get i).toNat * 2 ^ 8 + (s.eng.dp.b8.get i).toNat) ∧
      d = { s.eng.dp with p := d.p }

/-- STORE (42_pixel_packer.md rule R84): pixel `i` of the group is written little-endian at `OUT_BASE + 16g + 4i`; every
other byte, and everything but memory, is as before. -/
def Obligations.StoreWritesTheFourPixels : Prop :=
  ∀ s : State, s.eng.run = .busy → (∀ a, InGroupWrites s.eng s.curGroup a → s.mayWrite a = true) →
    ∃ t, exec .store s = .next t ∧
      (∀ i, i < 4 → memReadLE t.mem (s.eng.num .outBase + 16 * s.curGroup + 4 * i) 4 = (s.eng.dp.p.get i).toNat) ∧
      (∀ a, ¬ InGroupWrites s.eng s.curGroup a → memRead t.mem a = memRead s.mem a) ∧
      t.eng = s.eng ∧ t.rdata = s.rdata ∧ SameAround s t

/-- 42_pixel_packer.md rule R88: the sixteen bytes of one group, `B8[i]`, `G8[i]`, `R8[i]`, 0 at `a + 4i` to `a + 4i + 3`. -/
def Obligations.GroupBytesInMemory : Prop :=
  ∀ (m : List Host.Cell) (base g : Nat) (r8 g8 b8 : Lanes Byte) (i : Nat), i < 4 →
    let m' := storeGroup m base g (.ofFn (fun i => packLane (r8.get i) (g8.get i) (b8.get i)))
    let a := base + 16 * g
    memRead m' (a + 4 * i) = b8.get i ∧ memRead m' (a + 4 * i + 1) = g8.get i ∧
      memRead m' (a + 4 * i + 2) = r8.get i ∧ memRead m' (a + 4 * i + 3) = 0

/-! ## Arithmetic -/

/-- 00_scope.md rule R9 on its stated domain: `rnd32(a / d)` in units of `2^-149` is `n * 2^s` for an integer `n` nearest
the quotient, even at a tie, with `2^23 <= n <= 2^24`: no other multiple of the unit is nearer; and `rnd32(0) = 0`. -/
def Obligations.RoundingIsNearestEven : Prop :=
  (∀ d : Nat, rnd32 0 d = ⟨0⟩) ∧ ∀ (a d : Nat) (neg : Bool), 0 < a → 0 < d → d ≤ a * 2 ^ 126 → a < 2 ^ 128 * d →
    ∃ n s : Nat, rnd32 (if neg then -(a : Int) else a) d = ⟨(if neg then -1 else 1) * ((n * 2 ^ s : Nat) : Int)⟩ ∧
      2 ^ 23 ≤ n ∧ n ≤ 2 ^ 24 ∧ 2 ^ (s + 23) * d ≤ a * 2 ^ 149 ∧ a * 2 ^ 149 < 2 ^ (s + 24) * d ∧
      2 * (n * 2 ^ s * d) ≤ 2 * (a * 2 ^ 149) + 2 ^ s * d ∧
      2 * (a * 2 ^ 149) ≤ 2 * (n * 2 ^ s * d) + 2 ^ s * d ∧
      (2 * (a * 2 ^ 149) = 2 * (n * 2 ^ s * d) + 2 ^ s * d ∨
        2 * (n * 2 ^ s * d) = 2 * (a * 2 ^ 149) + 2 ^ s * d → n % 2 = 0)

/-- 00_scope.md rule R11: the integer `cvt_s32` makes of a value inside the s32 range is a nearest one; at a tie it is
even under `even`, and of the larger magnitude under `away`. -/
def Obligations.ConversionIsNearest : Prop :=
  ∀ (t : CvtTies) (f : F32), f.units.natAbs < 2147483647 * 2 ^ 149 →
    2 * ((cvtS32 t f).toInt * 2 ^ 149 - f.units).natAbs ≤ 2 ^ 149 ∧
    (2 * ((cvtS32 t f).toInt * 2 ^ 149 - f.units).natAbs = 2 ^ 149 →
      (t = .even → (cvtS32 t f).toInt % 2 = 0) ∧
      (t = .away → f.units.natAbs < (cvtS32 t f).toInt.natAbs * 2 ^ 149))

/-- 00_scope.md rule R7: the two saturating narrows and the clamp. -/
def Obligations.SaturatingPrimitives : Prop :=
  (∀ v : BitVec 32, ((satU16 v).toNat : Int) =
    if v.toInt < 0 then 0 else if 65535 < v.toInt then 65535 else v.toInt) ∧
  (∀ v : BitVec 16, (satU8 v).toNat = if 255 < v.toNat then 255 else v.toNat) ∧
  (∀ v : Int, clamp255 v = if v < 0 then 0 else if 255 < v then 255 else v)

/-- 42_pixel_packer.md rule R85: the two-stage narrow is the clamp, for every s32 value, so each channel is the clamp of
its converted value. -/
def Obligations.TwoStageNarrowIsTheClamp : Prop :=
  (∀ v : BitVec 32, ((satU8 (satU16 v)).toNat : Int) = clamp255 v.toInt) ∧
  (∀ (t : CvtTies) (f : F32), ((ch8 t f).toNat : Int) = clamp255 (cvtS32 t f).toInt)

/-- 41_csc_matrix.md rule R60: the constants, as bit patterns and as exact fractions. -/
def Obligations.ConstantsAreTheTable : Prop :=
  (kBias = f32OfBits 0x43000000 ∧ kBias.units = 128 * 2 ^ 149) ∧
  (kR = f32OfBits 0x3FB374BC ∧ kR.units * 2097152 = 2940207 * 2 ^ 149) ∧
  (kGB .std = f32OfBits 0x3EB03298 ∧ (kGB .std).units * 4194304 = 1443411 * 2 ^ 149) ∧
  (kGR .std = f32OfBits 0x3F36D19E ∧ (kGR .std).units * 8388608 = 5990607 * 2 ^ 149) ∧
  (kB = f32OfBits 0x3FE2D0E5 ∧ kB.units * 8388608 = 14864613 * 2 ^ 149) ∧
  (kGB .ref = f32OfBits 0x3EC37FBF ∧ (kGB .ref).units * 33554432 = 12812223 * 2 ^ 149) ∧
  (kGR .ref = f32OfBits 0x3F36D1E1 ∧ (kGR .ref).units * 16777216 = 11981281 * 2 ^ 149)

/-- 41_csc_matrix.md rule R68: with both chroma samples 128 the centred chroma and its products with the constants are 0,
and the pixel is exactly `{0x00, Y, Y, Y}`, for every configuration. -/
def Obligations.NeutralGreyIsExact : Prop :=
  centerLane (u8ToF32 128) = ⟨0⟩ ∧
  (∀ k : CoeffSet, fmul kR ⟨0⟩ = ⟨0⟩ ∧ fmul (kGB k) ⟨0⟩ = ⟨0⟩ ∧ fmul (kGR k) ⟨0⟩ = ⟨0⟩ ∧ fmul kB ⟨0⟩ = ⟨0⟩) ∧
  ∀ (c : Config) (y : Byte), pix c y 128 128 = packLane y y y ∧
    redLane (u8ToF32 y) (centerLane (u8ToF32 128)) = u8ToF32 y ∧
    greenLane c.coeffSet (u8ToF32 y) (centerLane (u8ToF32 128)) (centerLane (u8ToF32 128)) = u8ToF32 y ∧
    blueLane (u8ToF32 y) (centerLane (u8ToF32 128)) = u8ToF32 y

/-- One row of the table of 41_csc_matrix.md rule R70: over a range of `Y` the exact `Gf - Y` is `num / den`. -/
def Sys2Proof.Claims.GreenRow (k : CoeffSet) (cb cr : Byte) (lo hi : Nat) (num : Int) (den : Nat) : Prop :=
  ∀ y : Byte, lo ≤ y.toNat → y.toNat ≤ hi →
    ((greenLane k (u8ToF32 y) (centerLane (u8ToF32 cb)) (centerLane (u8ToF32 cr))).units - y.toNat * 2 ^ 149) * den =
      num * 2 ^ 149

/-- 41_csc_matrix.md rule R70: the green channel at the sensitive pairs, row by row of its table; what the conversion then
makes of each is rule R80's, stated on its own. -/
def Obligations.GreenAtTheSensitivePairs : Prop :=
  GreenRow .std 78 178 0 14 (-9699327) 524288 ∧ GreenRow .std 78 178 15 82 (-4849663) 262144 ∧
  GreenRow .std 78 178 83 238 (-37) 2 ∧ GreenRow .std 78 178 239 255 (-1212417) 65536 ∧
  GreenRow .std 178 78 0 13 9699327 524288 ∧ GreenRow .std 178 78 14 255 37 2 ∧
  GreenRow .ref 7 213 0 17 (-950271) 65536 ∧ GreenRow .ref 7 213 18 78 (-3801083) 262144 ∧
  GreenRow .ref 7 213 79 209 (-950271) 65536 ∧ GreenRow .ref 7 213 210 255 (-29) 2 ∧
  GreenRow .ref 10 231 0 156 (-3735553) 131072 ∧ GreenRow .ref 10 231 157 210 (-57) 2 ∧
  GreenRow .ref 10 231 211 255 (-933889) 32768 ∧
  GreenRow .ref 246 25 0 99 3735553 131072 ∧ GreenRow .ref 246 25 100 255 57 2

/-- 41_csc_matrix.md rule R66, that no special value occurs: for every three samples and both coefficient sets every value of
the matrix, from the loaded samples to the three channels, is below 512 in magnitude and either 0 or at least `2^-25`
(`2^124` units). So no operation leaves the domain of `rnd32` (00_scope.md rule R9), and the conversion never leaves the s32
range (rule R11). -/
def Obligations.ChannelValuesStayBelow512 : Prop :=
  ∀ (k : CoeffSet) (y cb cr : Byte), ∀ v ∈ matrixValues k y cb cr,
    v.units.natAbs < 512 * 2 ^ 149 ∧ (v.units = 0 ∨ 2 ^ 124 ≤ v.units.natAbs)

/-- 40_convert_command.md rule R117 and the alpha invariant, 42_pixel_packer.md rule R86: a pixel is Alpha 0 and the three
channels, each the clamp of its converted value. -/
def Obligations.PixelIsAlphaAndThreeChannels : Prop :=
  ∀ (c : Config) (y cb cr : Byte),
    let r := cvtS32 c.cvtTies (fadd (u8ToF32 y) (fmul kR (fsub (u8ToF32 cr) ⟨128 * 2 ^ 149⟩)))
    let g := cvtS32 c.cvtTies (fsub (fsub (u8ToF32 y) (fmul (kGB c.coeffSet) (fsub (u8ToF32 cb) ⟨128 * 2 ^ 149⟩)))
      (fmul (kGR c.coeffSet) (fsub (u8ToF32 cr) ⟨128 * 2 ^ 149⟩)))
    let b := cvtS32 c.cvtTies (fadd (u8ToF32 y) (fmul kB (fsub (u8ToF32 cb) ⟨128 * 2 ^ 149⟩)))
    ((pix c y cb cr).extractLsb' 24 8 = 0) ∧
      (((pix c y cb cr).extractLsb' 16 8).toNat : Int) = clamp255 r.toInt ∧
      (((pix c y cb cr).extractLsb' 8 8).toNat : Int) = clamp255 g.toInt ∧
      (((pix c y cb cr).extractLsb' 0 8).toNat : Int) = clamp255 b.toInt

/-! ## State of the whole machine -/

/-- 10_state.md rule R28: a read of `STATUS` returns 0, 1 or 2 by the run state, the two bits are never both 1 and the
rest are 0. -/
def Obligations.StatusHasThreeValues : Prop :=
  Run.idle.statusWord = 0 ∧ Run.busy.statusWord = 1 ∧ Run.done.statusWord = 2 ∧
  ∀ r : Run, (r.statusWord.getLsbD 0 = true ↔ r = .busy) ∧ (r.statusWord.getLsbD 1 = true ↔ r = .done) ∧
    r.statusWord.extractLsb' 2 62 = 0

/-- 10_state.md rule R30: nothing but the engine's own steps and a reset takes `RUN` out of BUSY; the step that does it
converts the last group. -/
def Obligations.BusyEndsByLastGroupOrReset : Prop :=
  ∀ (s t : State) (j : Nat) (e : Engine), step s = .next t → s.engines[j]? = some e → e.run = .busy →
    ∃ e', t.engines[j]? = some e' ∧
      (e'.run = .busy ∨ (e'.run = .done ∧ e'.g = e.g + 1 ∧ e'.g = e.gTotal) ∨
        (e'.run = .idle ∧ ∃ rest, s.inbox = .reset j :: rest))

/-- 10_state.md rules R20 and R31, 20_memory.md rule R53: in every step, an engine that is BUSY keeps its six operand
registers and marks and its `g` stays or goes up by one, unless it is reset. That no step changes an engine's port or a
parameter of 00_scope.md rule R6 is the model's choice (log 2). -/
def Obligations.RunningCommandKeepsItsOperands : Prop :=
  ∀ (s t : State) (j : Nat) (e : Engine), step s = .next t → s.engines[j]? = some e →
    t.cfg = s.cfg ∧ ∃ e', t.engines[j]? = some e' ∧ e'.port = e.port ∧
      (e.run = .busy → (∃ rest, s.inbox = .reset j :: rest) ∨
        ((∀ o, e'.get o = e.get o) ∧ (e'.g = e.g ∨ e'.g = e.g + 1)))

/-- 10_state.md rule R32: the quantities computed from the dimensions; with both at least 1 there are 16 groups or more. -/
def Obligations.GeometryQuantities : Prop :=
  ∀ e : Engine, e.width = 8 * e.num .blockCols ∧ e.height = 8 * e.num .blockRows ∧
    e.samples = e.width * e.height ∧ e.samples = 64 * e.num .blockCols * e.num .blockRows ∧
    e.samples = 4 * e.gTotal ∧ e.width % 8 = 0 ∧ e.width % 4 = 0 ∧
    (1 ≤ e.num .blockCols → 1 ≤ e.num .blockRows → 16 ≤ e.gTotal)

/-- 20_memory.md rule R43: every row and column has its index, every index below `N` is that of exactly one of them. -/
def Obligations.IndexNamesEverySampleOnce : Prop :=
  ∀ e : Engine,
    (∀ row col, row < e.height → col < e.width → e.index row col = row * (8 * e.num .blockCols) + col ∧
      e.index row col < e.samples) ∧
    (∀ i, i < e.samples → ∃ row col, row < e.height ∧ col < e.width ∧ e.index row col = i ∧
      ∀ row' col', row' < e.height → col' < e.width → e.index row' col' = i → row' = row ∧ col' = col)

/-- 20_memory.md rule R44: the four samples of a group are in one row, side by side, and every index belongs to exactly
one group; the addresses a group reads and writes are those of its four samples. -/
def Obligations.GroupIsFourAdjacentSamples : Prop :=
  (∀ (e : Engine) (g i : Nat), g < e.gTotal → i < 4 →
    (4 * g + i) / e.width = 4 * g / e.width ∧ (4 * g + i) % e.width = 4 * g % e.width + i ∧
      4 * g + i < e.samples) ∧
  (∀ (e : Engine) (j : Nat), j < e.samples →
    ∃ g i, g < e.gTotal ∧ i < 4 ∧ j = 4 * g + i ∧ ∀ g' i', i' < 4 → j = 4 * g' + i' → g' = g ∧ i' = i) ∧
  (∀ base g a, a ∈ groupReads base g ↔ ∃ i, i < 4 ∧ a = base + (4 * g + i)) ∧
  (∀ base g a, a ∈ groupWrites base g ↔ ∃ k, k < 16 ∧ a = base + 16 * g + k)

/-! ## The bus -/

/-- 70_reset_and_hazards.md rule R133, the memory rows: while an engine is BUSY, a write by another agent to a byte of its
four regions and a read of a byte of its pixel buffer are refused. The access has no byte in a mapped register block. -/
def Obligations.TouchingARunningCommandIsRefused : Prop :=
  (∀ (s : State) (a : Nat) (bytes : List Byte) (rest : List Event) (e : Engine) (x : Nat), s.refusal = none →
    s.inbox = .busWrite a bytes :: rest → OffTheBlocks s a bytes.length → e ∈ s.engines → e.run = .busy →
    InRun a bytes.length x → (InPlanes e x ∨ InPixels e x) → step s = .refused .refHostTouch) ∧
  (∀ (s : State) (a n : Nat) (rest : List Event) (e : Engine) (x : Nat), s.refusal = none →
    s.inbox = .busRead a n :: rest → OffTheBlocks s a n → e ∈ s.engines → e.run = .busy →
    InRun a n x → InPixels e x → step s = .refused .refHostTouch)

/-- 70_reset_and_hazards.md rule R133, the allowed accesses: a read that touches no running pixel buffer, and a write that
touches no region of a running command, are carried out where there is ordinary memory and no mapped register block, and
change nothing else.What a read returns is left in `mdata`, the model's form (log 16). -/
def Obligations.OtherBusAccessesAreCarriedOut : Prop :=
  (∀ (s : State) (a n : Nat) (rest : List Event), s.refusal = none → s.inbox = .busRead a n :: rest →
    OffTheBlocks s a n →
    (∀ x, InRun a n x → x < 2 ^ s.cfg.addrW ∧ anyHas s.cfg.ram x = true) →
    (∀ e ∈ s.engines, e.run = .busy → ∀ x, InRun a n x → ¬ InPixels e x) →
    step s = .next { s with inbox := rest, mdata := (List.range n).map (fun k => memRead s.mem (a + k)) }) ∧
  (∀ (s : State) (a : Nat) (bytes : List Byte) (rest : List Event), s.refusal = none →
    s.inbox = .busWrite a bytes :: rest → OffTheBlocks s a bytes.length →
    (∀ x, InRun a bytes.length x → x < 2 ^ s.cfg.addrW ∧ anyHas s.cfg.ram x = true) →
    (∀ e ∈ s.engines, e.run = .busy → ∀ x, InRun a bytes.length x → ¬ InPlanes e x ∧ ¬ InPixels e x) →
    ∃ t, step s = .next t ∧ (∀ k, k < bytes.length → memRead t.mem (a + k) = bytes.getD k 0) ∧
      (∀ x, ¬ InRun a bytes.length x → memRead t.mem x = memRead s.mem x) ∧
      t.engines = s.engines ∧ t.cfg = s.cfg ∧ t.refusal = none ∧ t.inbox = rest ∧ t.rdata = s.rdata ∧
      t.mdata = s.mdata)

/-- 30_encoding.md rules R141 to R143 for an engine whose block is mapped, among any number of engines whose blocks lie apart
from it (60_exceptions.md rule R170): 8 bytes written at slot `n` are the REGWR of register `n` of that engine with the
little-endian data, 8 bytes read there are its REGRD, and any other access that touches the block is refused. That an access
over an edge of the block is refused as a partial one is the model's choice (log 20); the focus is its form (log 17). -/
def Obligations.RegisterBlockInMemory : Prop :=
  ∀ (s f : State) (k base : Nat) (rest : List Event), s.refusal = none → (s.withInbox rest).focus k = some f →
    f.eng.port.csrBase = some base →
    (∀ (j : Nat) (e : Engine) (b : Nat), j ≠ k → s.engines[j]? = some e → e.port.csrBase = some b →
      ∀ x, InRun b 64 x → ¬ InRun base 64 x) →
    (∀ (r : Reg) (bytes : List Byte), bytes.length = 8 →
      s.inbox = .busWrite (base + 8 * r.num.toNat) bytes :: rest →
      step s = runCode (.write (slotOffset r) 8 (BitVec.ofNat 64 (bytesLE bytes))) f) ∧
    (∀ r : Reg, s.inbox = .busRead (base + 8 * r.num.toNat) 8 :: rest →
      step s = runCode (.read (slotOffset r) 8) f) ∧
    (∀ (a : Nat) (bytes : List Byte) (x : Nat), s.inbox = .busWrite a bytes :: rest → InRun a bytes.length x →
      InRun base 64 x → ¬ (bytes.length = 8 ∧ ∃ n, n < 8 ∧ a = base + 8 * n) →
      step s = .refused .refPartialAccess) ∧
    (∀ a n x : Nat, s.inbox = .busRead a n :: rest → InRun a n x → InRun base 64 x →
      ¬ (n = 8 ∧ ∃ k, k < 8 ∧ a = base + 8 * k) → step s = .refused .refPartialAccess)

/-! ## Invariants and whole commands -/

/-- The invariant holds at reset. -/
def Obligations.InvariantAtReset : Prop := State.reset.Inv

/-- Every step keeps the invariant: memory stays canonical and inside the address space, register fields keep their
widths, a BUSY engine's command stays one the launch checks accept with `g < G_TOTAL` (10_state.md rules R29 to R31), and
no two running commands come into conflict (20_memory.md rule R56). -/
def Obligations.EveryStepKeepsTheInvariant : Prop :=
  ∀ s t : State, s.Inv → step s = .next t → t.Inv

/-- 20_memory.md rule R56: the group steps of two running commands can be taken in either order; both orders end with the
same bytes in memory and the same engines. -/
def Obligations.GroupStepsOfTwoEnginesCommute : Prop :=
  ∀ (s : State) (j k : Nat) (e f : Engine), s.Inv → j ≠ k → s.engines[j]? = some e → s.engines[k]? = some f →
    e.run = .busy → f.run = .busy →
    ∃ t₁ t₂ u₁ u₂, serve (.code j (.stage 0)) s = .next t₁ ∧ serve (.code k (.stage 0)) t₁ = .next t₂ ∧
      serve (.code k (.stage 0)) s = .next u₁ ∧ serve (.code j (.stage 0)) u₁ = .next u₂ ∧
      SameMem t₂ u₂ ∧ t₂.engines = u₂.engines

/-- 40_convert_command.md rule R114: a command is over after exactly `G_TOTAL` engine steps; until then it is BUSY. From
then on the engine has no step and nothing changes. -/
def Obligations.CommandEndsAfterGTotalSteps : Prop :=
  ∀ s : State, JustStarted s →
    (∀ n, n < s.eng.gTotal → ∃ t, Host.Core.run Sys2Proof.core n s = .next t ∧ t.eng.run = .busy ∧ t.eng.g = n) ∧
    (∃ t, Host.Core.run Sys2Proof.core s.eng.gTotal s = .next t ∧ t.eng.run = .done ∧ t.eng.g = s.eng.gTotal ∧
      t.eng.run.statusWord = 2 ∧ ∀ n, Host.Core.run Sys2Proof.core n t = .next t)

/-- 40_convert_command.md rule R116, the postcondition of a command on the one engine with nothing else pending, in either
group order and every configuration: when `RUN` becomes DONE every pixel is `PIX` of its three samples at the start, and every byte outside the pixel buffer, every
operand register and mark, and everything around are as they were at the start. -/
def Obligations.CommandPostcondition : Prop :=
  ∀ s : State, JustStarted s →
    ∃ t, Host.Core.run Sys2Proof.core s.eng.gTotal s = .next t ∧ t.eng.run = .done ∧
      (∀ i, i < s.eng.samples → memReadLE t.mem (s.eng.num .outBase + 4 * i) 4 = (pixelAt s i).toNat) ∧
      (∀ a, ¬ InPixels s.eng a → memRead t.mem a = memRead s.mem a) ∧
      SameOperands s t ∧ t.rdata = s.rdata ∧ SameAround s t

/-- 40_convert_command.md rule R119: the order of the groups does not matter; the ascending order and any order end in the
same memory. -/
def Obligations.OrderOfGroupsDoesNotMatter : Prop :=
  ∀ s u : State, JustStarted s → JustStarted u → u.mem = s.mem → (∀ o, u.eng.get o = s.eng.get o) →
    s.cfg.groupOrder = .ascending → u.cfg = { s.cfg with groupOrder := .any } →
    ∃ t v, Host.Core.run Sys2Proof.core s.eng.gTotal s = .next t ∧
      Host.Core.run Sys2Proof.core u.eng.gTotal u = .next v ∧ t.eng.run = .done ∧ v.eng.run = .done ∧ SameMem t v

/-- 40_convert_command.md rule R118: geometry enters the result only through `N`; two commands with the same bases, the same
product of dimensions and the same parameters leave the same bytes. -/
def Obligations.GeometryEntersOnlyThroughN : Prop :=
  ∀ s u : State, JustStarted s → JustStarted u → u.mem = s.mem → u.cfg = s.cfg →
    (∀ o, o ≠ .blockCols → o ≠ .blockRows → u.eng.num o = s.eng.num o) →
    s.eng.num .blockCols * s.eng.num .blockRows = u.eng.num .blockCols * u.eng.num .blockRows →
    ∃ t v, Host.Core.run Sys2Proof.core s.eng.gTotal s = .next t ∧
      Host.Core.run Sys2Proof.core u.eng.gTotal u = .next v ∧ t.eng.run = .done ∧ v.eng.run = .done ∧ SameMem t v

/-- 40_convert_command.md rule R122: two commands with the same bases and dimensions and the same bytes in the three plane
regions write the same bytes, whatever else memory and the machine held. -/
def Obligations.SameInputsGiveTheSamePixels : Prop :=
  ∀ s u : State, JustStarted s → JustStarted u → u.cfg.coeffSet = s.cfg.coeffSet → u.cfg.cvtTies = s.cfg.cvtTies →
    (∀ o, u.eng.num o = s.eng.num o) → (∀ a, InPlanes s.eng a → memRead u.mem a = memRead s.mem a) →
    ∃ t v, Host.Core.run Sys2Proof.core s.eng.gTotal s = .next t ∧
      Host.Core.run Sys2Proof.core u.eng.gTotal u = .next v ∧ t.eng.run = .done ∧ v.eng.run = .done ∧
      ∀ a, InPixels s.eng a → memRead t.mem a = memRead v.mem a

/-- 40_convert_command.md rule R121, the two parts run one after the other in either order (not the two at the same time on
two engines): a command over `N1 + N2`
samples and the two commands over its first `N1` and its last `N2` leave the same memory. -/
def Obligations.TwoPartsLeaveTheMemoryOfTheWhole : Prop :=
  ∀ s p q : State, JustStarted s → JustStarted p → JustStarted q →
    p.cfg.coeffSet = s.cfg.coeffSet → q.cfg.coeffSet = s.cfg.coeffSet →
    p.cfg.cvtTies = s.cfg.cvtTies → q.cfg.cvtTies = s.cfg.cvtTies →
    p.eng.samples + q.eng.samples = s.eng.samples →
    (∀ o, o ≠ .blockCols → o ≠ .blockRows → p.eng.num o = s.eng.num o) →
    q.eng.num .lumaBase = s.eng.num .lumaBase + p.eng.samples →
    q.eng.num .cbBase = s.eng.num .cbBase + p.eng.samples →
    q.eng.num .crBase = s.eng.num .crBase + p.eng.samples →
    q.eng.num .outBase = s.eng.num .outBase + 4 * p.eng.samples →
    ∃ t v w, Host.Core.run Sys2Proof.core s.eng.gTotal s = .next t ∧
      Host.Core.run Sys2Proof.core p.eng.gTotal p = .next v ∧ Host.Core.run Sys2Proof.core q.eng.gTotal q = .next w ∧
      t.eng.run = .done ∧ v.eng.run = .done ∧ w.eng.run = .done ∧
      (p.mem = s.mem → q.mem = v.mem → SameMem t w) ∧ (q.mem = s.mem → p.mem = w.mem → SameMem t v)

/-- 30_encoding.md rule R149 and 70_reset_and_hazards.md rule R132: the host program `CONVERT l, cb, cr, out, bc, br` on an
engine that is not BUSY and whose operands are legal runs to its end: the last read of `STATUS` returns 2, and every pixel is
`PIX` of its three samples. How many reads there are is the model's choice (log 18), so only that there is an end is
stated. -/
def Obligations.ConvertProgramWritesEveryPixel : Prop :=
  ∀ (s u : State) (l cb cr out bc br : Nat) (rest : List Event), s.Inv → s.engL = [] → s.engR = [] →
    s.refusal = none → s.eng.run ≠ .busy → s.inbox = convertActions 0 l cb cr out bc br ++ rest →
    l < 2 ^ s.cfg.addrW → cb < 2 ^ s.cfg.addrW → cr < 2 ^ s.cfg.addrW → out < 2 ^ s.cfg.addrW →
    bc < 2 ^ s.cfg.dimW → br < 2 ^ s.cfg.dimW →
    u = { s with eng := { s.eng with
      lumaBase := ⟨BitVec.ofNat 64 l, true⟩, cbBase := ⟨BitVec.ofNat 64 cb, true⟩, crBase := ⟨BitVec.ofNat 64 cr, true⟩
      outBase := ⟨BitVec.ofNat 64 out, true⟩, blockCols := ⟨BitVec.ofNat 64 bc, true⟩
      blockRows := ⟨BitVec.ofNat 64 br, true⟩ } } →
    DimsPositive u.eng → BasesAligned u.cfg u.eng → RegionsInSpace u.cfg u.eng → BytesAdmitted u → NoAlias u →
    ∃ n t, Host.Core.run Sys2Proof.core n s = .next t ∧ t.inbox = rest ∧ t.eng.run = .done ∧ t.rdata = 2 ∧
      (∀ i, i < 64 * bc * br → memReadLE t.mem (out + 4 * i) 4 =
        (pix s.cfg (memRead s.mem (l + i)) (memRead s.mem (cb + i)) (memRead s.mem (cr + i))).toNat) ∧
      (∀ a, ¬ InRun out (256 * bc * br) a → memRead t.mem a = memRead s.mem a)
end

