-- ==== Sys2Proof/Laws/State.lean ====
section
/-! SUPPORT. One lemma per field per update of the state, and per register of an engine, so that no later proof unfolds a
record update. -/

namespace Sys2Proof.Machine

@[simp] theorem withEng_cfg (s : State) (e : Engine) : (s.withEng e).cfg = s.cfg := rfl
@[simp] theorem withEng_engL (s : State) (e : Engine) : (s.withEng e).engL = s.engL := rfl
@[simp] theorem withEng_eng (s : State) (e : Engine) : (s.withEng e).eng = e := rfl
@[simp] theorem withEng_engR (s : State) (e : Engine) : (s.withEng e).engR = s.engR := rfl
@[simp] theorem withEng_mem (s : State) (e : Engine) : (s.withEng e).mem = s.mem := rfl
@[simp] theorem withEng_refusal (s : State) (e : Engine) : (s.withEng e).refusal = s.refusal := rfl
@[simp] theorem withEng_rdata (s : State) (e : Engine) : (s.withEng e).rdata = s.rdata := rfl
@[simp] theorem withEng_mdata (s : State) (e : Engine) : (s.withEng e).mdata = s.mdata := rfl
@[simp] theorem withEng_inbox (s : State) (e : Engine) : (s.withEng e).inbox = s.inbox := rfl
@[simp] theorem withEng_here (s : State) (e : Engine) : (s.withEng e).here = s.here := rfl
@[simp] theorem withEng_peers (s : State) (e : Engine) : (s.withEng e).peers = s.peers := rfl

@[simp] theorem withMem_cfg (s : State) (m : List Host.Cell) : (s.withMem m).cfg = s.cfg := rfl
@[simp] theorem withMem_engL (s : State) (m : List Host.Cell) : (s.withMem m).engL = s.engL := rfl
@[simp] theorem withMem_eng (s : State) (m : List Host.Cell) : (s.withMem m).eng = s.eng := rfl
@[simp] theorem withMem_engR (s : State) (m : List Host.Cell) : (s.withMem m).engR = s.engR := rfl
@[simp] theorem withMem_mem (s : State) (m : List Host.Cell) : (s.withMem m).mem = m := rfl
@[simp] theorem withMem_refusal (s : State) (m : List Host.Cell) : (s.withMem m).refusal = s.refusal := rfl
@[simp] theorem withMem_rdata (s : State) (m : List Host.Cell) : (s.withMem m).rdata = s.rdata := rfl
@[simp] theorem withMem_mdata (s : State) (m : List Host.Cell) : (s.withMem m).mdata = s.mdata := rfl
@[simp] theorem withMem_inbox (s : State) (m : List Host.Cell) : (s.withMem m).inbox = s.inbox := rfl
@[simp] theorem withMem_here (s : State) (m : List Host.Cell) : (s.withMem m).here = s.here := rfl
@[simp] theorem withMem_peers (s : State) (m : List Host.Cell) : (s.withMem m).peers = s.peers := rfl
@[simp] theorem withMem_engines (s : State) (m : List Host.Cell) : (s.withMem m).engines = s.engines := rfl
@[simp] theorem withMem_csrBlocks (s : State) (m : List Host.Cell) : (s.withMem m).csrBlocks = s.csrBlocks := rfl

@[simp] theorem withRdata_cfg (s : State) (w : Word64) : (s.withRdata w).cfg = s.cfg := rfl
@[simp] theorem withRdata_engL (s : State) (w : Word64) : (s.withRdata w).engL = s.engL := rfl
@[simp] theorem withRdata_eng (s : State) (w : Word64) : (s.withRdata w).eng = s.eng := rfl
@[simp] theorem withRdata_engR (s : State) (w : Word64) : (s.withRdata w).engR = s.engR := rfl
@[simp] theorem withRdata_mem (s : State) (w : Word64) : (s.withRdata w).mem = s.mem := rfl
@[simp] theorem withRdata_refusal (s : State) (w : Word64) : (s.withRdata w).refusal = s.refusal := rfl
@[simp] theorem withRdata_rdata (s : State) (w : Word64) : (s.withRdata w).rdata = w := rfl
@[simp] theorem withRdata_mdata (s : State) (w : Word64) : (s.withRdata w).mdata = s.mdata := rfl
@[simp] theorem withRdata_inbox (s : State) (w : Word64) : (s.withRdata w).inbox = s.inbox := rfl
@[simp] theorem withRdata_here (s : State) (w : Word64) : (s.withRdata w).here = s.here := rfl
@[simp] theorem withRdata_peers (s : State) (w : Word64) : (s.withRdata w).peers = s.peers := rfl
@[simp] theorem withRdata_engines (s : State) (w : Word64) : (s.withRdata w).engines = s.engines := rfl
@[simp] theorem withRdata_csrBlocks (s : State) (w : Word64) : (s.withRdata w).csrBlocks = s.csrBlocks := rfl

@[simp] theorem withMdata_cfg (s : State) (l : List Byte) : (s.withMdata l).cfg = s.cfg := rfl
@[simp] theorem withMdata_engL (s : State) (l : List Byte) : (s.withMdata l).engL = s.engL := rfl
@[simp] theorem withMdata_eng (s : State) (l : List Byte) : (s.withMdata l).eng = s.eng := rfl
@[simp] theorem withMdata_engR (s : State) (l : List Byte) : (s.withMdata l).engR = s.engR := rfl
@[simp] theorem withMdata_mem (s : State) (l : List Byte) : (s.withMdata l).mem = s.mem := rfl
@[simp] theorem withMdata_refusal (s : State) (l : List Byte) : (s.withMdata l).refusal = s.refusal := rfl
@[simp] theorem withMdata_rdata (s : State) (l : List Byte) : (s.withMdata l).rdata = s.rdata := rfl
@[simp] theorem withMdata_mdata (s : State) (l : List Byte) : (s.withMdata l).mdata = l := rfl
@[simp] theorem withMdata_inbox (s : State) (l : List Byte) : (s.withMdata l).inbox = s.inbox := rfl
@[simp] theorem withMdata_here (s : State) (l : List Byte) : (s.withMdata l).here = s.here := rfl
@[simp] theorem withMdata_peers (s : State) (l : List Byte) : (s.withMdata l).peers = s.peers := rfl
@[simp] theorem withMdata_engines (s : State) (l : List Byte) : (s.withMdata l).engines = s.engines := rfl
@[simp] theorem withMdata_csrBlocks (s : State) (l : List Byte) : (s.withMdata l).csrBlocks = s.csrBlocks := rfl

@[simp] theorem withInbox_cfg (s : State) (l : List Event) : (s.withInbox l).cfg = s.cfg := rfl
@[simp] theorem withInbox_engL (s : State) (l : List Event) : (s.withInbox l).engL = s.engL := rfl
@[simp] theorem withInbox_eng (s : State) (l : List Event) : (s.withInbox l).eng = s.eng := rfl
@[simp] theorem withInbox_engR (s : State) (l : List Event) : (s.withInbox l).engR = s.engR := rfl
@[simp] theorem withInbox_mem (s : State) (l : List Event) : (s.withInbox l).mem = s.mem := rfl
@[simp] theorem withInbox_refusal (s : State) (l : List Event) : (s.withInbox l).refusal = s.refusal := rfl
@[simp] theorem withInbox_rdata (s : State) (l : List Event) : (s.withInbox l).rdata = s.rdata := rfl
@[simp] theorem withInbox_mdata (s : State) (l : List Event) : (s.withInbox l).mdata = s.mdata := rfl
@[simp] theorem withInbox_inbox (s : State) (l : List Event) : (s.withInbox l).inbox = l := rfl
@[simp] theorem withInbox_here (s : State) (l : List Event) : (s.withInbox l).here = s.here := rfl
@[simp] theorem withInbox_peers (s : State) (l : List Event) : (s.withInbox l).peers = s.peers := rfl
@[simp] theorem withInbox_engines (s : State) (l : List Event) : (s.withInbox l).engines = s.engines := rfl
@[simp] theorem withInbox_csrBlocks (s : State) (l : List Event) : (s.withInbox l).csrBlocks = s.csrBlocks := rfl


@[simp] theorem withDp_cfg (s : State) (d : Datapath) : (s.withDp d).cfg = s.cfg := rfl
@[simp] theorem withDp_engL (s : State) (d : Datapath) : (s.withDp d).engL = s.engL := rfl
@[simp] theorem withDp_eng (s : State) (d : Datapath) : (s.withDp d).eng = { s.eng with dp := d } := rfl
@[simp] theorem withDp_engR (s : State) (d : Datapath) : (s.withDp d).engR = s.engR := rfl
@[simp] theorem withDp_mem (s : State) (d : Datapath) : (s.withDp d).mem = s.mem := rfl
@[simp] theorem withDp_refusal (s : State) (d : Datapath) : (s.withDp d).refusal = s.refusal := rfl
@[simp] theorem withDp_rdata (s : State) (d : Datapath) : (s.withDp d).rdata = s.rdata := rfl
@[simp] theorem withDp_mdata (s : State) (d : Datapath) : (s.withDp d).mdata = s.mdata := rfl
@[simp] theorem withDp_inbox (s : State) (d : Datapath) : (s.withDp d).inbox = s.inbox := rfl
@[simp] theorem withDp_here (s : State) (d : Datapath) : (s.withDp d).here = s.here := rfl
@[simp] theorem withDp_peers (s : State) (d : Datapath) : (s.withDp d).peers = s.peers := rfl

theorem withEng_engines (s : State) (e : Engine) : (s.withEng e).engines = s.engL ++ e :: s.engR := rfl

theorem eng_mem_engines (s : State) : s.eng ∈ s.engines := by simp [State.engines]

/-- The engines after the one in focus is replaced, place by place. -/
theorem withEng_getElem? (s : State) (e : Engine) (j : Nat) :
    (s.withEng e).engines[j]? = if j = s.here then some e else s.engines[j]? := by
  have hh : s.here = s.engL.length := rfl
  have hs : s.engines = s.engL ++ s.eng :: s.engR := rfl
  rw [withEng_engines, hs]
  rcases Nat.lt_trichotomy j s.engL.length with h | h | h
  · rw [if_neg (by omega), List.getElem?_append_left h, List.getElem?_append_left h]
  · rw [if_pos (h.trans hh.symm), h]
    simp
  · rw [if_neg (by omega), List.getElem?_append_right (by omega), List.getElem?_append_right (by omega)]
    obtain ⟨k, hk⟩ : ∃ k, j - s.engL.length = k + 1 := ⟨j - s.engL.length - 1, by omega⟩
    rw [hk, List.getElem?_cons_succ, List.getElem?_cons_succ]

/-- The register blocks depend only on the ports, so an engine that keeps its port keeps them. -/
theorem withEng_csrBlocks (s : State) (e : Engine) (h : e.port = s.eng.port) :
    (s.withEng e).csrBlocks = s.csrBlocks := by
  simp [State.csrBlocks, State.engines, State.withEng, Engine.csrBlock, List.filterMap_append,
    List.filterMap_cons, h]

/-! Registers of an engine. -/

@[simp] theorem get_set_same (e : Engine) (o : OpReg) (x : OperandReg) : (e.set o x).get o = x := by
  cases o <;> rfl

theorem get_set_other (e : Engine) (o o' : OpReg) (x : OperandReg) (h : o' ≠ o) :
    (e.set o x).get o' = e.get o' := by
  cases o <;> cases o' <;> first | rfl | exact absurd rfl h

@[simp] theorem set_port (e : Engine) (o : OpReg) (x : OperandReg) : (e.set o x).port = e.port := by
  cases o <;> rfl

@[simp] theorem set_run (e : Engine) (o : OpReg) (x : OperandReg) : (e.set o x).run = e.run := by
  cases o <;> rfl

@[simp] theorem set_g (e : Engine) (o : OpReg) (x : OperandReg) : (e.set o x).g = e.g := by
  cases o <;> rfl

@[simp] theorem set_converted (e : Engine) (o : OpReg) (x : OperandReg) : (e.set o x).converted = e.converted := by
  cases o <;> rfl

@[simp] theorem set_freeIdx (e : Engine) (o : OpReg) (x : OperandReg) : (e.set o x).freeIdx = e.freeIdx := by
  cases o <;> rfl

@[simp] theorem set_dp (e : Engine) (o : OpReg) (x : OperandReg) : (e.set o x).dp = e.dp := by
  cases o <;> rfl

/-! Focus. -/

/-- Bringing the engine already in focus into focus changes nothing. -/
@[simp] theorem focus_here (s : State) : s.focus s.here = some s := by
  simp [State.focus, State.engines, State.here]

/-- Focus fails exactly where there is no engine. -/
theorem focus_eq_none (s : State) (k : Nat) : s.focus k = none ↔ s.engines.length ≤ k := by
  unfold State.focus
  split
  · rename_i h
    simpa using h
  · rename_i e h
    have := (List.getElem?_eq_some_iff.mp h).1
    simp
    omega

/-- What focus does: the engine in place `k` comes into focus and nothing else changes. -/
theorem focus_eq_some {s t : State} {k : Nat} (h : s.focus k = some t) :
    s.engines[k]? = some t.eng ∧ t.engines = s.engines ∧ t.here = k ∧ t.cfg = s.cfg ∧ t.mem = s.mem ∧
      t.refusal = s.refusal ∧ t.rdata = s.rdata ∧ t.mdata = s.mdata ∧
      t.inbox = s.inbox := by
  unfold State.focus at h
  split at h
  · cases h
  · rename_i e he
    obtain ⟨hk, rfl⟩ := List.getElem?_eq_some_iff.mp he
    cases h
    refine ⟨he, ?_, ?_, rfl, rfl, rfl, rfl, rfl, rfl⟩
    · change List.take k s.engines ++ s.engines[k] :: List.drop (k + 1) s.engines = s.engines
      rw [← List.drop_eq_getElem_cons hk, List.take_append_drop]
    · change (List.take k s.engines).length = k
      rw [List.length_take]
      omega

/-- Focus keeps the register blocks. -/
theorem focus_csrBlocks {s t : State} {k : Nat} (h : s.focus k = some t) : t.csrBlocks = s.csrBlocks := by
  simp [State.csrBlocks, (focus_eq_some h).2.1]

/-- Two states with the same fields are the same. -/
theorem state_eq {s t : State} (h1 : s.cfg = t.cfg) (h2 : s.engL = t.engL) (h3 : s.eng = t.eng) (h4 : s.engR = t.engR)
    (h5 : s.mem = t.mem) (h6 : s.refusal = t.refusal) (h7 : s.rdata = t.rdata) (h8 : s.mdata = t.mdata)
    (h9 : s.inbox = t.inbox) : s = t := by
  cases s
  cases t
  simp only at h1 h2 h3 h4 h5 h6 h7 h8 h9
  subst h1 h2 h3 h4 h5 h6 h7 h8 h9
  rfl

/-! The refusal mark. -/

theorem markRefusal_clear (s : State) (r : Refusal) (h : s.refusal = none) :
    (s.markRefusal r).refusal = some r := by
  simp [State.markRefusal, h]

theorem markRefusal_set (s : State) (r q : Refusal) (h : s.refusal = some q) : s.markRefusal r = s := by
  simp [State.markRefusal, h]

end Sys2Proof.Machine
end

