-- ==== Sys2Proof/Laws/Datapath.lean ====
section
/-! SUPPORT. Each stage on the datapath, field by field: the fields it writes and those it leaves. -/

namespace Sys2Proof.Machine

@[simp] theorem load_fields (d : Datapath) (y cb cr : Lanes Byte) :
    (d.load y cb cr).yb = y ∧ (d.load y cb cr).cbb = cb ∧ (d.load y cb cr).crb = cr ∧
    (d.load y cb cr).yf = y.map u8ToF32 ∧ (d.load y cb cr).cbf = cb.map u8ToF32 ∧
    (d.load y cb cr).crf = cr.map u8ToF32 ∧ (d.load y cb cr).cbc = d.cbc ∧ (d.load y cb cr).crc = d.crc ∧
    (d.load y cb cr).rf = d.rf ∧ (d.load y cb cr).gf = d.gf ∧ (d.load y cb cr).bf = d.bf ∧
    (d.load y cb cr).ri = d.ri ∧ (d.load y cb cr).gi = d.gi ∧ (d.load y cb cr).bi = d.bi ∧
    (d.load y cb cr).rh = d.rh ∧ (d.load y cb cr).gh = d.gh ∧ (d.load y cb cr).bh = d.bh ∧
    (d.load y cb cr).r8 = d.r8 ∧ (d.load y cb cr).g8 = d.g8 ∧ (d.load y cb cr).b8 = d.b8 ∧ (d.load y cb cr).p = d.p :=
  ⟨rfl, rfl, rfl, rfl, rfl, rfl, rfl, rfl, rfl, rfl, rfl, rfl, rfl, rfl, rfl, rfl, rfl, rfl, rfl, rfl, rfl⟩

@[simp] theorem center_fields (d : Datapath) :
    (d.center).yb = d.yb ∧ (d.center).cbb = d.cbb ∧ (d.center).crb = d.crb ∧ (d.center).yf = d.yf ∧
    (d.center).cbf = d.cbf ∧ (d.center).crf = d.crf ∧ (d.center).cbc = d.cbf.map centerLane ∧
    (d.center).crc = d.crf.map centerLane ∧ (d.center).rf = d.rf ∧ (d.center).gf = d.gf ∧ (d.center).bf = d.bf ∧
    (d.center).ri = d.ri ∧ (d.center).gi = d.gi ∧ (d.center).bi = d.bi ∧ (d.center).rh = d.rh ∧
    (d.center).gh = d.gh ∧ (d.center).bh = d.bh ∧ (d.center).r8 = d.r8 ∧ (d.center).g8 = d.g8 ∧
    (d.center).b8 = d.b8 ∧ (d.center).p = d.p :=
  ⟨rfl, rfl, rfl, rfl, rfl, rfl, rfl, rfl, rfl, rfl, rfl, rfl, rfl, rfl, rfl, rfl, rfl, rfl, rfl, rfl, rfl⟩

@[simp] theorem matr_fields (d : Datapath) :
    (d.matr).yb = d.yb ∧ (d.matr).cbb = d.cbb ∧ (d.matr).crb = d.crb ∧ (d.matr).yf = d.yf ∧ (d.matr).cbf = d.cbf ∧
    (d.matr).crf = d.crf ∧ (d.matr).cbc = d.cbc ∧ (d.matr).crc = d.crc ∧ (d.matr).rf = d.yf.map2 redLane d.crc ∧
    (d.matr).gf = d.gf ∧ (d.matr).bf = d.bf ∧ (d.matr).ri = d.ri ∧ (d.matr).gi = d.gi ∧ (d.matr).bi = d.bi ∧
    (d.matr).rh = d.rh ∧ (d.matr).gh = d.gh ∧ (d.matr).bh = d.bh ∧ (d.matr).r8 = d.r8 ∧ (d.matr).g8 = d.g8 ∧
    (d.matr).b8 = d.b8 ∧ (d.matr).p = d.p :=
  ⟨rfl, rfl, rfl, rfl, rfl, rfl, rfl, rfl, rfl, rfl, rfl, rfl, rfl, rfl, rfl, rfl, rfl, rfl, rfl, rfl, rfl⟩

@[simp] theorem matg_fields (d : Datapath) (k : CoeffSet) :
    (d.matg k).yb = d.yb ∧ (d.matg k).cbb = d.cbb ∧ (d.matg k).crb = d.crb ∧ (d.matg k).yf = d.yf ∧
    (d.matg k).cbf = d.cbf ∧ (d.matg k).crf = d.crf ∧ (d.matg k).cbc = d.cbc ∧ (d.matg k).crc = d.crc ∧
    (d.matg k).rf = d.rf ∧ (d.matg k).gf = .ofFn (fun i => greenLane k (d.yf.get i) (d.cbc.get i) (d.crc.get i)) ∧
    (d.matg k).bf = d.bf ∧ (d.matg k).ri = d.ri ∧ (d.matg k).gi = d.gi ∧ (d.matg k).bi = d.bi ∧
    (d.matg k).rh = d.rh ∧ (d.matg k).gh = d.gh ∧ (d.matg k).bh = d.bh ∧ (d.matg k).r8 = d.r8 ∧
    (d.matg k).g8 = d.g8 ∧ (d.matg k).b8 = d.b8 ∧ (d.matg k).p = d.p :=
  ⟨rfl, rfl, rfl, rfl, rfl, rfl, rfl, rfl, rfl, rfl, rfl, rfl, rfl, rfl, rfl, rfl, rfl, rfl, rfl, rfl, rfl⟩

@[simp] theorem matb_fields (d : Datapath) :
    (d.matb).yb = d.yb ∧ (d.matb).cbb = d.cbb ∧ (d.matb).crb = d.crb ∧ (d.matb).yf = d.yf ∧ (d.matb).cbf = d.cbf ∧
    (d.matb).crf = d.crf ∧ (d.matb).cbc = d.cbc ∧ (d.matb).crc = d.crc ∧ (d.matb).rf = d.rf ∧ (d.matb).gf = d.gf ∧
    (d.matb).bf = d.yf.map2 blueLane d.cbc ∧ (d.matb).ri = d.ri ∧ (d.matb).gi = d.gi ∧ (d.matb).bi = d.bi ∧
    (d.matb).rh = d.rh ∧ (d.matb).gh = d.gh ∧ (d.matb).bh = d.bh ∧ (d.matb).r8 = d.r8 ∧ (d.matb).g8 = d.g8 ∧
    (d.matb).b8 = d.b8 ∧ (d.matb).p = d.p :=
  ⟨rfl, rfl, rfl, rfl, rfl, rfl, rfl, rfl, rfl, rfl, rfl, rfl, rfl, rfl, rfl, rfl, rfl, rfl, rfl, rfl, rfl⟩

@[simp] theorem cvt_fields (d : Datapath) (t : CvtTies) :
    (d.cvt t).yb = d.yb ∧ (d.cvt t).cbb = d.cbb ∧ (d.cvt t).crb = d.crb ∧ (d.cvt t).yf = d.yf ∧
    (d.cvt t).cbf = d.cbf ∧ (d.cvt t).crf = d.crf ∧ (d.cvt t).cbc = d.cbc ∧ (d.cvt t).crc = d.crc ∧
    (d.cvt t).rf = d.rf ∧ (d.cvt t).gf = d.gf ∧ (d.cvt t).bf = d.bf ∧ (d.cvt t).ri = d.rf.map (cvtS32 t) ∧
    (d.cvt t).gi = d.gf.map (cvtS32 t) ∧ (d.cvt t).bi = d.bf.map (cvtS32 t) ∧ (d.cvt t).rh = d.rh ∧
    (d.cvt t).gh = d.gh ∧ (d.cvt t).bh = d.bh ∧ (d.cvt t).r8 = d.r8 ∧ (d.cvt t).g8 = d.g8 ∧ (d.cvt t).b8 = d.b8 ∧
    (d.cvt t).p = d.p :=
  ⟨rfl, rfl, rfl, rfl, rfl, rfl, rfl, rfl, rfl, rfl, rfl, rfl, rfl, rfl, rfl, rfl, rfl, rfl, rfl, rfl, rfl⟩

@[simp] theorem sat16_fields (d : Datapath) :
    (d.sat16).yb = d.yb ∧ (d.sat16).cbb = d.cbb ∧ (d.sat16).crb = d.crb ∧ (d.sat16).yf = d.yf ∧
    (d.sat16).cbf = d.cbf ∧ (d.sat16).crf = d.crf ∧ (d.sat16).cbc = d.cbc ∧ (d.sat16).crc = d.crc ∧
    (d.sat16).rf = d.rf ∧ (d.sat16).gf = d.gf ∧ (d.sat16).bf = d.bf ∧ (d.sat16).ri = d.ri ∧ (d.sat16).gi = d.gi ∧
    (d.sat16).bi = d.bi ∧ (d.sat16).rh = d.ri.map satU16 ∧ (d.sat16).gh = d.gi.map satU16 ∧
    (d.sat16).bh = d.bi.map satU16 ∧ (d.sat16).r8 = d.r8 ∧ (d.sat16).g8 = d.g8 ∧ (d.sat16).b8 = d.b8 ∧
    (d.sat16).p = d.p :=
  ⟨rfl, rfl, rfl, rfl, rfl, rfl, rfl, rfl, rfl, rfl, rfl, rfl, rfl, rfl, rfl, rfl, rfl, rfl, rfl, rfl, rfl⟩

@[simp] theorem sat8_fields (d : Datapath) :
    (d.sat8).yb = d.yb ∧ (d.sat8).cbb = d.cbb ∧ (d.sat8).crb = d.crb ∧ (d.sat8).yf = d.yf ∧ (d.sat8).cbf = d.cbf ∧
    (d.sat8).crf = d.crf ∧ (d.sat8).cbc = d.cbc ∧ (d.sat8).crc = d.crc ∧ (d.sat8).rf = d.rf ∧ (d.sat8).gf = d.gf ∧
    (d.sat8).bf = d.bf ∧ (d.sat8).ri = d.ri ∧ (d.sat8).gi = d.gi ∧ (d.sat8).bi = d.bi ∧ (d.sat8).rh = d.rh ∧
    (d.sat8).gh = d.gh ∧ (d.sat8).bh = d.bh ∧ (d.sat8).r8 = d.rh.map satU8 ∧ (d.sat8).g8 = d.gh.map satU8 ∧
    (d.sat8).b8 = d.bh.map satU8 ∧ (d.sat8).p = d.p :=
  ⟨rfl, rfl, rfl, rfl, rfl, rfl, rfl, rfl, rfl, rfl, rfl, rfl, rfl, rfl, rfl, rfl, rfl, rfl, rfl, rfl, rfl⟩

@[simp] theorem pack_fields (d : Datapath) :
    (d.pack).yb = d.yb ∧ (d.pack).cbb = d.cbb ∧ (d.pack).crb = d.crb ∧ (d.pack).yf = d.yf ∧ (d.pack).cbf = d.cbf ∧
    (d.pack).crf = d.crf ∧ (d.pack).cbc = d.cbc ∧ (d.pack).crc = d.crc ∧ (d.pack).rf = d.rf ∧ (d.pack).gf = d.gf ∧
    (d.pack).bf = d.bf ∧ (d.pack).ri = d.ri ∧ (d.pack).gi = d.gi ∧ (d.pack).bi = d.bi ∧ (d.pack).rh = d.rh ∧
    (d.pack).gh = d.gh ∧ (d.pack).bh = d.bh ∧ (d.pack).r8 = d.r8 ∧ (d.pack).g8 = d.g8 ∧ (d.pack).b8 = d.b8 ∧
    (d.pack).p = .ofFn (fun i => packLane (d.r8.get i) (d.g8.get i) (d.b8.get i)) :=
  ⟨rfl, rfl, rfl, rfl, rfl, rfl, rfl, rfl, rfl, rfl, rfl, rfl, rfl, rfl, rfl, rfl, rfl, rfl, rfl, rfl, rfl⟩

/-! Lanes. -/

theorem get_ofFn {α : Type} (f : Nat → α) {i : Nat} (h : i < 4) : (Lanes.ofFn f).get i = f i := by
  match i, h with
  | 0, _ => rfl
  | 1, _ => rfl
  | 2, _ => rfl
  | 3, _ => rfl

theorem get_map {α β : Type} (f : α → β) (v : Lanes α) (i : Nat) : (v.map f).get i = f (v.get i) := by
  match i with
  | 0 => rfl
  | 1 => rfl
  | 2 => rfl
  | _ + 3 => rfl

theorem get_map2 {α β γ : Type} (f : α → β → γ) (v : Lanes α) (w : Lanes β) (i : Nat) :
    (v.map2 f w).get i = f (v.get i) (w.get i) := by
  match i with
  | 0 => rfl
  | 1 => rfl
  | 2 => rfl
  | _ + 3 => rfl

/-- Stages 2 to 9 make of three loaded vectors the four pixels of `PIX` (40_convert_command.md rules R113 and R117). -/
theorem compute_load_p (c : Config) (d : Datapath) (y cb cr : Lanes Byte) :
    ((d.load y cb cr).compute c).p = .ofFn (fun i => pix c (y.get i) (cb.get i) (cr.get i)) := by
  simp only [Datapath.compute, center_fields, matr_fields, matg_fields, matb_fields, cvt_fields, sat16_fields,
    sat8_fields, pack_fields, load_fields, get_map, get_map2]
  simp only [Lanes.ofFn, Lanes.get, pix, ch8]

end Sys2Proof.Machine
end

