-- ==== Sys2Proof/Laws/Memory.lean ====
section
/-! SUPPORT. Memory: a read after a write, the canonical form, and the wider accesses built from bytes. -/

namespace Sys2Proof.Machine

theorem memRead_filter (m : List Host.Cell) (a x : Nat) :
    memRead (m.filter (fun c => c.1 != a)) x = if x = a then blankByte else memRead m x := by
  induction m with
  | nil => simp [memRead]
  | cons c m ih =>
    obtain ⟨k, v⟩ := c
    by_cases hk : k = a
    · subst hk
      by_cases hx : x = k
      · simpa [hx] using ih
      · simp [memRead, ih, hx, Ne.symm hx]
    · have : ((k, v) :: m).filter (fun c => c.1 != a) = (k, v) :: m.filter (fun c => c.1 != a) := by
        simp [hk]
      rw [this]
      by_cases hx : k = x
      · subst hx; simp [memRead, hk]
      · simp [memRead, hx, ih]

theorem memRead_insert (m : List Host.Cell) (a x : Nat) (b : Byte) (h : ∀ c ∈ m, c.1 ≠ a) :
    memRead (memInsert a b m) x = if x = a then b else memRead m x := by
  induction m with
  | nil => simp [memInsert, memRead, eq_comm]
  | cons c m ih =>
    obtain ⟨k, v⟩ := c
    have hk : k ≠ a := h (k, v) (by simp)
    have ih' := ih (fun c hc => h c (by simp [hc]))
    unfold memInsert
    split
    · by_cases hx : x = a
      · simp [memRead, hx]
      · simp [memRead, hx, Ne.symm hx]
    · by_cases hx : k = x
      · subst hx; simp [memRead, hk]
      · simp [memRead, hx, ih']

/-- Every read after a write: the written byte at its address, every other byte as before. -/
theorem memRead_memWrite (m : List Host.Cell) (a x : Nat) (b : Byte) :
    memRead (memWrite m a b) x = if x = a then b else memRead m x := by
  unfold memWrite
  split
  · rename_i hb
    rw [memRead_filter, hb]
  · rw [memRead_insert _ _ _ _ (by simp), memRead_filter]
    split <;> rfl

@[simp] theorem memRead_memWrite_same (m : List Host.Cell) (a : Nat) (b : Byte) :
    memRead (memWrite m a b) a = b := by simp [memRead_memWrite]

theorem memRead_memWrite_other (m : List Host.Cell) (a x : Nat) (b : Byte) (h : x ≠ a) :
    memRead (memWrite m a b) x = memRead m x := by simp [memRead_memWrite, h]

/-! The canonical form. -/

theorem wf_cons (k : Nat) (v : Byte) (m : List Host.Cell) :
    Memory.wf ((k, v) :: m) = true ↔ v ≠ blankByte ∧ (∀ c ∈ m, k < c.1) ∧ Memory.wf m = true := by
  simp [Memory.wf, and_assoc]

theorem wf_filter (m : List Host.Cell) (a : Nat) (h : Memory.wf m = true) :
    Memory.wf (m.filter (fun c => c.1 != a)) = true := by
  induction m with
  | nil => rfl
  | cons c m ih =>
    obtain ⟨k, v⟩ := c
    obtain ⟨hv, hk, hm⟩ := (wf_cons k v m).mp h
    by_cases ha : k = a
    · simpa [ha] using ih hm
    · have : ((k, v) :: m).filter (fun c => c.1 != a) = (k, v) :: m.filter (fun c => c.1 != a) := by
        simp [ha]
      rw [this, wf_cons]
      exact ⟨hv, fun c hc => hk c (List.mem_filter.mp hc).1, ih hm⟩

theorem mem_insert {m : List Host.Cell} {a : Nat} {b : Byte} {c : Host.Cell} (h : c ∈ memInsert a b m) :
    c = (a, b) ∨ c ∈ m := by
  induction m with
  | nil => simpa [memInsert] using h
  | cons d m ih =>
    obtain ⟨k, v⟩ := d
    unfold memInsert at h
    split at h
    · simpa using h
    · rcases List.mem_cons.mp h with h | h
      · exact .inr (by simp [h])
      · exact (ih h).imp id (List.mem_cons_of_mem _)

theorem wf_insert (m : List Host.Cell) (a : Nat) (b : Byte) (hb : b ≠ blankByte) (h : Memory.wf m = true)
    (ha : ∀ c ∈ m, c.1 ≠ a) : Memory.wf (memInsert a b m) = true := by
  induction m with
  | nil => simp [memInsert, Memory.wf, hb]
  | cons c m ih =>
    obtain ⟨k, v⟩ := c
    obtain ⟨hv, hk, hm⟩ := (wf_cons k v m).mp h
    unfold memInsert
    split
    · rename_i hlt
      refine (wf_cons a b _).mpr ⟨hb, fun c hc => ?_, h⟩
      rcases List.mem_cons.mp hc with rfl | hc
      · exact hlt
      · exact hlt.trans (hk c hc)
    · rename_i hge
      refine (wf_cons k v _).mpr ⟨hv, fun c hc => ?_, ih hm (fun c hc => ha c (by simp [hc]))⟩
      rcases mem_insert hc with rfl | hc
      · have := ha (k, v) (by simp)
        simp only at this ⊢
        omega
      · exact hk c hc

/-- A write keeps the canonical form. -/
theorem memWrite_wf (m : List Host.Cell) (a : Nat) (b : Byte) (h : Memory.wf m = true) :
    Memory.wf (memWrite m a b) = true := by
  unfold memWrite
  split
  · exact wf_filter m a h
  · rename_i hb
    exact wf_insert _ _ _ hb (wf_filter m a h) (by simp)

/-- A write lists no address but its own and those listed before. -/
theorem mem_memWrite {m : List Host.Cell} {a : Nat} {b : Byte} {c : Host.Cell} (h : c ∈ memWrite m a b) :
    c.1 = a ∨ c ∈ m := by
  unfold memWrite at h
  split at h
  · exact .inr (List.mem_filter.mp h).1
  · rcases mem_insert h with rfl | h
    · exact .inl rfl
    · exact .inr (List.mem_filter.mp h).1

/-! Wider accesses. -/

theorem memWriteLE_wf (m : List Host.Cell) (a n v : Nat) (h : Memory.wf m = true) :
    Memory.wf (memWriteLE m a n v) = true := by
  induction n generalizing m a v with
  | zero => exact h
  | succ n ih => exact ih _ _ _ (memWrite_wf _ _ _ h)

theorem mem_memWriteLE {m : List Host.Cell} {a n v : Nat} {c : Host.Cell} (h : c ∈ memWriteLE m a n v) :
    (a ≤ c.1 ∧ c.1 < a + n) ∨ c ∈ m := by
  induction n generalizing m a v with
  | zero => exact .inr h
  | succ n ih =>
    rcases ih h with h | h
    · exact .inl ⟨by omega, by omega⟩
    · rcases mem_memWrite h with h | h
      · exact .inl ⟨by omega, by omega⟩
      · exact .inr h

/-- The bytes a little-endian write leaves: byte `k` of the value at `a + k`, every other byte as before. -/
theorem memRead_memWriteLE (m : List Host.Cell) (a n v x : Nat) :
    memRead (memWriteLE m a n v) x =
      if a ≤ x ∧ x < a + n then BitVec.ofNat 8 (v / 256 ^ (x - a)) else memRead m x := by
  induction n generalizing m a v with
  | zero =>
    rw [if_neg (by omega)]
    rfl
  | succ n ih =>
    rw [memWriteLE, ih, memRead_memWrite]
    by_cases hx : x = a
    · subst hx
      rw [if_neg (by omega), if_pos rfl, if_pos (by omega)]
      simp
    · by_cases hin : a + 1 ≤ x ∧ x < a + 1 + n
      · rw [if_pos hin, if_pos (by omega), Nat.div_div_eq_div_mul]
        congr 2
        rw [show x - a = x - (a + 1) + 1 by omega, Nat.pow_succ, Nat.mul_comm]
      · rw [if_neg hin, if_neg hx, if_neg (by omega)]

/-- A little-endian read is fixed by the bytes it reads. -/
theorem memReadLE_congr {m m' : List Host.Cell} {a n : Nat}
    (h : ∀ x, a ≤ x → x < a + n → memRead m x = memRead m' x) : memReadLE m a n = memReadLE m' a n := by
  induction n generalizing a with
  | zero => rfl
  | succ n ih =>
    rw [memReadLE, memReadLE, h a (by omega) (by omega), ih (fun x h1 h2 => h x (by omega) (by omega))]

/-- Reading back a little-endian write gives the value, cut to the width. -/
theorem memReadLE_memWriteLE (m : List Host.Cell) (a n v : Nat) :
    memReadLE (memWriteLE m a n v) a n = v % 256 ^ n := by
  induction n generalizing m a v with
  | zero => simp [memReadLE, Nat.mod_one]
  | succ n ih =>
    rw [memReadLE, memWriteLE, ih, memRead_memWriteLE, if_neg (by omega), memRead_memWrite_same,
      BitVec.toNat_ofNat, show (256 : Nat) ^ (n + 1) = 256 * 256 ^ n from Nat.pow_succ', Nat.mod_mul]

theorem memWriteBytes_wf (m : List Host.Cell) (a : Nat) (l : List Byte) (h : Memory.wf m = true) :
    Memory.wf (memWriteBytes m a l) = true := by
  induction l generalizing m a with
  | nil => exact h
  | cons b l ih => exact ih _ _ (memWrite_wf _ _ _ h)

theorem mem_memWriteBytes {m : List Host.Cell} {a : Nat} {l : List Byte} {c : Host.Cell}
    (h : c ∈ memWriteBytes m a l) : (a ≤ c.1 ∧ c.1 < a + l.length) ∨ c ∈ m := by
  induction l generalizing m a with
  | nil => exact .inr h
  | cons b l ih =>
    rcases ih h with h | h
    · exact .inl ⟨by omega, by simp; omega⟩
    · rcases mem_memWrite h with h | h
      · exact .inl ⟨by omega, by simp; omega⟩
      · exact .inr h

/-- The bytes a bus write leaves. -/
theorem memRead_memWriteBytes (m : List Host.Cell) (a : Nat) (l : List Byte) (x : Nat) :
    memRead (memWriteBytes m a l) x =
      if a ≤ x ∧ x < a + l.length then l.getD (x - a) 0 else memRead m x := by
  induction l generalizing m a with
  | nil =>
    rw [if_neg (by simp)]
    rfl
  | cons b l ih =>
    rw [memWriteBytes, ih, memRead_memWrite]
    by_cases hx : x = a
    · subst hx
      rw [if_neg (by omega), if_pos rfl, if_pos (by simp)]
      simp
    · by_cases hin : a + 1 ≤ x ∧ x < a + 1 + l.length
      · rw [if_pos hin, if_pos (by simp; omega)]
        rw [show x - a = x - (a + 1) + 1 by omega, List.getD_cons_succ]
      · rw [if_neg hin, if_neg hx, if_neg (by simp; omega)]

/-! The store of a group (42_pixel_packer.md rule R84). -/

theorem storeGroup_wf (m : List Host.Cell) (base g : Nat) (p : Lanes (BitVec 32)) (h : Memory.wf m = true) :
    Memory.wf (storeGroup m base g p) = true := by
  simp only [storeGroup]
  exact memWriteLE_wf _ _ _ _ (memWriteLE_wf _ _ _ _ (memWriteLE_wf _ _ _ _ (memWriteLE_wf _ _ _ _ h)))

theorem mem_storeGroup {m : List Host.Cell} {base g : Nat} {p : Lanes (BitVec 32)} {c : Host.Cell}
    (h : c ∈ storeGroup m base g p) : (base + 16 * g ≤ c.1 ∧ c.1 < base + 16 * g + 16) ∨ c ∈ m := by
  simp only [storeGroup] at h
  rcases mem_memWriteLE h with h | h
  · exact .inl ⟨by omega, by omega⟩
  rcases mem_memWriteLE h with h | h
  · exact .inl ⟨by omega, by omega⟩
  rcases mem_memWriteLE h with h | h
  · exact .inl ⟨by omega, by omega⟩
  rcases mem_memWriteLE h with h | h
  · exact .inl ⟨by omega, by omega⟩
  · exact .inr h

/-- The bytes the store of a group leaves: byte `k mod 4` of lane `k / 4` at offset `k` of its sixteen, every other byte
as before. -/
theorem memRead_storeGroup (m : List Host.Cell) (base g : Nat) (p : Lanes (BitVec 32)) (x : Nat) :
    memRead (storeGroup m base g p) x =
      if base + 16 * g ≤ x ∧ x < base + 16 * g + 16 then
        BitVec.ofNat 8 ((p.get ((x - (base + 16 * g)) / 4)).toNat / 256 ^ ((x - (base + 16 * g)) % 4))
      else memRead m x := by
  simp only [storeGroup, memRead_memWriteLE]
  by_cases h3 : base + 16 * g + 12 ≤ x ∧ x < base + 16 * g + 12 + 4
  · rw [if_pos h3, if_pos (by omega), show (x - (base + 16 * g)) / 4 = 3 by omega]
    congr 3; omega
  rw [if_neg h3]
  by_cases h2 : base + 16 * g + 8 ≤ x ∧ x < base + 16 * g + 8 + 4
  · rw [if_pos h2, if_pos (by omega), show (x - (base + 16 * g)) / 4 = 2 by omega]
    congr 3; omega
  rw [if_neg h2]
  by_cases h1 : base + 16 * g + 4 ≤ x ∧ x < base + 16 * g + 4 + 4
  · rw [if_pos h1, if_pos (by omega), show (x - (base + 16 * g)) / 4 = 1 by omega]
    congr 3; omega
  rw [if_neg h1]
  by_cases h0 : base + 16 * g ≤ x ∧ x < base + 16 * g + 4
  · rw [if_pos h0, if_pos (by omega), show (x - (base + 16 * g)) / 4 = 0 by omega]
    congr 3; omega
  rw [if_neg h0, if_neg (by omega)]

end Sys2Proof.Machine
end

