-- ==== Sys2Proof/Laws/Spans.lean ====
section
/-! SUPPORT. Runs of bytes: sharing, covering, and what the launch checks give the group step. -/

namespace Sys2Proof.Machine

theorem has_iff (s : Span) (a : Nat) : Span.has s a = true ↔ s.base ≤ a ∧ a < s.base + s.size := by
  simp [Span.has]

/-- Two runs meet exactly when they share a byte. -/
theorem meets_iff (s t : Span) : Span.meets s t = true ↔ ∃ a, Span.has s a = true ∧ Span.has t a = true := by
  simp only [Span.meets, decide_eq_true_eq, has_iff]
  constructor
  · intro h
    exact ⟨max s.base t.base, by omega⟩
  · rintro ⟨a, h⟩
    omega

theorem meets_comm (s t : Span) : Span.meets s t = Span.meets t s := by
  simp [Span.meets, Nat.max_comm, Nat.min_comm]

theorem anyHas_iff (l : List Span) (a : Nat) : anyHas l a = true ↔ ∃ s ∈ l, Span.has s a = true := by
  simp [anyHas]

theorem anyMeets_iff (l : List Span) (s : Span) : anyMeets l s = true ↔ ∃ t ∈ l, Span.meets t s = true := by
  simp [anyMeets]

/-- A byte of a run that meets none of a list lies in none of the list. -/
theorem not_anyHas_of_not_anyMeets {l : List Span} {s : Span} {a : Nat} (h : anyMeets l s = false)
    (ha : Span.has s a = true) : anyHas l a = false := by
  by_contra hc
  obtain ⟨t, ht, hta⟩ := (anyHas_iff l a).mp (by simpa using hc)
  have : anyMeets l s = true := (anyMeets_iff l s).mpr ⟨t, ht, (meets_iff t s).mpr ⟨a, hta, ha⟩⟩
  simp [h] at this

/-- Whether an address lies in one of some gaps. -/
def inGaps (gaps : List (Nat × Nat)) (a : Nat) : Prop := ∃ x ∈ gaps, x.1 ≤ a ∧ a < x.2

theorem mem_cut {s : Span} {x y : Nat × Nat} :
    y ∈ Span.cut s x ↔
      (y = (x.1, min x.2 s.base) ∨ y = (max x.1 (s.base + s.size), x.2)) ∧ y.1 < y.2 := by
  simp [Span.cut]

theorem inGaps_cut (s : Span) (gaps : List (Nat × Nat)) (a : Nat) :
    inGaps (gaps.flatMap (Span.cut s)) a ↔ inGaps gaps a ∧ Span.has s a = false := by
  have hf : Span.has s a = false ↔ (a < s.base ∨ s.base + s.size ≤ a) := by
    rw [Bool.eq_false_iff, ne_eq, has_iff]; omega
  simp only [inGaps, List.mem_flatMap, mem_cut, hf]
  constructor
  · rintro ⟨y, ⟨x, hx, hy | hy, hlt⟩, h1, h2⟩
    · subst hy
      simp only at h1 h2 hlt
      exact ⟨⟨x, hx, h1, by omega⟩, by omega⟩
    · subst hy
      simp only at h1 h2 hlt
      exact ⟨⟨x, hx, by omega, h2⟩, by omega⟩
  · rintro ⟨⟨x, hx, h1, h2⟩, h | h⟩
    · exact ⟨(x.1, min x.2 s.base), ⟨x, hx, .inl rfl, by simp only; omega⟩, by simp only; omega⟩
    · exact ⟨(max x.1 (s.base + s.size), x.2), ⟨x, hx, .inr rfl, by simp only; omega⟩, by simp only; omega⟩

theorem inGaps_gapsLeft (l : List Span) (gaps : List (Nat × Nat)) (a : Nat) :
    inGaps (gapsLeft l gaps) a ↔ inGaps gaps a ∧ anyHas l a = false := by
  induction l generalizing gaps with
  | nil => simp [gapsLeft, anyHas]
  | cons s l ih => simp [gapsLeft, ih, inGaps_cut, anyHas, and_assoc]

theorem gapsLeft_nonempty (l : List Span) (gaps : List (Nat × Nat)) (h : ∀ x ∈ gaps, x.1 < x.2) :
    ∀ x ∈ gapsLeft l gaps, x.1 < x.2 := by
  induction l generalizing gaps with
  | nil => exact h
  | cons s l ih =>
    refine ih _ (fun y hy => ?_)
    obtain ⟨x, _, hy⟩ := List.mem_flatMap.mp hy
    exact (mem_cut.mp hy).2

/-- A list of runs covers a run exactly when every byte of it lies in one of the list. -/
theorem covers_iff (l : List Span) (s : Span) :
    covers l s = true ↔ ∀ a, Span.has s a = true → anyHas l a = true := by
  have hstart : ∀ a, inGaps ([(s.base, s.base + s.size)].filter (fun x => decide (x.1 < x.2))) a ↔
      Span.has s a = true := by
    intro a
    simp only [inGaps, List.mem_filter, List.mem_singleton, decide_eq_true_eq, has_iff]
    constructor
    · rintro ⟨x, ⟨rfl, _⟩, h⟩; exact h
    · intro h; exact ⟨_, ⟨rfl, by simp only; omega⟩, h⟩
  have hleft := inGaps_gapsLeft l ([(s.base, s.base + s.size)].filter (fun x => decide (x.1 < x.2)))
  simp only [hstart] at hleft
  rw [covers, List.isEmpty_iff]
  constructor
  · intro h a ha
    by_contra hc
    obtain ⟨x, hx, _⟩ := (hleft a).mpr ⟨ha, by simpa using hc⟩
    simp [h] at hx
  · intro h
    by_contra hne
    obtain ⟨x, hx⟩ := List.exists_mem_of_ne_nil _ hne
    have hlt := gapsLeft_nonempty l _ (by simp) x hx
    obtain ⟨ha, hc⟩ := (hleft x.1).mp ⟨x, hx, le_refl _, hlt⟩
    simp [h _ ha] at hc

/-- What admission gives each byte of a region. -/
theorem admits_byte {c : Config} {csr allowed : List Span} {r : Span} {a : Nat}
    (h : admits c csr allowed r = true) (hin : r.base + r.size ≤ 2 ^ c.addrW) (ha : Span.has r a = true) :
    ordinary c csr a = true ∧ anyHas allowed a = true := by
  simp only [admits, Bool.and_eq_true, Bool.not_eq_true'] at h
  obtain ⟨⟨h1, h2⟩, h3⟩ := h
  have := (has_iff r a).mp ha
  refine ⟨?_, (covers_iff _ _).mp h2 a ha⟩
  simp only [ordinary, Bool.and_eq_true, Bool.not_eq_true', decide_eq_true_eq]
  exact ⟨⟨by omega, (covers_iff _ _).mp h1 a ha⟩, not_anyHas_of_not_anyMeets h3 ha⟩

/-- The sample count is four times the group count (10_state.md rule R32). -/
theorem samples_eq (e : Engine) : e.samples = 4 * e.gTotal := by
  simp only [Engine.samples, Engine.gTotal]
  ring

/-! What is computed from the operand registers alone is the same for engines with the same registers. -/

section Congr

variable {e f : Engine} (h : ∀ o, f.get o = e.get o)
include h

theorem num_congr (o : OpReg) : f.num o = e.num o := by simp [Engine.num, h]

theorem samples_congr : f.samples = e.samples := by simp [Engine.samples, num_congr h]

theorem gTotal_congr : f.gTotal = e.gTotal := by simp [Engine.gTotal, num_congr h]

theorem planes_congr : f.planes = e.planes := by
  simp [Engine.planes, Engine.lumaPlane, Engine.cbPlane, Engine.crPlane, num_congr h, samples_congr h]

theorem outRegion_congr : f.outRegion = e.outRegion := by
  simp [Engine.outRegion, num_congr h, samples_congr h]

theorem regions_congr : f.regions = e.regions := by
  simp [Engine.regions, Engine.lumaPlane, Engine.cbPlane, Engine.crPlane, num_congr h, samples_congr h,
    outRegion_congr h]

theorem allWritten_congr : f.allWritten = e.allWritten := by
  have h0 := h .lumaBase; have h1 := h .cbBase; have h2 := h .crBase
  have h3 := h .outBase; have h4 := h .blockCols; have h5 := h .blockRows
  simp only [Engine.get] at h0 h1 h2 h3 h4 h5
  simp only [Engine.allWritten, h0, h1, h2, h3, h4, h5]

theorem fits_congr (c : Config) : f.fits c = e.fits c := by simp [Engine.fits, h]

theorem launchable_congr (hp : f.port = e.port) (c : Config) (csr : List Span) :
    f.launchable c csr = e.launchable c csr := by
  simp only [Engine.launchable, allWritten_congr h, num_congr h, Engine.aligned, Engine.inSpace, Engine.admitted,
    Engine.selfAlias, planes_congr h, regions_congr h, outRegion_congr h, hp]

/-- A conflict is judged by the operands of the two engines and whether the other runs. -/
theorem conflicts_congr (d : Engine) : f.conflicts d = e.conflicts d := by
  simp only [Engine.conflicts, planes_congr h, outRegion_congr h]

end Congr

/-- The conflict of two running commands is symmetric. -/
theorem conflicts_symm (e f : Engine) (he : e.run = .busy) (hf : f.run = .busy) :
    e.conflicts f = f.conflicts e := by
  simp only [Engine.conflicts, he, hf, decide_true, Bool.true_and, anyMeets, Engine.regions, Engine.planes,
    List.any_cons, List.any_nil, Bool.or_false]
  simp only [meets_comm f.lumaPlane, meets_comm f.cbPlane, meets_comm f.crPlane, meets_comm f.outRegion]
  generalize Span.meets e.lumaPlane f.outRegion = a
  generalize Span.meets e.cbPlane f.outRegion = b
  generalize Span.meets e.crPlane f.outRegion = c
  generalize Span.meets e.outRegion f.lumaPlane = a'
  generalize Span.meets e.outRegion f.cbPlane = b'
  generalize Span.meets e.outRegion f.crPlane = c'
  generalize Span.meets e.outRegion f.outRegion = o
  revert a b c a' b' c' o
  decide

end Sys2Proof.Machine
end

