-- ==== Sys2Proof/Laws/Ops.lean ====
section
/-! SUPPORT. One lemma per shared operation that says all it can do, cited by later proofs in place of unfolding it. -/

namespace Sys2Proof.Machine

/-! The gate of the engine's steps. -/

theorem whenBusy_of_busy {s : State} {k : State → Out} (h : s.eng.run = .busy) : whenBusy s k = k s := by
  simp [whenBusy, h]

theorem whenBusy_of_not_busy {s : State} {k : State → Out} (h : s.eng.run ≠ .busy) :
    whenBusy s k = .next s := by
  simp [whenBusy, h]

theorem whenBusy_next {s t : State} {k : State → Out} (h : whenBusy s k = .next t) :
    (s.eng.run = .busy ∧ k s = .next t) ∨ (s.eng.run ≠ .busy ∧ t = s) := by
  unfold whenBusy at h
  split at h
  · exact .inl ⟨‹_›, h⟩
  · cases h
    exact .inr ⟨‹_›, rfl⟩

/-! The launch. -/

/-- The launch checks all pass exactly under these conditions (40_convert_command.md rule R112). -/
theorem launchCheck_none (s : State) : launchCheck s = none ↔
    s.eng.run ≠ .busy ∧ s.eng.launchable s.cfg s.csrBlocks = true ∧
      ∀ f ∈ s.peers, s.eng.conflicts f = false := by
  unfold launchCheck Engine.launchable
  by_cases h1 : s.eng.run = .busy
  · simp [h1]
  cases h2 : s.eng.allWritten
  · simp [h1]
  by_cases h3 : s.eng.num .blockCols = 0 ∨ s.eng.num .blockRows = 0
  · have : ¬ (s.eng.num .blockCols ≠ 0 ∧ s.eng.num .blockRows ≠ 0) := by omega
    simp [h1, h3, this]
  have h3' : s.eng.num .blockCols ≠ 0 ∧ s.eng.num .blockRows ≠ 0 := by omega
  cases h4 : s.eng.aligned s.cfg
  · simp [h1, h3]
  cases h5 : s.eng.inSpace s.cfg
  · simp [h1, h3]
  cases h6 : s.eng.admitted s.cfg s.csrBlocks
  · simp [h1, h3]
  cases h7 : s.eng.selfAlias
  · simp [h1, h3', List.any_eq_true]
  · simp [h1, h3]

theorem launch_next {s t : State} (h : launch s = .next t) : launchCheck s = none ∧ t = started s := by
  unfold launch at h
  split at h
  · cases h
  · cases h
    exact ⟨‹_›, rfl⟩

/-! WRREG and RDREG. -/

theorem execWrreg_op_next {o : OpReg} {w : Word64} {s t : State} (h : execWrreg (.op o) w s = .next t) :
    s.eng.run ≠ .busy ∧ w.toNat < 2 ^ fieldWidth s.cfg o ∧ t = writeOperand s o w := by
  simp only [execWrreg] at h
  split at h
  · cases h
  · split at h
    · cases h
    · rename_i h1 h2
      cases h
      exact ⟨h1, by simpa [fitsField] using h2, rfl⟩

theorem execRdreg_next {r : Reg} {s t : State} (h : execRdreg r s = .next t) :
    ∃ w, t = s.withRdata w := by
  cases r with
  | ctrl => cases h
  | status => cases h; exact ⟨_, rfl⟩
  | op o =>
    simp only [execRdreg] at h
    split at h
    · cases h; exact ⟨_, rfl⟩
    · cases h

/-- A value that fits its field is kept as it is. -/
theorem lowField_of_lt {f : Nat} {w : Word64} (h : w.toNat < 2 ^ f) : lowField f w = w := by
  simp [lowField, Nat.mod_eq_of_lt h]

/-! The group step. -/

theorem execGroup_next {s t : State} (h : execGroup s = .next t) :
    (s.eng.run ≠ .busy ∧ t = s) ∨
      (s.eng.run = .busy ∧ s.loadFault = none ∧ s.storeFault = none ∧ t = s.convertGroup) := by
  rcases whenBusy_next h with ⟨hb, h⟩ | h
  · right
    split at h
    · cases h
    · split at h
      · cases h
      · cases h
        exact ⟨hb, ‹_›, ‹_›, rfl⟩
  · exact .inl h

/-- The pixels of the group in hand, from the bytes of the planes (20_memory.md rule R44). -/
def State.groupPixels (s : State) : Lanes (BitVec 32) :=
  .ofFn (fun i => pix s.cfg (memRead s.mem (s.eng.num .lumaBase + 4 * s.curGroup + i))
    (memRead s.mem (s.eng.num .cbBase + 4 * s.curGroup + i))
    (memRead s.mem (s.eng.num .crBase + 4 * s.curGroup + i)))

/-- The state after stages 1 to 9 of a group step. -/
def State.computed (s : State) : State :=
  s.loadStage.withDp (s.loadStage.eng.dp.compute s.loadStage.cfg)

theorem convertGroup_eq (s : State) : s.convertGroup = s.computed.storeStage.finishGroup := rfl

theorem computed_p (s : State) : s.computed.eng.dp.p = s.groupPixels := by
  simp only [State.computed, withDp_eng, State.loadStage, withDp_cfg, compute_load_p, State.groupPixels,
    loadLanes, Lanes.ofFn, Lanes.get]

/-- Stages 1 to 9 change nothing but the datapath. -/
theorem computed_rest (s : State) : ∃ d, s.computed = s.withDp d := ⟨_, rfl⟩

/-- The sequencer's update changes the engine in focus only. -/
theorem finishGroup_rest (s : State) :
    s.finishGroup.mem = s.mem ∧ s.finishGroup.cfg = s.cfg ∧ s.finishGroup.engL = s.engL ∧
      s.finishGroup.engR = s.engR ∧ s.finishGroup.refusal = s.refusal ∧ s.finishGroup.rdata = s.rdata ∧
      s.finishGroup.mdata = s.mdata ∧ s.finishGroup.inbox = s.inbox := by
  unfold State.finishGroup
  dsimp only
  split <;> simp

theorem finishGroup_eng (s : State) : s.finishGroup.eng =
    { s.eng with
      g := s.eng.g + 1
      run := if s.eng.g + 1 = s.eng.gTotal then .done else s.eng.run
      converted := if s.cfg.groupOrder = .any then s.curGroup :: s.eng.converted else s.eng.converted
      freeIdx := if s.cfg.groupOrder = .any then s.eng.freeIdx + 1 else s.eng.freeIdx
      dp := .empty } := by
  unfold State.finishGroup
  cases s.cfg.groupOrder <;> simp

theorem withDp_curGroup (s : State) (d : Datapath) : (s.withDp d).curGroup = s.curGroup := rfl

theorem withMem_curGroup (s : State) (m : List Host.Cell) : (s.withMem m).curGroup = s.curGroup := rfl

theorem withDp_num (s : State) (d : Datapath) (o : OpReg) : (s.withDp d).eng.num o = s.eng.num o := by
  cases o <;> rfl

theorem convertGroup_mem (s : State) :
    s.convertGroup.mem = storeGroup s.mem (s.eng.num .outBase) s.curGroup s.groupPixels := by
  rw [convertGroup_eq, (finishGroup_rest _).1]
  have hp := computed_p s
  obtain ⟨d, hd⟩ := computed_rest s
  rw [hd] at hp ⊢
  simp only [State.storeStage, withMem_mem, withDp_mem, withDp_curGroup, withDp_num, hp]

theorem convertGroup_eng (s : State) : s.convertGroup.eng =
    { s.eng with
      g := s.eng.g + 1
      run := if s.eng.g + 1 = s.eng.gTotal then .done else s.eng.run
      converted := if s.cfg.groupOrder = .any then s.curGroup :: s.eng.converted else s.eng.converted
      freeIdx := if s.cfg.groupOrder = .any then s.eng.freeIdx + 1 else s.eng.freeIdx
      dp := .empty } := by
  rw [convertGroup_eq, finishGroup_eng]
  obtain ⟨d, hd⟩ := computed_rest s
  rw [hd]
  rfl

/-- What the group step leaves alone beside memory and its own engine. -/
theorem convertGroup_rest (s : State) :
    s.convertGroup.cfg = s.cfg ∧ s.convertGroup.engL = s.engL ∧ s.convertGroup.engR = s.engR ∧
      s.convertGroup.refusal = s.refusal ∧ s.convertGroup.rdata = s.rdata ∧
      s.convertGroup.mdata = s.mdata ∧ s.convertGroup.inbox = s.inbox := by
  rw [convertGroup_eq]
  obtain ⟨d, hd⟩ := computed_rest s
  rw [hd]
  exact (finishGroup_rest _).2

theorem convertGroup_get (s : State) (o : OpReg) : s.convertGroup.eng.get o = s.eng.get o := by
  rw [convertGroup_eng]
  cases o <;> rfl

theorem convertGroup_port (s : State) : s.convertGroup.eng.port = s.eng.port := by rw [convertGroup_eng]

theorem convertGroup_g (s : State) : s.convertGroup.eng.g = s.eng.g + 1 := by rw [convertGroup_eng]

theorem convertGroup_run (s : State) :
    s.convertGroup.eng.run = if s.eng.g + 1 = s.eng.gTotal then .done else s.eng.run := by rw [convertGroup_eng]

theorem convertGroup_converted (s : State) : s.convertGroup.eng.converted =
    if s.cfg.groupOrder = .any then s.curGroup :: s.eng.converted else s.eng.converted := by rw [convertGroup_eng]

/-- The group step changes memory and its own engine only. -/
theorem convertGroup_eq_withEng (s : State) : s.convertGroup =
    (s.withMem (storeGroup s.mem (s.eng.num .outBase) s.curGroup s.groupPixels)).withEng s.convertGroup.eng := by
  obtain ⟨h1, h2, h3, h4, h5, h6, h7⟩ := convertGroup_rest s
  refine state_eq ?_ ?_ ?_ ?_ ?_ ?_ ?_ ?_ ?_
  · rw [h1, withEng_cfg, withMem_cfg]
  · rw [h2, withEng_engL, withMem_engL]
  · rw [withEng_eng]
  · rw [h3, withEng_engR, withMem_engR]
  · rw [convertGroup_mem, withEng_mem, withMem_mem]
  · rw [h4, withEng_refusal, withMem_refusal]
  · rw [h5, withEng_rdata, withMem_rdata]
  · rw [h6, withEng_mdata, withMem_mdata]
  · rw [h7, withEng_inbox, withMem_inbox]

/-- Each pixel of the group in hand is where its index says (20_memory.md rule R43). -/
theorem groupPixels_get (s : State) {i : Nat} (h : i < 4) : s.groupPixels.get i =
    pix s.cfg (memRead s.mem (s.eng.num .lumaBase + 4 * s.curGroup + i))
      (memRead s.mem (s.eng.num .cbBase + 4 * s.curGroup + i))
      (memRead s.mem (s.eng.num .crBase + 4 * s.curGroup + i)) := by
  match i, h with
  | 0, _ => rfl
  | 1, _ => rfl
  | 2, _ => rfl
  | 3, _ => rfl

/-! The group in hand is one of the command's. -/

theorem position_lt {c : Config} {e : Engine} (h : e.position c = true) : e.g < e.gTotal := by
  simp only [Engine.position, Bool.and_eq_true, decide_eq_true_eq] at h
  exact h.1

theorem position_any {c : Config} {e : Engine} (h : e.position c = true) (ho : c.groupOrder = .any) :
    e.converted.Nodup ∧ e.converted.length = e.g ∧ ∀ x ∈ e.converted, x < e.gTotal := by
  simp only [Engine.position, ho, Bool.and_eq_true, decide_eq_true_eq, List.all_eq_true] at h
  exact ⟨h.2.1.1, h.2.1.2, h.2.2⟩

theorem mem_remaining (e : Engine) (x : Nat) : x ∈ e.remaining ↔ x < e.gTotal ∧ x ∉ e.converted := by
  simp [Engine.remaining]

/-- Fewer groups converted than there are leaves one to convert. -/
theorem remaining_pos {e : Engine} (hl : e.converted.length < e.gTotal) : 0 < e.remaining.length := by
  by_contra hc
  have hnil : e.remaining = [] := List.length_eq_zero_iff.mp (by omega)
  have hsub : List.range e.gTotal ⊆ e.converted := by
    intro x hx
    by_contra hn
    have : x ∈ e.remaining := (mem_remaining e x).mpr ⟨List.mem_range.mp hx, hn⟩
    simp [hnil] at this
  have := (List.nodup_range.subperm hsub).length_le
  simp at this
  omega

theorem curGroup_ascending {s : State} (h : s.cfg.groupOrder = .ascending) : s.curGroup = s.eng.g := by
  simp [State.curGroup, h]

theorem curGroup_any {s : State} (h : s.cfg.groupOrder = .any) (hp : s.eng.position s.cfg = true) :
    s.curGroup ∈ s.eng.remaining := by
  have hlt : s.eng.converted.length < s.eng.gTotal := by
    rw [(position_any hp h).2.1]; exact position_lt hp
  have hpos := remaining_pos hlt
  simp only [State.curGroup, h]
  rw [List.getD_eq_getElem _ _ (Nat.mod_lt _ hpos)]
  exact List.getElem_mem _

theorem curGroup_lt {s : State} (hp : s.eng.position s.cfg = true) : s.curGroup < s.eng.gTotal := by
  cases h : s.cfg.groupOrder with
  | ascending => rw [curGroup_ascending h]; exact position_lt hp
  | any => exact ((mem_remaining _ _).mp (curGroup_any h hp)).1

/-! An accepted command never leaves its regions. -/

theorem launchable_parts {c : Config} {csr : List Span} {e : Engine} (h : e.launchable c csr = true) :
    e.allWritten = true ∧ e.num .blockCols ≠ 0 ∧ e.num .blockRows ≠ 0 ∧ e.aligned c = true ∧
      e.inSpace c = true ∧ e.admitted c csr = true ∧ e.selfAlias = false := by
  simp only [Engine.launchable, Bool.and_eq_true, Bool.not_eq_true', decide_eq_true_eq] at h
  obtain ⟨⟨⟨⟨⟨h1, h2⟩, h3⟩, h4⟩, h5⟩, h6⟩ := h
  exact ⟨h1, h2.1, h2.2, h3, h4, h5, h6⟩

/-- Every byte of a plane of a launchable command may be read. -/
theorem launchable_mayRead {s : State} (h : s.eng.launchable s.cfg s.csrBlocks = true) {r : Span}
    (hr : r ∈ s.eng.planes) {a : Nat} (ha : Span.has r a = true) : s.mayRead a = true := by
  obtain ⟨_, _, _, _, hs, hm, _⟩ := launchable_parts h
  simp only [Engine.admitted, Bool.and_eq_true, List.all_eq_true] at hm
  simp only [Engine.inSpace, List.all_eq_true, decide_eq_true_eq] at hs
  have hin : r ∈ s.eng.regions := by
    simp only [Engine.planes, Engine.regions, List.mem_cons, List.not_mem_nil, or_false] at hr ⊢
    tauto
  obtain ⟨h1, h2⟩ := admits_byte (hm.1 r hr) (hs r hin) ha
  simp [State.mayRead, h1, h2]

/-- Every byte of the pixel buffer of a launchable command may be written. -/
theorem launchable_mayWrite {s : State} (h : s.eng.launchable s.cfg s.csrBlocks = true) {a : Nat}
    (ha : Span.has s.eng.outRegion a = true) : s.mayWrite a = true := by
  obtain ⟨_, _, _, _, hs, hm, _⟩ := launchable_parts h
  simp only [Engine.admitted, Bool.and_eq_true] at hm
  simp only [Engine.inSpace, List.all_eq_true, decide_eq_true_eq] at hs
  obtain ⟨h1, h2⟩ := admits_byte hm.2 (hs _ (by simp [Engine.regions])) ha
  simp [State.mayWrite, h1, h2]

theorem mem_groupReads {base g a : Nat} (h : a ∈ groupReads base g) :
    base + 4 * g ≤ a ∧ a < base + 4 * g + 4 := by
  simp only [groupReads, List.mem_cons, List.not_mem_nil, or_false] at h
  omega

theorem mem_groupWrites {base g a : Nat} :
    a ∈ groupWrites base g ↔ base + 16 * g ≤ a ∧ a < base + 16 * g + 16 := by
  simp only [groupWrites, List.mem_map, List.mem_range]
  constructor
  · rintro ⟨k, hk, rfl⟩; omega
  · rintro h; exact ⟨a - (base + 16 * g), by omega, by omega⟩

/-- The twelve bytes of a group of a launchable command may be read. -/
theorem loadFault_none {s : State} (h : s.eng.launchable s.cfg s.csrBlocks = true)
    (hg : s.curGroup < s.eng.gTotal) : s.loadFault = none := by
  have hn := samples_eq s.eng
  rw [State.loadFault, List.find?_eq_none]
  intro a ha
  simp only [State.loadAddrs, List.mem_append] at ha
  rcases ha with (ha | ha) | ha
  all_goals
    have hb := mem_groupReads ha
    simp only [Bool.not_eq_true, Bool.not_eq_false']
  · exact launchable_mayRead h (r := s.eng.lumaPlane) (by simp [Engine.planes])
      ((has_iff _ _).mpr (by simp only [Engine.lumaPlane]; omega))
  · exact launchable_mayRead h (r := s.eng.cbPlane) (by simp [Engine.planes])
      ((has_iff _ _).mpr (by simp only [Engine.cbPlane]; omega))
  · exact launchable_mayRead h (r := s.eng.crPlane) (by simp [Engine.planes])
      ((has_iff _ _).mpr (by simp only [Engine.crPlane]; omega))

/-- The sixteen bytes of a group of a launchable command may be written. -/
theorem storeFault_none {s : State} (h : s.eng.launchable s.cfg s.csrBlocks = true)
    (hg : s.curGroup < s.eng.gTotal) : s.storeFault = none := by
  have hn := samples_eq s.eng
  rw [State.storeFault, List.find?_eq_none]
  intro a ha
  have hb := mem_groupWrites.mp ha
  simp only [Bool.not_eq_true, Bool.not_eq_false']
  exact launchable_mayWrite h ((has_iff _ _).mpr (by simp only [Engine.outRegion]; omega))

/-! Serving an action. -/

theorem onEngine_next {k : Nat} {s t : State} {f : State → Out} (h : onEngine k s f = .next t) :
    ∃ u, s.focus k = some u ∧ f u = .next t := by
  unfold onEngine at h
  split at h
  · cases h
  · exact ⟨_, ‹_›, h⟩

theorem runCode_next {c : Code} {s t : State} (h : runCode c s = .next t) :
    ∃ i, decode c = .ok i ∧ exec i s = .next t := by
  unfold runCode at h
  split at h
  · exact ⟨_, ‹_›, h⟩
  · cases h

theorem memAccess_next {w : Bool} {a n : Nat} {s t u : State} (h : memAccess w a n s t = .next u) :
    u = t ∧ firstHole s a n = none ∧ s.engines.any (touches w ⟨a, n⟩) = false := by
  unfold memAccess at h
  split at h
  · cases h
  · split at h
    · cases h
    · cases h
      exact ⟨rfl, ‹_›, Bool.eq_false_iff.mpr ‹_›⟩

/-- With no hole in a run of addresses, each of them is an address of ordinary memory. -/
theorem firstHole_none {s : State} {a n : Nat} (h : firstHole s a n = none) :
    ∀ x, a ≤ x → x < a + n → x < 2 ^ s.cfg.addrW ∧ anyHas s.cfg.ram x = true := by
  induction n generalizing a with
  | zero => intro x h1 h2; omega
  | succ n ih =>
    unfold firstHole at h
    split at h
    · rename_i hc
      simp only [Bool.and_eq_true, decide_eq_true_eq] at hc
      intro x h1 h2
      rcases Nat.lt_or_ge a x with hx | hx
      · exact ih h x hx (by omega)
      · rw [show x = a by omega]; exact hc
    · cases h

/-- WAIT on an engine that is DONE is over with this read (30_encoding.md rule R149). -/
theorem waitRound_of_done {k : Nat} {s : State} (h : s.eng.run = .done) : waitRound k s = .next (s.withRdata 2) := by
  change (if (s.eng.run.statusWord).getLsbD 1 then Host.Outcome.next (s.withRdata s.eng.run.statusWord)
    else .next ((s.withRdata s.eng.run.statusWord).withInbox
      (engineTurns s.engines.length ++ .wait k :: s.inbox))) = _
  rw [h, if_pos (by decide)]
  rfl

/-- WAIT on an engine that is not DONE gives every engine its turn and goes on (log 18). -/
theorem waitRound_of_not_done {k : Nat} {s : State} (h : s.eng.run ≠ .done) :
    waitRound k s = .next ((s.withRdata s.eng.run.statusWord).withInbox
      (engineTurns s.engines.length ++ .wait k :: s.inbox)) := by
  change (if (s.eng.run.statusWord).getLsbD 1 then Host.Outcome.next (s.withRdata s.eng.run.statusWord)
    else .next ((s.withRdata s.eng.run.statusWord).withInbox
      (engineTurns s.engines.length ++ .wait k :: s.inbox))) = _
  rw [if_neg]
  revert h
  cases s.eng.run <;> decide

/-- What a round of WAIT does (30_encoding.md rule R149). -/
theorem waitRound_next {k : Nat} {s t : State} (h : waitRound k s = .next t) :
    (s.eng.run = .done ∧ t = s.withRdata 2) ∨
      (s.eng.run ≠ .done ∧ t = (s.withRdata s.eng.run.statusWord).withInbox
        (engineTurns s.engines.length ++ .wait k :: s.inbox)) := by
  by_cases hd : s.eng.run = .done
  · rw [waitRound_of_done hd] at h
    cases h
    exact .inl ⟨hd, rfl⟩
  · rw [waitRound_of_not_done hd] at h
    cases h
    exact .inr ⟨hd, rfl⟩

/-- The first BUSY engine is one, and it is BUSY. -/
theorem firstBusy_some {l : List Engine} {j k : Nat} (h : firstBusy l j = some k) :
    ∃ e, j ≤ k ∧ l[k - j]? = some e ∧ e.run = .busy := by
  induction l generalizing j with
  | nil => cases h
  | cons e l ih =>
    unfold firstBusy at h
    split at h
    · cases h
      exact ⟨e, le_refl _, by simp, ‹_›⟩
    · obtain ⟨f, hk, hf, hb⟩ := ih h
      refine ⟨f, by omega, ?_, hb⟩
      rw [show k - j = (k - (j + 1)) + 1 by omega, List.getElem?_cons_succ]
      exact hf

theorem firstBusy_none {l : List Engine} {j : Nat} (h : firstBusy l j = none) : ∀ e ∈ l, e.run ≠ .busy := by
  induction l generalizing j with
  | nil => simp
  | cons e l ih =>
    unfold firstBusy at h
    split at h
    · cases h
    · intro f hf
      rcases List.mem_cons.mp hf with rfl | hf
      · assumption
      · exact ih h f hf

end Sys2Proof.Machine
end

