-- ==== Sys2Proof/Laws/Invariant.lean ====
section
/-! SUPPORT. How the invariant passes through the updates a step is made of. Where an update puts memory in, state the
lemma for any memory (as `inv_advance` does) and rewrite with the field lemmas: comparing a state with its own update by
unfolding would compute pixels. -/

namespace Sys2Proof.Machine

theorem apart_symm {e f : Engine} (h : e.apart f) : f.apart e := fun hf he => (h he hf).symm

/-- A symmetric relation holds between all pairs of a list exactly when it does without one member and between that
member and each other. -/
theorem pairwise_mid {R : Engine → Engine → Prop} (hs : ∀ {a b}, R a b → R b a) (l r : List Engine) (e : Engine) :
    (l ++ e :: r).Pairwise R ↔ (l ++ r).Pairwise R ∧ ∀ f ∈ l ++ r, R e f := by
  rw [List.pairwise_append, List.pairwise_cons, List.pairwise_append]
  constructor
  · rintro ⟨h1, ⟨h2, h3⟩, h4⟩
    refine ⟨⟨h1, h3, fun a ha b hb => h4 a ha b (by simp [hb])⟩, ?_⟩
    intro f hf
    rcases List.mem_append.mp hf with hf | hf
    · exact hs (h4 f hf e (by simp))
    · exact h2 f hf
  · rintro ⟨⟨h1, h2, h3⟩, h4⟩
    refine ⟨h1, ⟨fun a ha => h4 a (by simp [ha]), h2⟩, ?_⟩
    intro a ha b hb
    rcases List.mem_cons.mp hb with rfl | hb
    · exact hs (h4 a (by simp [ha]))
    · exact h3 a ha b hb

/-- The invariant speaks of the parameters, the engines and memory only. -/
theorem inv_congr {s t : State} (h : s.Inv) (h1 : t.cfg = s.cfg) (h2 : t.engines = s.engines)
    (h3 : t.mem = s.mem) : t.Inv := by
  have hc : t.csrBlocks = s.csrBlocks := by simp [State.csrBlocks, h2]
  refine ⟨by rw [h1]; exact h.cfgLegal, by rw [h3]; exact h.memWf, by rw [h1, h3]; exact h.memIn, ?_,
    by rw [h2]; exact h.apart⟩
  rw [h1, h2, hc]
  exact h.engines

theorem inv_focus {s t : State} {k : Nat} (h : s.Inv) (hf : s.focus k = some t) : t.Inv := by
  obtain ⟨_, h2, _, h1, h3, _⟩ := focus_eq_some hf
  exact inv_congr h h1 h2 h3

theorem inv_eng {s : State} (h : s.Inv) : s.eng.Inv s.cfg s.csrBlocks := h.engines _ (eng_mem_engines s)

theorem inv_apart {s : State} (h : s.Inv) : ∀ f ∈ s.peers, s.eng.apart f :=
  ((pairwise_mid apart_symm s.engL s.engR s.eng).mp h.apart).2

/-- Another engine in focus that is right itself and apart from the others. -/
theorem inv_withEng {s : State} {e : Engine} (h : s.Inv) (hp : e.port = s.eng.port)
    (he : e.Inv s.cfg s.csrBlocks) (ha : ∀ f ∈ s.peers, e.apart f) : (s.withEng e).Inv := by
  have hc := withEng_csrBlocks s e hp
  have hap := (pairwise_mid apart_symm s.engL s.engR s.eng).mp h.apart
  refine ⟨h.cfgLegal, h.memWf, h.memIn, ?_, ?_⟩
  · rw [hc]
    intro f hf
    simp only [withEng_engines, List.mem_append, List.mem_cons] at hf
    rcases hf with hf | rfl | hf
    · exact h.engines f (by simp [State.engines, hf])
    · exact he
    · exact h.engines f (by simp [State.engines, hf])
  · exact (pairwise_mid apart_symm s.engL s.engR e).mpr ⟨hap.1, ha⟩

theorem inv_withMem {s : State} {m : List Host.Cell} (h : s.Inv) (hw : Memory.wf m = true)
    (hi : ∀ c ∈ m, c.1 < 2 ^ s.cfg.addrW) : (s.withMem m).Inv :=
  ⟨h.cfgLegal, hw, hi, h.engines, h.apart⟩

theorem inv_withDp {s : State} (h : s.Inv) (d : Datapath) : (s.withDp d).Inv := by
  have he := inv_eng h
  exact inv_withEng h rfl ⟨he.portLegal, he.fits, he.gBound, he.busy⟩ (inv_apart h)

/-- With every byte within reach, the sixteen bytes of the group lie in the address space. -/
theorem storeFault_bound {s : State} (h : s.storeFault = none) (x : Nat)
    (h1 : s.eng.num .outBase + 16 * s.curGroup ≤ x) (h2 : x < s.eng.num .outBase + 16 * s.curGroup + 16) :
    x < 2 ^ s.cfg.addrW := by
  rw [State.storeFault, List.find?_eq_none] at h
  have := h x (mem_groupWrites.mpr ⟨h1, h2⟩)
  simp [State.mayWrite, ordinary] at this
  exact this.1.1.1

theorem inv_store {s : State} (h : s.Inv) (hs : s.storeFault = none) (p : Lanes (BitVec 32)) :
    (s.withMem (storeGroup s.mem (s.eng.num .outBase) s.curGroup p)).Inv := by
  refine inv_withMem h (storeGroup_wf _ _ _ _ h.memWf) ?_
  intro c hc
  rcases mem_storeGroup hc with hc | hc
  · exact storeFault_bound hs _ hc.1 hc.2
  · exact h.memIn c hc

theorem fits_set {c : Config} {e : Engine} (h : e.fits c = true) (o : OpReg) (x : OperandReg)
    (hx : fitsField (fieldWidth c o) x.value = true) : (e.set o x).fits c = true := by
  simp only [Engine.fits, List.all_eq_true] at h ⊢
  intro o' ho'
  by_cases ho : o' = o
  · subst ho; simpa using hx
  · rw [get_set_other _ _ _ _ ho]; exact h o' ho'

theorem num_lt_of_fits {c : Config} {e : Engine} (h : e.fits c = true) (o : OpReg) :
    e.num o < 2 ^ fieldWidth c o := by
  simp only [Engine.fits, List.all_eq_true] at h
  have := h o (by cases o <;> simp)
  simpa [fitsField, Engine.num] using this

/-- The group counter cannot wrap (10_state.md rule R31). -/
theorem gTotal_lt {c : Config} {e : Engine} (h : e.fits c = true) : e.gTotal < 2 ^ (2 * c.dimW + 4) := by
  have h1 := num_lt_of_fits h .blockCols
  have h2 := num_lt_of_fits h .blockRows
  simp only [fieldWidth] at h1 h2
  have : e.num .blockCols * e.num .blockRows < 2 ^ c.dimW * 2 ^ c.dimW := Nat.mul_lt_mul'' h1 h2
  simp only [Engine.gTotal, pow_add, two_mul]
  nlinarith

theorem gTotal_pos {e : Engine} (h1 : e.num .blockCols ≠ 0) (h2 : e.num .blockRows ≠ 0) : 0 < e.gTotal := by
  simp only [Engine.gTotal]
  positivity

/-- An engine that has advanced by one group over any memory the invariant allows. -/
theorem inv_advance {s : State} {m : List Host.Cell} {e : Engine} (h : s.Inv) (hb : s.eng.run = .busy)
    (h2 : (s.withMem m).Inv) (hget : ∀ o, e.get o = s.eng.get o) (hport : e.port = s.eng.port)
    (hg : e.g = s.eng.g + 1) (hrun : e.run = if s.eng.g + 1 = s.eng.gTotal then .done else s.eng.run)
    (hconv : e.converted =
      if s.cfg.groupOrder = GroupOrder.any then s.curGroup :: s.eng.converted else s.eng.converted) :
    ((s.withMem m).withEng e).Inv := by
  have he := inv_eng h
  have hpos := (he.busy hb).2
  have hlt := position_lt hpos
  refine inv_withEng h2 hport ⟨?_, ?_, ?_, ?_⟩ ?_
  · rw [hport]; exact he.portLegal
  · rw [withMem_cfg, fits_congr hget]; exact he.fits
  · rw [withMem_cfg, hg]; exact lt_of_le_of_lt (Nat.succ_le_of_lt hlt) (gTotal_lt he.fits)
  · simp only [withMem_cfg, withMem_csrBlocks]
    intro hr
    rw [launchable_congr hget hport]
    refine ⟨(he.busy hb).1, ?_⟩
    have hne : s.eng.g + 1 ≠ s.eng.gTotal := by
      intro hc; simp [hrun, hc] at hr
    simp only [Engine.position, Bool.and_eq_true, decide_eq_true_eq, gTotal_congr hget, hg]
    refine ⟨by omega, ?_⟩
    cases ho : s.cfg.groupOrder with
    | ascending => rfl
    | any =>
      obtain ⟨p1, p2, p3⟩ := position_any hpos ho
      have hcg := (mem_remaining _ _).mp (curGroup_any ho hpos)
      simp only [ho, if_true] at hconv
      simp only [hconv, Bool.and_eq_true, decide_eq_true_eq, List.all_eq_true, List.nodup_cons, List.length_cons,
        List.mem_cons]
      refine ⟨⟨⟨hcg.2, p1⟩, by omega⟩, ?_⟩
      rintro x (rfl | hx)
      · exact hcg.1
      · exact p3 x hx
  · intro f hf hr hfb
    have h1 := (inv_apart h f hf hb hfb).1
    rw [← conflicts_congr hget] at h1
    exact ⟨h1, by rw [conflicts_symm _ _ hfb hr]; exact h1⟩

/-! What the stages taken by name can do. -/

theorem execLdw_next {s t : State} (h : execLdw s = .next t) :
    (s.eng.run ≠ .busy ∧ t = s) ∨ (s.eng.run = .busy ∧ s.loadFault = none ∧ t = s.loadStage) := by
  rcases whenBusy_next h with ⟨hb, h⟩ | h
  · right
    split at h
    · cases h
    · cases h
      exact ⟨hb, ‹_›, rfl⟩
  · exact .inl h

theorem execStore_next {s t : State} (h : execStore s = .next t) :
    (s.eng.run ≠ .busy ∧ t = s) ∨ (s.eng.run = .busy ∧ s.storeFault = none ∧ t = s.storeStage) := by
  rcases whenBusy_next h with ⟨hb, h⟩ | h
  · right
    split at h
    · cases h
    · cases h
      exact ⟨hb, ‹_›, rfl⟩
  · exact .inl h

/-- CENTER to PACK replace the datapath of the engine in focus or, when it is not BUSY, do nothing. -/
theorem exec_middle_stage_next {i : Instr} {s t : State}
    (hi : i ∈ [Instr.center, .matr, .matg, .matb, .cvt, .sat16, .sat8, .pack]) (h : exec i s = .next t) :
    t = s ∨ ∃ d, t = s.withDp d := by
  have key : ∀ f : State → Datapath, (whenBusy s fun s => .next (s.withDp (f s))) = .next t →
      t = s ∨ ∃ d, t = s.withDp d := by
    intro f h
    rcases whenBusy_next h with ⟨_, h⟩ | ⟨_, rfl⟩
    · cases h; exact .inr ⟨_, rfl⟩
    · exact .inl rfl
  simp only [List.mem_cons, List.not_mem_nil, or_false] at hi
  rcases hi with rfl | rfl | rfl | rfl | rfl | rfl | rfl | rfl
  · exact key _ (by simpa only [exec, execCenter] using h)
  · exact key _ (by simpa only [exec, execMatr] using h)
  · exact key _ (by simpa only [exec, execMatg] using h)
  · exact key _ (by simpa only [exec, execMatb] using h)
  · exact key _ (by simpa only [exec, execCvt] using h)
  · exact key _ (by simpa only [exec, execSat16] using h)
  · exact key _ (by simpa only [exec, execSat8] using h)
  · exact key _ (by simpa only [exec, execPack] using h)

end Sys2Proof.Machine
end

