-- ==== Sys2Proof/Laws/Exec.lean ====
section
/-! SUPPORT. What any operation can do, whichever it is: what it leaves alone around its engine, and what it can do to an
engine that is BUSY. -/

namespace Sys2Proof.Machine

/-- An operation changes its own engine, memory and `rdata`, and nothing else; its engine keeps its port. -/
theorem exec_next_around {i : Instr} {s t : State} (h : exec i s = .next t) :
    t.cfg = s.cfg ∧ t.engL = s.engL ∧ t.engR = s.engR ∧ t.refusal = s.refusal ∧ t.mdata = s.mdata ∧
      t.inbox = s.inbox ∧ t.eng.port = s.eng.port := by
  have same : t = s → t.cfg = s.cfg ∧ t.engL = s.engL ∧ t.engR = s.engR ∧ t.refusal = s.refusal ∧
      t.mdata = s.mdata ∧ t.inbox = s.inbox ∧ t.eng.port = s.eng.port := by
    rintro rfl
    exact ⟨rfl, rfl, rfl, rfl, rfl, rfl, rfl⟩
  have start : launch s = .next t → t.cfg = s.cfg ∧ t.engL = s.engL ∧ t.engR = s.engR ∧ t.refusal = s.refusal ∧
      t.mdata = s.mdata ∧ t.inbox = s.inbox ∧ t.eng.port = s.eng.port := by
    intro h
    obtain ⟨_, rfl⟩ := launch_next h
    exact ⟨rfl, rfl, rfl, rfl, rfl, rfl, rfl⟩
  have stage : (t = s ∨ ∃ d, t = s.withDp d) → t.cfg = s.cfg ∧ t.engL = s.engL ∧ t.engR = s.engR ∧
      t.refusal = s.refusal ∧ t.mdata = s.mdata ∧ t.inbox = s.inbox ∧ t.eng.port = s.eng.port := by
    rintro (h | ⟨d, rfl⟩)
    · exact same h
    · exact ⟨rfl, rfl, rfl, rfl, rfl, rfl, rfl⟩
  cases i with
  | wrreg r w =>
    cases r with
    | op o =>
      obtain ⟨_, _, rfl⟩ := execWrreg_op_next h
      exact ⟨rfl, rfl, rfl, rfl, rfl, rfl, set_port _ _ _⟩
    | ctrl =>
      simp only [exec, execWrreg] at h
      split at h
      · exact start h
      · split at h
        · cases h; exact same rfl
        · cases h
    | status => cases h
  | rdreg r =>
    obtain ⟨w, rfl⟩ := execRdreg_next h
    exact ⟨rfl, rfl, rfl, rfl, rfl, rfl, rfl⟩
  | convert => exact start h
  | ctrlnop => cases h; exact same rfl
  | group =>
    rcases execGroup_next h with ⟨_, h⟩ | ⟨_, _, _, rfl⟩
    · exact same h
    · obtain ⟨h1, h2, h3, h4, _, h6, h7⟩ := convertGroup_rest s
      exact ⟨h1, h2, h3, h4, h6, h7, convertGroup_port s⟩
  | ldw =>
    rcases execLdw_next h with ⟨_, h⟩ | ⟨_, _, rfl⟩
    · exact same h
    · exact ⟨rfl, rfl, rfl, rfl, rfl, rfl, rfl⟩
  | center => exact stage (exec_middle_stage_next (by simp) h)
  | matr => exact stage (exec_middle_stage_next (by simp) h)
  | matg => exact stage (exec_middle_stage_next (by simp) h)
  | matb => exact stage (exec_middle_stage_next (by simp) h)
  | cvt => exact stage (exec_middle_stage_next (by simp) h)
  | sat16 => exact stage (exec_middle_stage_next (by simp) h)
  | sat8 => exact stage (exec_middle_stage_next (by simp) h)
  | pack => exact stage (exec_middle_stage_next (by simp) h)
  | store =>
    rcases execStore_next h with ⟨_, h⟩ | ⟨_, _, rfl⟩
    · exact same h
    · exact ⟨rfl, rfl, rfl, rfl, rfl, rfl, rfl⟩

/-- What an operation can do to the sequencer of a BUSY engine: nothing, or the group step. -/
theorem exec_next_busy {i : Instr} {s t : State} (h : exec i s = .next t) (hb : s.eng.run = .busy) :
    t = s.convertGroup ∨ ((∀ o, t.eng.get o = s.eng.get o) ∧ t.eng.run = s.eng.run ∧ t.eng.g = s.eng.g) := by
  have launchNot : launch s ≠ .next t := by
    intro h
    exact ((launchCheck_none s).mp (launch_next h).1).1 hb
  have stage : (t = s ∨ ∃ d, t = s.withDp d) → t = s.convertGroup ∨
      ((∀ o, t.eng.get o = s.eng.get o) ∧ t.eng.run = s.eng.run ∧ t.eng.g = s.eng.g) := by
    rintro (rfl | ⟨d, rfl⟩)
    · exact .inr ⟨fun _ => rfl, rfl, rfl⟩
    · exact .inr ⟨fun o => by cases o <;> rfl, rfl, rfl⟩
  cases i with
  | wrreg r w =>
    cases r with
    | op o => exact absurd hb (execWrreg_op_next h).1
    | ctrl =>
      simp only [exec, execWrreg] at h
      split at h
      · exact absurd h launchNot
      · split at h
        · cases h; exact stage (.inl rfl)
        · cases h
    | status => cases h
  | rdreg r =>
    obtain ⟨w, rfl⟩ := execRdreg_next h
    exact .inr ⟨fun _ => rfl, rfl, rfl⟩
  | convert => exact absurd h launchNot
  | ctrlnop => cases h; exact stage (.inl rfl)
  | group =>
    rcases execGroup_next h with ⟨hn, _⟩ | ⟨_, _, _, h⟩
    · exact absurd hb hn
    · exact .inl h
  | ldw =>
    rcases execLdw_next h with ⟨hn, _⟩ | ⟨_, _, rfl⟩
    · exact absurd hb hn
    · exact stage (.inr ⟨_, rfl⟩)
  | center => exact stage (exec_middle_stage_next (by simp) h)
  | matr => exact stage (exec_middle_stage_next (by simp) h)
  | matg => exact stage (exec_middle_stage_next (by simp) h)
  | matb => exact stage (exec_middle_stage_next (by simp) h)
  | cvt => exact stage (exec_middle_stage_next (by simp) h)
  | sat16 => exact stage (exec_middle_stage_next (by simp) h)
  | sat8 => exact stage (exec_middle_stage_next (by simp) h)
  | pack => exact stage (exec_middle_stage_next (by simp) h)
  | store =>
    rcases execStore_next h with ⟨hn, _⟩ | ⟨_, _, rfl⟩
    · exact absurd hb hn
    · exact .inr ⟨fun _ => rfl, rfl, rfl⟩

end Sys2Proof.Machine
end

