-- ==== Sys2Proof/Laws/Float.lean ====
section
/-! SUPPORT. What each rounding operation gives: a nearest multiple of the unit, and which one at a tie. -/

namespace Sys2Proof.Machine

/-- `rneDiv p q` is an integer nearest `p / q`, and even at a tie (00_scope.md rule R9). -/
theorem rneDiv_nearest (p q : Nat) (hq : 0 < q) :
    2 * (rneDiv p q * q) ≤ 2 * p + q ∧ 2 * p ≤ 2 * (rneDiv p q * q) + q ∧
      (2 * p = 2 * (rneDiv p q * q) + q ∨ 2 * (rneDiv p q * q) = 2 * p + q → rneDiv p q % 2 = 0) := by
  have h := Nat.div_add_mod p q
  have hm := Nat.mod_lt p hq
  unfold rneDiv
  generalize p / q = f at *
  generalize p % q = r at *
  rw [Nat.mul_comm] at h
  split
  · refine ⟨by omega, by omega, ?_⟩
    intro hh; omega
  · split
    · rw [Nat.add_mul, Nat.one_mul]
      refine ⟨by omega, by omega, ?_⟩
      intro hh; omega
    · rcases Nat.mod_two_eq_zero_or_one f with h2 | h2
      · rw [h2, Nat.add_zero]
        exact ⟨by omega, by omega, fun _ => h2⟩
      · rw [h2, Nat.add_mul, Nat.one_mul]
        exact ⟨by omega, by omega, fun _ => by omega⟩

/-- `awayDiv p q` is an integer nearest `p / q`, and the greater one at a tie (00_scope.md rule R11). -/
theorem awayDiv_nearest (p q : Nat) (hq : 0 < q) :
    2 * (awayDiv p q * q) ≤ 2 * p + q ∧ 2 * p ≤ 2 * (awayDiv p q * q) + q ∧
      (2 * p = 2 * (awayDiv p q * q) + q ∨ 2 * (awayDiv p q * q) = 2 * p + q → p < awayDiv p q * q) := by
  have h := Nat.div_add_mod p q
  have hm := Nat.mod_lt p hq
  unfold awayDiv
  generalize p / q = f at *
  generalize p % q = r at *
  rw [Nat.mul_comm] at h
  split
  · refine ⟨by omega, by omega, ?_⟩
    intro hh; omega
  · rw [Nat.add_mul, Nat.one_mul]
    refine ⟨by omega, by omega, ?_⟩
    intro hh; omega

/-- The magnitude `roundMag` gives is nearest, and at a tie even or the greater by the tie rule. -/
theorem roundMag_nearest (t : CvtTies) (a : Nat) :
    2 * (roundMag t a * F32.one) ≤ 2 * a + F32.one ∧ 2 * a ≤ 2 * (roundMag t a * F32.one) + F32.one ∧
      (2 * a = 2 * (roundMag t a * F32.one) + F32.one ∨ 2 * (roundMag t a * F32.one) = 2 * a + F32.one →
        (t = .even → roundMag t a % 2 = 0) ∧ (t = .away → a < roundMag t a * F32.one)) := by
  have hone : 0 < F32.one := Nat.two_pow_pos _
  cases t with
  | even =>
    have h := rneDiv_nearest a F32.one hone
    exact ⟨h.1, h.2.1, fun hh => ⟨fun _ => h.2.2 hh, fun ht => nomatch ht⟩⟩
  | away =>
    have h := awayDiv_nearest a F32.one hone
    exact ⟨h.1, h.2.1, fun hh => ⟨fun ht => (nomatch ht), fun _ => h.2.2 hh⟩⟩

/-- The unit in the last place at `a / d` lies 23 binary places below the magnitude (00_scope.md rule R9). -/
theorem ulpShift_spec {a d : Nat} (hd : 0 < d) (h : d ≤ a * 2 ^ 126) :
    2 ^ (ulpShift a d + 23) * d ≤ a * F32.one ∧ a * F32.one < 2 ^ (ulpShift a d + 24) * d := by
  have hQ : 2 ^ 23 ≤ a * F32.one / d := by
    rw [Nat.le_div_iff_mul_le hd]
    calc 2 ^ 23 * d ≤ 2 ^ 23 * (a * 2 ^ 126) := Nat.mul_le_mul_left _ h
      _ = a * (2 ^ 23 * 2 ^ 126) := by ring
      _ = a * F32.one := by rw [← pow_add]; rfl
  have hQ0 : a * F32.one / d ≠ 0 := by
    have : 0 < 2 ^ 23 := Nat.two_pow_pos 23
    omega
  have hlog : 23 ≤ Nat.log2 (a * F32.one / d) := by rw [Nat.le_log2 hQ0]; exact hQ
  have hs : ulpShift a d + 23 = Nat.log2 (a * F32.one / d) := by rw [ulpShift]; omega
  constructor
  · rw [hs, ← Nat.le_div_iff_mul_le hd]
    exact Nat.log2_self_le hQ0
  · rw [show ulpShift a d + 24 = Nat.log2 (a * F32.one / d) + 1 by omega, ← Nat.div_lt_iff_lt_mul hd]
    exact Nat.lt_log2_self

/-- Below 512 the rounding of a multiple of `2^-25` is a multiple of `2^-25`, within `2^-16` (41_csc_matrix.md rule R66). -/
theorem rndMag_one {a : Nat} (h0 : a ≠ 0) (h : 2 ^ 124 ∣ a) (hb : a < 2 ^ 158) :
    2 ^ 124 ∣ rndMag a F32.one ∧ rndMag a F32.one ≤ a + 2 ^ 133 ∧ a ≤ rndMag a F32.one + 2 ^ 133 := by
  have hone : 0 < F32.one := Nat.two_pow_pos _
  have hs : ulpShift a F32.one = Nat.log2 a - 23 := by rw [ulpShift, Nat.mul_div_cancel _ hone]
  have hlog : Nat.log2 a < 158 := (Nat.log2_lt h0).mpr hb
  have hq : 0 < F32.one * 2 ^ ulpShift a F32.one := Nat.mul_pos hone (Nat.two_pow_pos _)
  obtain ⟨h1, h2, _⟩ := rneDiv_nearest (a * F32.one) (F32.one * 2 ^ ulpShift a F32.one) hq
  unfold rndMag
  generalize hsd : ulpShift a F32.one = s at *
  generalize hn : rneDiv (a * F32.one) (F32.one * 2 ^ s) = n at *
  have e1 : 2 * (n * 2 ^ s) ≤ 2 * a + 2 ^ s := by
    refine Nat.le_of_mul_le_mul_left (c := F32.one) ?_ hone
    calc F32.one * (2 * (n * 2 ^ s)) = 2 * (n * (F32.one * 2 ^ s)) := by ring
      _ ≤ _ := h1
      _ = _ := by ring
  have e2 : 2 * a ≤ 2 * (n * 2 ^ s) + 2 ^ s := by
    refine Nat.le_of_mul_le_mul_left (c := F32.one) ?_ hone
    calc F32.one * (2 * a) = 2 * (a * F32.one) := by ring
      _ ≤ _ := h2
      _ = _ := by ring
  have hp : 2 ^ s ≤ 2 ^ 134 := Nat.pow_le_pow_right (by omega) (by omega)
  refine ⟨?_, by omega, by omega⟩
  rcases Nat.le_total 124 s with h3 | h3
  · exact Dvd.dvd.mul_left (pow_dvd_pow 2 h3) n
  · obtain ⟨k, hk⟩ := (pow_dvd_pow 2 h3).trans h
    have hpos : 0 < 2 ^ s := Nat.two_pow_pos s
    have : n = k := by
      rw [hk] at e1 e2
      generalize 2 ^ s = q at *
      rcases Nat.lt_trichotomy n k with h | h | h
      · have : (n + 1) * q ≤ q * k := by
          rw [Nat.mul_comm q k]
          exact Nat.mul_le_mul_right q h
        rw [Nat.add_mul] at this
        omega
      · exact h
      · have : (k + 1) * q ≤ n * q := Nat.mul_le_mul_right q h
        rw [Nat.add_mul, Nat.mul_comm k q] at this
        omega
    rw [this, Nat.mul_comm, ← hk]
    exact h

/-- From `2^-25` to below 512 a magnitude is in the domain of `rnd32`. -/
theorem rndDomain_one {a : Nat} (h : 2 ^ 124 ≤ a) (hb : a < 2 ^ 158) : rndDomain a F32.one = true := by
  have h1 : F32.one ≤ a * 2 ^ 126 := by
    rw [F32.one]
    omega
  have h2 : a < 2 ^ 128 * F32.one := by
    rw [F32.one]
    omega
  simp only [rndDomain, h1, h2, decide_true, Bool.and_self]

/-- What `rnd32` makes of a sum or difference of multiples of `2^-25` below 512 (41_csc_matrix.md rule R66). -/
theorem rnd32_one {u : Int} (h : 2 ^ 124 ∣ u.natAbs) (hb : u.natAbs < 2 ^ 158) :
    2 ^ 124 ∣ (rnd32 u F32.one).units.natAbs ∧ (rnd32 u F32.one).units.natAbs ≤ u.natAbs + 2 ^ 133 := by
  by_cases h0 : u = 0
  · subst h0
    rw [rnd32, if_pos rfl]
    exact ⟨Nat.dvd_zero _, Nat.zero_le _⟩
  · have h0' : u.natAbs ≠ 0 := Int.natAbs_ne_zero.mpr h0
    obtain ⟨g1, g2, g3⟩ := rndMag_one h0' h hb
    have hv : (rnd32 u F32.one).units.natAbs = rndMag u.natAbs F32.one := by
      rw [rnd32, if_neg h0, if_pos (rndDomain_one (Nat.le_of_dvd (Nat.pos_of_ne_zero h0') h) hb)]
      rw [Int.natAbs_mul, Int.natAbs_sign_of_ne_zero h0, Nat.one_mul, Int.natAbs_natCast]
    rw [hv]
    exact ⟨g1, g2⟩

end Sys2Proof.Machine
end

