-- ==== Sys2Proof/Laws/PerInstr.lean ====
section
/-! SUPPORT. Statements made of every operation, one lemma per constructor: the shape of its code. -/

/-- What 30_encoding.md rules R142 to R144 and R150 say of the code of one operation: a register access is a whole slot, its
offset names its register, only the two `CTRL` operations and WRREG write, and a stage has a name up to `1010`. -/
def Sys2Proof.Laws.CodeShape.Statement (i : Sys2Proof.Instr) : Prop :=
  match Sys2Proof.encode i with
  | .write offset size wdata => size = 8 ∧ offset.toNat % 8 = 0 ∧
      ((∃ r, i = .wrreg r wdata ∧ offset.toNat = 8 * r.num.toNat) ∨
        (i = .convert ∧ offset = 0x30#6 ∧ wdata = 1) ∨ (i = .ctrlnop ∧ offset = 0x30#6 ∧ wdata = 0))
  | .read offset size => size = 8 ∧ offset.toNat % 8 = 0 ∧ ∃ r, i = .rdreg r ∧ offset.toNat = 8 * r.num.toNat
  | .stage name => name.toNat ≤ 10

namespace Sys2Proof.Laws

/-- A slot's offset is eight times its register's number (30_encoding.md rule R141). -/
theorem slotOffset_toNat (r : Sys2Proof.Reg) : (Sys2Proof.slotOffset r).toNat = 8 * r.num.toNat := by
  cases r with
  | op o => cases o <;> decide
  | ctrl => decide
  | status => decide

/-- A stage's code has the shape when its name is at most `1010`. -/
theorem stage_shape {i : Sys2Proof.Instr} {n : BitVec 4} (h : Sys2Proof.encode i = .stage n) (hn : n.toNat ≤ 10) :
    CodeShape.Statement i := by
  unfold CodeShape.Statement
  rw [h]
  exact hn

theorem CodeShape.wrreg (r : Sys2Proof.Reg) (wdata : Sys2Proof.Word64) : CodeShape.Statement (.wrreg r wdata) :=
  ⟨rfl, by rw [slotOffset_toNat]; omega, .inl ⟨r, rfl, slotOffset_toNat r⟩⟩

theorem CodeShape.rdreg (r : Sys2Proof.Reg) : CodeShape.Statement (.rdreg r) :=
  ⟨rfl, by rw [slotOffset_toNat]; omega, r, rfl, slotOffset_toNat r⟩

theorem CodeShape.convert : CodeShape.Statement .convert :=
  ⟨rfl, by decide, .inr (.inl ⟨rfl, by decide, rfl⟩)⟩

theorem CodeShape.ctrlnop : CodeShape.Statement .ctrlnop :=
  ⟨rfl, by decide, .inr (.inr ⟨rfl, by decide, rfl⟩)⟩

theorem CodeShape.group : CodeShape.Statement .group := stage_shape rfl (by decide)

theorem CodeShape.ldw : CodeShape.Statement .ldw := stage_shape rfl (by decide)

theorem CodeShape.center : CodeShape.Statement .center := stage_shape rfl (by decide)

theorem CodeShape.matr : CodeShape.Statement .matr := stage_shape rfl (by decide)

theorem CodeShape.matg : CodeShape.Statement .matg := stage_shape rfl (by decide)

theorem CodeShape.matb : CodeShape.Statement .matb := stage_shape rfl (by decide)

theorem CodeShape.cvt : CodeShape.Statement .cvt := stage_shape rfl (by decide)

theorem CodeShape.sat16 : CodeShape.Statement .sat16 := stage_shape rfl (by decide)

theorem CodeShape.sat8 : CodeShape.Statement .sat8 := stage_shape rfl (by decide)

theorem CodeShape.pack : CodeShape.Statement .pack := stage_shape rfl (by decide)

theorem CodeShape.store : CodeShape.Statement .store := stage_shape rfl (by decide)

end Sys2Proof.Laws
end

