-- ==== Sys2Proof/Laws/Runs.lean ====
section
/-! SUPPORT. Runs of several steps, one step at a time. -/

namespace Sys2Proof.Machine

theorem run_of_step {n : Nat} {s t : State} (h : step s = .next t) :
    Host.Core.run Sys2Proof.core (n + 1) s = Host.Core.run Sys2Proof.core n t := by
  have h' : Host.Core.step Sys2Proof.core s = .next t := h
  simp only [Host.Core.run, h']

/-- A run that goes on has a first step. -/
theorem run_succ_next {n : Nat} {s t : State} (h : Host.Core.run Sys2Proof.core (n + 1) s = .next t) :
    ∃ u, step s = .next u ∧ Host.Core.run Sys2Proof.core n u = .next t := by
  cases hs : step s with
  | next u => exact ⟨u, rfl, by rw [← run_of_step hs]; exact h⟩
  | fault r =>
    have h' : Host.Core.step Sys2Proof.core s = .fault r := hs
    simp only [Host.Core.run, h'] at h
    cases h
  | refused r =>
    have h' : Host.Core.step Sys2Proof.core s = .refused r := hs
    simp only [Host.Core.run, h'] at h
    cases h

/-- One more step at the end of a run. -/
theorem run_snoc {n : Nat} {s t u : State} (h : Host.Core.run Sys2Proof.core n s = .next t) (hu : step t = .next u) :
    Host.Core.run Sys2Proof.core (n + 1) s = .next u := by
  induction n generalizing s with
  | zero =>
    have h' : (Host.Outcome.next s : Out) = .next t := h
    injection h' with h'
    subst h'
    exact run_of_step hu
  | succ n ih =>
    obtain ⟨v, hv, hr⟩ := run_succ_next h
    rw [run_of_step hv]
    exact ih hr

/-- Two runs one after the other. -/
theorem run_add {m n : Nat} {s t u : State} (h : Host.Core.run Sys2Proof.core m s = .next t)
    (hu : Host.Core.run Sys2Proof.core n t = .next u) : Host.Core.run Sys2Proof.core (n + m) s = .next u := by
  induction m generalizing s with
  | zero =>
    have h' : (Host.Outcome.next s : Out) = .next t := h
    injection h' with h'
    subst h'
    exact hu
  | succ m ih =>
    obtain ⟨v, hv, hr⟩ := run_succ_next h
    rw [← Nat.add_assoc, run_of_step hv]
    exact ih hr

/-- With nothing pending and the mark clear, a single BUSY engine takes its group step. -/
theorem step_of_busy {s : State} (h1 : s.refusal = none) (h2 : s.inbox = []) (h3 : s.engL = [])
    (h4 : s.eng.run = .busy) : step s = execGroup s := by
  have hf : s.focus 0 = some s := by simpa [State.here, h3] using focus_here s
  have hb : firstBusy s.engines 0 = some 0 := by simp [State.engines, h3, firstBusy, h4]
  simp only [step, h1, h2, engineTurn, hb, onEngine, hf, exec]

/-- What one turn makes of an engine: nothing unless it is BUSY, and then one group more (40_convert_command.md rules R113
and R114). -/
def Turned (e f : Engine) : Prop :=
  (e.run ≠ .busy → f = e) ∧
  (e.run = .busy → f.g = e.g + 1 ∧ (∀ o, f.get o = e.get o) ∧
    (e.g + 1 = e.gTotal → f.run = .done) ∧ (e.g + 1 ≠ e.gTotal → f.run = .busy))

/-- The turn of one engine, as the oldest pending action: it never fails, keeps the invariant and touches no other
engine. -/
theorem step_turn {s : State} {j : Nat} {rest : List Event} (hi : s.Inv) (hr : s.refusal = none)
    (hx : s.inbox = .code j (.stage 0) :: rest) (hj : j < s.engines.length) :
    ∃ t, step s = .next t ∧ t.Inv ∧ t.refusal = none ∧ t.inbox = rest ∧ t.engines.length = s.engines.length ∧
      (∀ i, i ≠ j → t.engines[i]? = s.engines[i]?) ∧
      ∀ e, s.engines[j]? = some e → ∃ f, t.engines[j]? = some f ∧ Turned e f := by
  have hw : (s.withInbox rest).Inv := inv_congr hi rfl rfl rfl
  cases hf : (s.withInbox rest).focus j with
  | none => exact absurd ((focus_eq_none _ _).mp hf) (by simpa using hj)
  | some u =>
    obtain ⟨h1, h2, h3, h4, h5, h6, h7, h8, h9⟩ := focus_eq_some hf
    have hstep : step s = execGroup u := by
      simp only [step, hr, hx, serve, onEngine, hf]
      rfl
    have hu := inv_focus hw hf
    rw [withInbox_engines] at h1 h2
    by_cases hb : u.eng.run = .busy
    · obtain ⟨hl, hp⟩ := (inv_eng hu).busy hb
      have hg := curGroup_lt hp
      have sf := storeFault_none hl hg
      obtain ⟨r1, r2, r3, r4, r5, r6, r7⟩ := convertGroup_rest u
      have hE : u.convertGroup.engines = (u.withEng u.convertGroup.eng).engines := by
        rw [withEng_engines, State.engines, r2, r3]
      refine ⟨u.convertGroup, ?_, ?_, by rw [r4, h6]; exact hr, by rw [r7, h9]; rfl, ?_, ?_, ?_⟩
      · rw [hstep, execGroup, whenBusy_of_busy hb, loadFault_none hl hg, sf]
      · rw [convertGroup_eq_withEng]
        exact inv_advance hu hb (inv_store hu sf u.groupPixels) (convertGroup_get u) (convertGroup_port u)
          (convertGroup_g u) (convertGroup_run u) (convertGroup_converted u)
      · rw [hE, ← h2, withEng_engines, State.engines]
        simp
      · intro i hij
        rw [hE, withEng_getElem?, if_neg (by omega), h2]
      · intro e he
        rw [h1] at he
        cases he
        refine ⟨u.convertGroup.eng, by rw [hE, withEng_getElem?, if_pos h3.symm], fun h => absurd hb h, fun _ =>
          ⟨convertGroup_g u, convertGroup_get u, fun h => ?_, fun h => ?_⟩⟩
        · rw [convertGroup_run, if_pos h]
        · rw [convertGroup_run, if_neg h, hb]
    · refine ⟨u, ?_, hu, by rw [h6]; exact hr, by rw [h9]; rfl, by rw [h2], fun i _ => by rw [h2], ?_⟩
      · rw [hstep, execGroup, whenBusy_of_not_busy hb]
      · intro e he
        rw [h1] at he
        cases he
        exact ⟨u.eng, by rw [h2, h1], fun _ => rfl, fun h => absurd h hb⟩

end Sys2Proof.Machine
end

