-- ==== Sys2Proof/Tests/Slice0.lean ====
section
/-! SUPPORT. Small tests, each expected result taken from the spec (the section is named), and for every statement with
hypotheses a concrete state and operands that meet them. -/

namespace Sys2Proof.Tests

open Sys2Proof Sys2Proof.Machine Sys2Proof.Claims

set_option Elab.async false

/-! Helpers. -/

/-- An engine whose six operand registers are written. -/
def cmd (l cb cr out bc br : Nat) : Engine :=
  { Engine.fresh .standard with
    lumaBase := ⟨BitVec.ofNat 64 l, true⟩, cbBase := ⟨BitVec.ofNat 64 cb, true⟩, crBase := ⟨BitVec.ofNat 64 cr, true⟩
    outBase := ⟨BitVec.ofNat 64 out, true⟩, blockCols := ⟨BitVec.ofNat 64 bc, true⟩
    blockRows := ⟨BitVec.ofNat 64 br, true⟩ }

/-- The one engine holds `e`, everything else as after reset. -/
def one (e : Engine) : State := { State.reset with eng := e }

/-- The 1 by 1 command of the examples: planes at 0x1000, 0x1040, 0x1080, pixels at 0x2000. -/
def small : Engine := cmd 0x1000 0x1040 0x1080 0x2000 1 1

def busy (e : Engine) : Engine := { e with run := .busy }

def done (e : Engine) : Engine := { e with run := .done }

/-- A datapath that holds one value of each kind in every lane. -/
def dpOf (y cb cr : Byte) : Datapath :=
  Datapath.empty.load (.fill y) (.fill cb) (.fill cr)

/-- Twelve bytes of group 0 of the planes of `small`: the source's scenario S1. -/
def scenarioMem : List Host.Cell :=
  [(0x1000, 200), (0x1001, 200), (0x1002, 200), (0x1003, 200), (0x1040, 128), (0x1041, 128), (0x1042, 128),
    (0x1043, 128), (0x1080, 198), (0x1081, 198), (0x1082, 198), (0x1083, 198)]

/-- A field of the next state. -/
def after {α : Type} (o : Out) (f : State → α) : Option α := (nextOf o).map f

/-- A binary32 value given as `num / den`. -/
def val (num : Int) (den : Nat) : F32 := ⟨num * 2 ^ 149 / den⟩

/-- Two engines on the same planes with different pixel buffers, both BUSY. -/
def two : State := { one (busy small) with engR := [busy (cmd 0x1000 0x1040 0x1080 0x3000 1 1)] }

/-- The one engine's register block lies at 0x40000000, outside ordinary memory for the engine. -/
def mapped : State := one { small with port := { Port.standard with csrBase := some 0x40000000 } }

/-- The standard parameters with the groups in any order. -/
def anyOrder : State := { one (busy small) with cfg := { Config.standard with groupOrder := .any } }

/-! WellFormed: the one check, and a term for each side of it. -/

theorem test_wellFormed_refuses_wrreg_ctrl : (Instr.wrreg .ctrl 1).wellFormed = false := by decide

theorem test_wellFormed_takes_the_others :
    (Instr.wrreg .status 0).wellFormed = true ∧ (Instr.wrreg (.op .outBase) 5).wellFormed = true ∧
      (Instr.rdreg .ctrl).wellFormed = true ∧ Instr.convert.wellFormed = true := by decide

/-! Decode: words written out bit by bit from 30_encoding.md rules R142 to R144 and R150. -/

theorem test_decode_wrreg_table_word : decodeTableWord 8 0b01000000 = some (.wrreg (.op .lumaBase) 0) := by decide

theorem test_decode_wrreg_block_rows : decodeTableWord 8 0b01101000 = some (.wrreg (.op .blockRows) 0) := by decide

theorem test_decode_wrreg_with_data : decodeTableWord 72 0x000000000000100040 = some (.wrreg (.op .lumaBase) 0x1000) := by
  decide

theorem test_decode_wrreg_access : decode (.write 0x20#6 8 0x2#64) = .ok (.wrreg (.op .blockCols) 2) := by rfl

theorem test_decode_rdreg_status : decodeTableWord 8 0b00111000 = some (.rdreg .status) := by decide

theorem test_decode_rdreg_seven_bits : decodeTableWord 7 0b0000000 = some (.rdreg (.op .lumaBase)) := by decide

theorem test_decode_convert : decodeTableWord 8 0b11100001 = some .convert := by decide

theorem test_decode_ctrlnop : decodeTableWord 8 0b11100000 = some .ctrlnop := by decide

theorem test_decode_group_and_ldw : decodeTableWord 8 0b0000 = some .group ∧ decodeTableWord 8 0b0001 = some .ldw := by
  decide

theorem test_decode_matrix_stages : decodeTableWord 8 0b0010 = some .center ∧ decodeTableWord 8 0b0011 = some .matr ∧
    decodeTableWord 8 0b0100 = some .matg ∧ decodeTableWord 8 0b0101 = some .matb := by decide

theorem test_decode_packer_stages : decodeTableWord 8 0b0110 = some .cvt ∧ decodeTableWord 8 0b0111 = some .sat16 ∧
    decodeTableWord 8 0b1000 = some .sat8 ∧ decodeTableWord 8 0b1001 = some .pack ∧
    decodeTableWord 8 0b1010 = some .store := by decide

theorem test_decode_rejects : decodeTableWord 8 0b1011 = none ∧ decodeTableWord 8 0b01000001 = none ∧
    decode (.write 0x30#6 8 2) = .error .reservedBits ∧ decode (.write 0x20#6 4 0) = .error .partialAccess := by
  refine ⟨by decide, by decide, rfl, rfl⟩

/-! WRREG and RDREG (95_test_vectors.md V2). -/

theorem test_wrreg_luma_base :
    after (exec (.wrreg (.op .lumaBase) 0x1000) .reset) (fun t => (t.eng.lumaBase, t.eng.run.statusWord)) =
      some (⟨0x1000, true⟩, 0) := by decide

theorem test_wrreg_reserved_bits :
    refusalOf (exec (.wrreg (.op .blockCols) 0x10000) .reset) = some .refReservedBits ∧
      refusalOf (exec (.wrreg (.op .lumaBase) 0x100000000) .reset) = some .refReservedBits := by decide

theorem test_rdreg_luma_base : refusalOf (exec (.rdreg (.op .lumaBase)) .reset) = some .refUnwritten ∧
    after (exec (.rdreg (.op .lumaBase)) (one small)) State.rdata = some 0x1000 := by decide

theorem test_rdreg_status_done : after (exec (.rdreg .status) (one (done small))) State.rdata = some 2 := by decide

/-! CONVERT and CTRLNOP (95_test_vectors.md V2). -/

theorem test_convert_accepted : after (exec .convert (one (done (cmd 0x1000 0x1000 0x1000 0x2000 1 1))))
    (fun t => (t.eng.run, t.eng.g, t.eng.run.statusWord)) = some (.busy, 0, 1) := by decide +kernel

theorem test_convert_refusals :
    refusalOf (exec .convert .reset) = some .refUnwritten ∧
    refusalOf (exec .convert (one (cmd 0x1000 0x1040 0x1080 0x2000 1 0))) = some .refDimZero ∧
    refusalOf (exec .convert (one (cmd 0x1000 0x1040 0x1080 0x2002 1 1))) = some .refMisaligned ∧
    refusalOf (exec .convert (one (cmd 0xFFFFFFF0 0x1040 0x1080 0x2000 1 1))) = some .refRegionWrap ∧
    refusalOf (exec .convert (one (cmd 0x1000 0x1040 0x1080 0x2000 65535 65535))) = some .refRegionWrap ∧
    refusalOf (exec .convert (one (cmd 0x1000 0x3000 0x3000 0x1020 1 1))) = some .refAlias := by decide +kernel

theorem test_ctrlnop_while_busy : after (exec .ctrlnop (one (busy small))) (fun t => t.eng.run.statusWord) = some 1 := by
  decide

/-! GROUP (40_convert_command.md rule R113's example, and the last row but one of 95_test_vectors.md V2). -/

theorem test_group_scenario :
    after (exec .group { one (busy small) with mem := scenarioMem })
      (fun t => (memReadBytes t.mem 0x2000 16, t.eng.g, t.eng.run)) =
    some ([0xC8, 0x96, 0xFF, 0, 0xC8, 0x96, 0xFF, 0, 0xC8, 0x96, 0xFF, 0, 0xC8, 0x96, 0xFF, 0], 1, .busy) := by
  decide +kernel

theorem test_group_last : after (exec .group (one { busy small with g := 15 }))
    (fun t => (t.eng.g, t.eng.run, t.eng.run.statusWord)) = some (16, .done, 2) := by decide +kernel

/-! The stages (95_test_vectors.md S1, V4 to V7). -/

theorem test_ldw_scenario : after (exec .ldw { one (busy small) with mem := scenarioMem })
    (fun t => (t.eng.dp.yf.get 3, t.eng.dp.cbf.get 0, t.eng.dp.crb.get 2)) =
      some (val 200 1, val 128 1, 198) := by decide +kernel

theorem test_center : after (exec .center (one { busy small with dp := dpOf 0 0 255 }))
    (fun t => (t.eng.dp.cbc.get 0, t.eng.dp.crc.get 3)) = some (val (-128) 1, val 127 1) := by decide +kernel

theorem test_matr : after (exec .matr (one { busy small with dp := (dpOf 200 128 198).center }))
    (fun t => t.eng.dp.rf.get 1) = some (val 2442363 8192) := by decide +kernel

theorem test_matg : after (exec .matg (one { busy small with dp := (dpOf 19 78 178).center }))
    (fun t => t.eng.dp.gf.get 2) = some (val 131073 262144) := by decide +kernel

theorem test_matb : after (exec .matb (one { busy small with dp := (dpOf 0 255 255).center }))
    (fun t => t.eng.dp.bf.get 0) = some (val 14748483 65536) := by decide +kernel

theorem test_cvt_even : after (exec .cvt (one { busy small with
      dp := { Datapath.empty with rf := ⟨val 1 2, val 3 2, val 5 2, val (-1) 2⟩, gf := .fill (val (-243) 2) } }))
    (fun t => (t.eng.dp.ri, t.eng.dp.gi.get 0)) = some (⟨0, 2, 2, 0⟩, BitVec.ofInt 32 (-122)) := by decide +kernel

theorem test_cvt_away : cvtS32 .away (val 1 2) = 1 ∧ cvtS32 .away (val 5 2) = 3 ∧
    cvtS32 .away (val (-245) 2) = BitVec.ofInt 32 (-123) ∧ cvtS32 .away (val 509 2) = 255 := by decide +kernel

theorem test_sat16 : after (exec .sat16 (one { busy small with
      dp := { Datapath.empty with ri := ⟨BitVec.ofInt 32 (-134), 298, 65536, 0x80000000⟩ } }))
    (fun t => t.eng.dp.rh) = some ⟨0, 298, 65535, 0⟩ := by decide +kernel

theorem test_sat8 : after (exec .sat8 (one { busy small with
      dp := { Datapath.empty with gh := ⟨255, 256, 480, 65535⟩, bh := ⟨0, 1, 150, 254⟩ } }))
    (fun t => (t.eng.dp.g8, t.eng.dp.b8)) = some (⟨255, 255, 255, 255⟩, ⟨0, 1, 150, 254⟩) := by decide +kernel

theorem test_pack : after (exec .pack (one { busy small with
      dp := { Datapath.empty with r8 := ⟨255, 0, 76, 5⟩, g8 := ⟨150, 135, 255, 192⟩, b8 := ⟨200, 0, 28, 0⟩ } }))
    (fun t => t.eng.dp.p) = some ⟨0x00FF96C8, 0x00008700, 0x004CFF1C, 0x0005C000⟩ := by decide +kernel

theorem test_store : after (exec .store (one { busy small with
      g := 3, dp := { Datapath.empty with p := ⟨0x00FF96C8, 0x00008700, 0x004CFF1C, 0x0005C000⟩ } }))
    (fun t => memReadBytes t.mem 0x2030 16) =
      some [0xC8, 0x96, 0xFF, 0, 0, 0x87, 0, 0, 0x1C, 0xFF, 0x4C, 0, 0, 0xC0, 5, 0] := by decide +kernel

/-! The whole step. -/

theorem test_step_takes_the_placed_word :
    after (step (State.reset.withFetchWord 8 0b01111000)) State.inbox = none ∧
      refusalOf (step (State.reset.withFetchWord 8 0b01111000)) = some .refReadOnly := by decide

theorem test_settle_keeps_the_first_reason :
    (runFor 2 { State.reset with inbox := [wr 0 .status 0, rd 0 .ctrl] }).refusal = some .refReadOnly := by decide

theorem test_bus_write_reaches_a_register :
    after (step { mapped with inbox := [.busWrite 0x40000020 [2, 0, 0, 0, 0, 0, 0, 0]] })
      (fun t => t.eng.blockCols) = some ⟨2, true⟩ := by decide +kernel

theorem test_host_touch :
    refusalOf (step { one (busy small) with inbox := [.busWrite 0x103F [1]] }) = some .refHostTouch ∧
      refusalOf (step { one (busy small) with inbox := [.busRead 0x20FF 1] }) = some .refHostTouch ∧
      after (step { one (busy small) with inbox := [.busRead 0x103F 1] }) State.mdata = some [0] := by decide +kernel

/-! ## Witnesses: a state and operands that meet the hypotheses of each statement that has any

A statement that is an `∀` over every state, or a closed fact, has no hypotheses and no witness here. -/

/-- With the standard parameters and port, and no register block mapped, every address below `2^32` may be read and
written. -/
theorem reach (e : Engine) (he : e.port = .standard) (m : List Host.Cell) (a : Nat) (ha : a < 2 ^ 32) :
    State.mayRead { one e with mem := m } a = true ∧ State.mayWrite { one e with mem := m } a = true := by
  have hc : State.csrBlocks { one e with mem := m } = [] := by
    simp [State.csrBlocks, State.engines, one, State.reset, Engine.csrBlock, he, Port.standard]
  have ho : ordinary (one e).cfg [] a = true := by
    simp only [ordinary, one, State.reset, Config.standard, anyHas, Span.has, List.any_cons, List.any_nil,
      Bool.or_false, Bool.and_eq_true, decide_eq_true_eq, Bool.not_false, and_true]
    exact ⟨decide_eq_true ha, by omega⟩
  have hp : anyHas [⟨0, 2 ^ 32⟩] a = true := by
    simp only [anyHas, Span.has, List.any_cons, List.any_nil, Bool.or_false, Bool.and_eq_true, decide_eq_true_eq]
    omega
  constructor
  · simp only [State.mayRead, hc]
    rw [Bool.and_eq_true]
    exact ⟨ho, by rw [show (one e).eng.port = .standard from he]; exact hp⟩
  · simp only [State.mayWrite, hc]
    rw [Bool.and_eq_true]
    exact ⟨ho, by rw [show (one e).eng.port = .standard from he]; exact hp⟩

theorem wit_DecodeOfEncodeIsTheOperation : (Instr.wrreg (.op .blockRows) 3).wellFormed = true := by decide

theorem wit_EncodeOfDecodeIsTheCode : decode (.read 0x38#6 8) = .ok (.rdreg .status) := by rfl

theorem wit_StagePatternsNameTheStages : 0b1011#4 ≤ 0b1011#4 ∧ 0b1011#4 ≤ 0b1111#4 := by decide

theorem wit_ReservedEncodingsAreRefused :
    (State.reset.eng.run ≠ .busy ∧ 2 ^ fieldWidth State.reset.cfg .blockCols ≤ (0x10000#64).toNat) ∧
    2 ≤ (2#64).toNat ∧ (State.reset.eng.get .crBase).written = false ∧
    ¬ (4 = 8 ∧ (0x20#6).toNat % 8 = 0) ∧ ¬ (8 = 8 ∧ (0x04#6).toNat % 8 = 0) := by decide +kernel

theorem wit_PlacedWordIsRunNext : State.reset.refusal = none ∧ decodeTableWord 8 0b00111000 = some (.rdreg .status) := by
  decide

theorem wit_StepRunsTheDecodedOperation :
    (∃ f, ({ two with inbox := [rd 1 .status] } : State).refusal = none ∧
      ({ two with inbox := [rd 1 .status] } : State).inbox = .code 1 (.read (slotOffset .status) 8) :: [] ∧
      (({ two with inbox := [rd 1 .status] } : State).withInbox []).focus 1 = some f) ∧
    decode (.read (slotOffset .status) 8) = .ok (.rdreg .status) ∧ decode (.stage 0b1111#4) = .error .noStage ∧
    two.engines.length ≤ 2 :=
  ⟨⟨_, rfl, rfl, rfl⟩, rfl, rfl, by decide⟩

theorem wit_RefusalMarkIsSetOnceAndKept :
    (({ State.reset with inbox := [wr 0 .status 0] } : State).refusal = none ∧
      step { State.reset with inbox := [wr 0 .status 0] } = .refused .refReadOnly) ∧
    ({ State.reset with refusal := some .refBusy } : State).refusal = some .refBusy := ⟨⟨rfl, rfl⟩, rfl⟩

theorem wit_RestingBlockDoesNothing :
    State.reset.refusal = none ∧ State.reset.inbox = [] ∧ (∀ e ∈ State.reset.engines, e.run ≠ .busy) := by decide

/-- Two engines with the second one in focus: the first is BUSY in `twoLeft` and not in `twoRight`. -/
def twoLeft : State :=
  { two with engL := [busy small], eng := busy (cmd 0x1000 0x1040 0x1080 0x3000 1 1), engR := [] }

def twoRight : State := { two with engL := [small], eng := busy (cmd 0x1000 0x1040 0x1080 0x3000 1 1), engR := [] }

/-- The BUSY engine first in the list while the one in focus is another, and the BUSY engine in focus behind one that is
not BUSY. -/
theorem wit_BusyEngineTakesTheGroupStep :
    (twoLeft.refusal = none ∧ twoLeft.inbox = [] ∧ (twoLeft.focus 0).isSome ∧ twoLeft.engines[0]? = some (busy small) ∧
      (busy small).run = .busy) ∧
    (twoRight.refusal = none ∧ twoRight.inbox = [] ∧ twoRight.focus 1 = some twoRight ∧ twoRight.eng.run = .busy ∧
      twoRight.engines[0]? = some small ∧ small.run ≠ .busy) := by decide

/-- The invariant holds of a state whose parts are checked one by one. -/
theorem inv_of_checks (s : State) (h1 : s.cfg.legal = true) (h2 : Memory.wf s.mem = true)
    (h3 : ∀ c ∈ s.mem, c.1 < 2 ^ s.cfg.addrW)
    (h4 : ∀ e ∈ s.engines, e.port.legal s.cfg = true ∧ e.fits s.cfg = true ∧ e.g < 2 ^ (2 * s.cfg.dimW + 4) ∧
      (e.run = .busy → e.launchable s.cfg s.csrBlocks = true ∧ e.position s.cfg = true))
    (h5 : s.engines.Pairwise (fun e f => e.run = .busy → f.run = .busy →
      e.conflicts f = false ∧ f.conflicts e = false)) : s.Inv :=
  ⟨h1, h2, h3, fun e he => ⟨(h4 e he).1, (h4 e he).2.1, (h4 e he).2.2.1, (h4 e he).2.2.2⟩, h5⟩

theorem two_inv : two.Inv :=
  inv_of_checks two (by decide +kernel) (by decide +kernel) (by decide +kernel) (by decide +kernel) (by decide +kernel)

/-- The 1 by 1 command of the examples, just accepted, with the samples of the scenario. -/
def start : State := { one (busy small) with mem := scenarioMem }

theorem start_inv : start.Inv :=
  inv_of_checks start (by decide +kernel) (by decide +kernel) (by decide +kernel) (by decide +kernel)
    (by decide +kernel)

theorem start_just : JustStarted start := ⟨start_inv, rfl, rfl, rfl, rfl, rfl, rfl⟩

theorem two_wait_inv : ({ twoRight with inbox := [.wait 0] } : State).Inv :=
  inv_of_checks _ (by decide +kernel) (by decide +kernel) (by decide +kernel) (by decide +kernel) (by decide +kernel)

/-- The host waits for an engine that is IDLE while another is BUSY. -/
theorem wit_EngineTurnNeverFails :
    (start.Inv ∧ start.refusal = none ∧ start.inbox = []) ∧
    (({ twoRight with inbox := [.wait 0] } : State).Inv ∧ twoRight.refusal = none ∧ twoRight.engines[0]? = some small ∧
      small.run ≠ .done ∧ twoRight.engines[1]? = some twoRight.eng ∧ twoRight.eng.run = .busy) :=
  ⟨⟨start_inv, rfl, rfl⟩, two_wait_inv, rfl, rfl, by decide, rfl, rfl⟩

/-- 30_encoding.md rule R149 and 40_convert_command.md rule R114: while the host waits for the IDLE engine 0, engine 1 takes
its step. -/
theorem test_wait_gives_every_engine_its_turn :
    ((nextOf (step { twoRight with inbox := [.wait 0] })).map (·.inbox)) =
      some [.code 0 (.stage 0), .code 1 (.stage 0), .wait 0] := by decide

theorem wit_ResetOfAnEngine :
    ({ two with inbox := [.reset 1] } : State).refusal = none ∧
      ({ two with inbox := [.reset 1] } : State).inbox = .reset 1 :: [] ∧
      1 < ({ two with inbox := [.reset 1] } : State).engines.length ∧ 0 ≠ 1 := by decide

theorem wit_WrregMeaning :
    decode (.write (slotOffset .ctrl) 8 1) = .ok .convert ∧ (one (busy small)).eng.run = .busy ∧
      (State.reset.eng.run ≠ .busy ∧ 2 ^ fieldWidth State.reset.cfg .lumaBase ≤ (0x100000000#64).toNat) ∧
      (0xFFFFFFFF#64).toNat < 2 ^ fieldWidth State.reset.cfg .lumaBase ∧ OpReg.cbBase ≠ .lumaBase := by
  refine ⟨rfl, ?_⟩
  decide +kernel

theorem wit_RdregMeaning :
    State.reset.eng.run = .idle ∧ (one (busy small)).eng.run = .busy ∧ (one (done small)).eng.run = .done ∧
      (State.reset.eng.get .outBase).written = false ∧ ((one small).eng.get .outBase).written = true := by decide

/-- Whether the launch checks before the last two pass. -/
theorem wit_ConvertMeaning_checks :
    2 ≤ (3#64).toNat ∧ (one (busy small)).eng.run = .busy ∧
    (State.reset.eng.run ≠ .busy ∧ ¬ Written State.reset.eng) ∧
    (∀ e ∈ [cmd 0x1000 0x1040 0x1080 0x2000 1 0, cmd 0x1000 0x1040 0x1080 0x2002 1 1,
        cmd 0xFFFFFFF0 0x1040 0x1080 0x2000 1 1], e.run ≠ .busy ∧ (e.get .lumaBase).written = true) ∧
    ¬ DimsPositive (cmd 0x1000 0x1040 0x1080 0x2000 1 0) ∧
    ¬ BasesAligned .standard (cmd 0x1000 0x1040 0x1080 0x2002 1 1) ∧
    ¬ RegionsInSpace .standard (cmd 0xFFFFFFF0 0x1040 0x1080 0x2000 1 1) := by
  refine ⟨by decide, by decide, ⟨by decide, fun h => absurd (h .lumaBase) (by decide)⟩, by decide, ?_, ?_, ?_⟩
  · unfold DimsPositive; decide +kernel
  · unfold BasesAligned; decide +kernel
  · unfold RegionsInSpace; decide +kernel

theorem cmd_written (l cb cr out bc br : Nat) : Written (cmd l cb cr out bc br) := fun o => by cases o <;> rfl

/-- Every byte of a region below `2^32` is admitted. -/
theorem one_admitted (e : Engine) (he : e.port = .standard) (h : RegionsInSpace .standard e) :
    BytesAdmitted (one e) := by
  obtain ⟨h1, h2, h3, h4⟩ := h
  have h5 : Config.standard.addrW = 32 := rfl
  rw [h5] at h1 h2 h3 h4
  constructor
  · intro a ha
    refine (reach e he [] a ?_).1
    unfold InPlanes InRun at ha
    have h6 : (one e).eng = e := rfl
    rw [h6] at ha
    omega
  · intro a ha
    refine (reach e he [] a ?_).2
    unfold InPixels InRun at ha
    have h6 : (one e).eng = e := rfl
    rw [h6] at ha
    omega

theorem wit_ConvertMeaning_accepted :
    (one small).eng.run ≠ .busy ∧ Written (one small).eng ∧ DimsPositive (one small).eng ∧
      BasesAligned (one small).cfg (one small).eng ∧ RegionsInSpace (one small).cfg (one small).eng ∧
      BytesAdmitted (one small) ∧ NoAlias (one small) := by
  refine ⟨by decide, cmd_written _ _ _ _ _ _, ?_, ?_, ?_, ?_, ?_, ?_⟩
  · unfold DimsPositive; decide +kernel
  · unfold BasesAligned; decide +kernel
  · unfold RegionsInSpace; decide +kernel
  · exact one_admitted small rfl (by unfold RegionsInSpace; decide +kernel)
  · rintro a ⟨ha, hb⟩
    have h1 : (one small).eng.num .outBase = 0x2000 := by decide +kernel
    have h2 : (one small).eng.num .lumaBase = 0x1000 := by decide +kernel
    have h3 : (one small).eng.num .cbBase = 0x1040 := by decide +kernel
    have h4 : (one small).eng.num .crBase = 0x1080 := by decide +kernel
    have h5 : sampleCount (one small).eng = 64 := by decide +kernel
    simp only [InPixels, InPlanes, InRun, h1, h2, h3, h4, h5] at ha hb
    omega
  · intro f hf
    exact absurd hf (by simp [State.peers, one, State.reset])

/-- The pixel buffer 0x1020 to 0x111F shares bytes with the luma plane (95_test_vectors.md V2). -/
def overlap : Engine := cmd 0x1000 0x3000 0x3000 0x1020 1 1

/-- The luma plane lies where there is no ordinary memory. -/
def hole : State := { one small with cfg := { Config.standard with ram := [⟨0x1040, 0x10000⟩] } }

theorem wit_ConvertMeaning_alias :
    overlap.run ≠ .busy ∧ Written overlap ∧ DimsPositive overlap ∧ BasesAligned .standard overlap ∧
      RegionsInSpace .standard overlap ∧ BytesAdmitted (one overlap) ∧ ¬ NoAlias (one overlap) := by
  refine ⟨by decide, cmd_written _ _ _ _ _ _, ?_, ?_, ?_, ?_, ?_⟩
  · unfold DimsPositive; decide +kernel
  · unfold BasesAligned; decide +kernel
  · unfold RegionsInSpace; decide +kernel
  · exact one_admitted overlap rfl (by unfold RegionsInSpace; decide +kernel)
  · intro h
    refine h.1 0x1020 ⟨?_, .inl ?_⟩
    · unfold InPixels InRun; decide +kernel
    · unfold InRun; decide +kernel

theorem wit_ConvertMeaning_notAdmitted :
    hole.eng.run ≠ .busy ∧ Written hole.eng ∧ DimsPositive hole.eng ∧ BasesAligned hole.cfg hole.eng ∧
      RegionsInSpace hole.cfg hole.eng ∧ ¬ BytesAdmitted hole := by
  refine ⟨by decide, cmd_written _ _ _ _ _ _, ?_, ?_, ?_, ?_⟩
  · unfold DimsPositive; decide +kernel
  · unfold BasesAligned; decide +kernel
  · unfold RegionsInSpace; decide +kernel
  · intro h
    have := h.1 0x1000 (.inl (by unfold InRun; decide +kernel))
    exact absurd this (by decide +kernel)

theorem wit_EngineStepsNeedBusy : State.reset.eng.run ≠ .busy ∧
    Instr.store ∈ [Instr.group, .ldw, .center, .matr, .matg, .matb, .cvt, .sat16, .sat8, .pack, .store] := by decide

/-- The bytes of group 0 of the small command are within reach. -/
theorem start_reach : (∀ a, InGroupReads start.eng start.curGroup a → start.mayRead a = true) ∧
    (∀ a, InGroupWrites start.eng start.curGroup a → start.mayWrite a = true) := by
  have h0 : start.curGroup = 0 := rfl
  have h1 : start.eng.num .outBase = 0x2000 := by decide +kernel
  have h2 : start.eng.num .lumaBase = 0x1000 := by decide +kernel
  have h3 : start.eng.num .cbBase = 0x1040 := by decide +kernel
  have h4 : start.eng.num .crBase = 0x1080 := by decide +kernel
  constructor
  · intro a ha
    refine (reach (busy small) rfl scenarioMem a ?_).1
    simp only [InGroupReads, InRun, h0, h2, h3, h4] at ha
    omega
  · intro a ha
    refine (reach (busy small) rfl scenarioMem a ?_).2
    simp only [InGroupWrites, InRun, h0, h1] at ha
    omega

theorem wit_GroupConvertsItsFourPixels :
    start.eng.run = .busy ∧ (∀ a, InGroupReads start.eng start.curGroup a → start.mayRead a = true) ∧
      (∀ a, InGroupWrites start.eng start.curGroup a → start.mayWrite a = true) ∧
      start.eng.g + 1 ≠ start.eng.gTotal ∧ ({ busy small with g := 15 } : Engine).g + 1 = small.gTotal :=
  ⟨rfl, start_reach.1, start_reach.2, by decide +kernel, by decide +kernel⟩

theorem wit_GroupInHandIsUnconverted :
    (start.eng.position start.cfg = true ∧ start.cfg.groupOrder = .ascending) ∧
      anyOrder.eng.position anyOrder.cfg = true ∧ anyOrder.cfg.groupOrder = .any ∧ anyOrder.eng.run = .busy := by
  decide +kernel

/-- The small command, BUSY, where the luma plane lies outside ordinary memory. -/
def noPlane : State := { one (busy small) with cfg := { Config.standard with ram := [⟨0x1040, 0x2000⟩] } }

/-- The small command, BUSY, where the pixel buffer lies outside ordinary memory and the planes inside. -/
def noPixels : State := { one (busy small) with cfg := { Config.standard with ram := [⟨0x1000, 0x1000⟩] } }

theorem noPixels_reads (b : Nat) (h : InGroupReads noPixels.eng noPixels.curGroup b) : noPixels.mayRead b = true := by
  have h0 : noPixels.curGroup = 0 := rfl
  have h2 : noPixels.eng.num .lumaBase = 0x1000 := by decide +kernel
  have h3 : noPixels.eng.num .cbBase = 0x1040 := by decide +kernel
  have h4 : noPixels.eng.num .crBase = 0x1080 := by decide +kernel
  have h5 : ∀ x, x < 0x100 → noPixels.mayRead (0x1000 + x) = true := by decide +kernel
  have h6 : 0x1000 ≤ b ∧ b < 0x1100 := by
    simp only [InGroupReads, InRun, h0, h2, h3, h4] at h
    omega
  have h7 := h5 (b - 0x1000) (by omega)
  rwa [show 0x1000 + (b - 0x1000) = b by omega] at h7

/-- A state that meets the invariant, one in which a byte to read is out of reach, and one in which only a byte to write
is. -/
theorem wit_OutOfReachStops :
    (start.Inv ∧ start.eng.run = .busy) ∧
    (noPlane.eng.run = .busy ∧ InGroupReads noPlane.eng noPlane.curGroup 0x1000 ∧ noPlane.mayRead 0x1000 = false) ∧
    (noPixels.eng.run = .busy ∧ InGroupWrites noPixels.eng noPixels.curGroup 0x2000 ∧
      noPixels.mayWrite 0x2000 = false ∧
      ∀ b, InGroupReads noPixels.eng noPixels.curGroup b → noPixels.mayRead b = true) := by
  refine ⟨⟨start_inv, rfl⟩, ⟨rfl, ?_, by decide +kernel⟩, rfl, ?_, by decide +kernel, noPixels_reads⟩
  · unfold InGroupReads InRun
    decide +kernel
  · unfold InGroupWrites InRun
    decide +kernel

theorem wit_LdwLoadsAndWidens :
    start.eng.run = .busy ∧ (∀ a, InGroupReads start.eng start.curGroup a → start.mayRead a = true) :=
  ⟨rfl, start_reach.1⟩

/-- For CENTER, MATR, MATG, MATB, CVT, SAT16, SAT8 and PACK alike. -/
theorem wit_stages_on_the_datapath : start.eng.run = .busy := rfl

theorem wit_StoreWritesTheFourPixels :
    start.eng.run = .busy ∧ (∀ a, InGroupWrites start.eng start.curGroup a → start.mayWrite a = true) :=
  ⟨rfl, start_reach.2⟩

theorem wit_RoundingIsNearestEven :
    (0 < 1402 ∧ 0 < 1000 ∧ 1000 ≤ 1402 * 2 ^ 126 ∧ 1402 < 2 ^ 128 * 1000) ∧
      (2 ^ 126 ≤ 1 * 2 ^ 126 ∧ 1 < 2 ^ 128 * 2 ^ 126) := by
  decide +kernel

theorem wit_ConversionIsNearest :
    (val 5 2).units.natAbs < 2147483647 * 2 ^ 149 ∧
      2 * ((cvtS32 .even (val 5 2)).toInt * 2 ^ 149 - (val 5 2).units).natAbs = 2 ^ 149 ∧
      2 * ((cvtS32 .away (val 5 2)).toInt * 2 ^ 149 - (val 5 2).units).natAbs = 2 ^ 149 := by decide +kernel

/-- Every row of the table of 41_csc_matrix.md rule R70 has its two bounds for `Y` among the bytes. -/
theorem wit_GreenAtTheSensitivePairs :
    ∀ r ∈ [(0, 14), (15, 82), (83, 238), (239, 255), (0, 13), (14, 255), (0, 17), (18, 78), (79, 209), (210, 255),
      (0, 156), (157, 210), (211, 255), (0, 99), (100, 255)], r.1 ≤ r.2 ∧ r.2 ≤ (255#8).toNat := by decide

theorem wit_GroupBytesInMemory : 0 < 4 ∧ 3 < 4 := by decide

theorem wit_BusyEndsByLastGroupOrReset : (∃ t, step start = .next t) ∧ start.engines[0]? = some (busy small) ∧
    (busy small).run = .busy := ⟨⟨_, rfl⟩, rfl, rfl⟩

theorem wit_RunningCommandKeepsItsOperands :
    (∃ t, step { two with inbox := [.reset 1] } = .next t) ∧ two.engines[0]? = some (busy small) ∧
      (busy small).run = .busy := ⟨⟨_, rfl⟩, rfl, rfl⟩

theorem wit_GeometryQuantities : 1 ≤ small.num .blockCols ∧ 1 ≤ small.num .blockRows := by decide +kernel

/-- The 2 by 1 grid of 95_test_vectors.md V3. -/
theorem wit_IndexNamesEverySampleOnce :
    (3 < (cmd 0 0 0 0 2 1).height ∧ 5 < (cmd 0 0 0 0 2 1).width ∧ (cmd 0 0 0 0 2 1).index 3 5 = 53) ∧
      (7 < (cmd 0 0 0 0 2 1).height ∧ 15 < (cmd 0 0 0 0 2 1).width ∧ (cmd 0 0 0 0 2 1).index 7 15 = 127) ∧
      127 < (cmd 0 0 0 0 2 1).samples := by decide +kernel

theorem wit_GroupIsFourAdjacentSamples :
    (31 < (cmd 0 0 0 0 2 1).gTotal ∧ 3 < 4) ∧ 127 < (cmd 0 0 0 0 2 1).samples := by decide +kernel

/-- The small command, BUSY, on an engine whose register block is mapped at 0x40000000. -/
def busyMapped : Engine := { busy small with port := { Port.standard with csrBase := some 0x40000000 } }

theorem busyMapped_off (a n : Nat) (h : a + n ≤ 0x40000000) : OffTheBlocks (one busyMapped) a n := by
  intro e he base hb x hx
  have h1 : e = busyMapped := by simpa [State.engines, one, State.reset] using he
  rw [h1] at hb
  have h2 : base = 0x40000000 := (Option.some.inj hb).symm
  unfold InRun at *
  omega

/-- With a register block mapped elsewhere: the last byte of the chroma-red plane and the last byte of the pixel buffer. -/
theorem wit_TouchingARunningCommandIsRefused :
    (one busyMapped).refusal = none ∧ OffTheBlocks (one busyMapped) 0x10BF ([1] : List Byte).length ∧
      OffTheBlocks (one busyMapped) 0x20FF 1 ∧ busyMapped ∈ (one busyMapped).engines ∧ busyMapped.run = .busy ∧ InRun 0x10BF ([1] : List Byte).length 0x10BF ∧ InPlanes busyMapped 0x10BF ∧
      InRun 0x20FF 1 0x20FF ∧ InPixels busyMapped 0x20FF := by
  refine ⟨rfl, busyMapped_off _ _ (by decide), busyMapped_off _ _ (by decide), List.mem_singleton.mpr rfl, rfl, ?_⟩
  unfold InPlanes InPixels InRun
  decide +kernel

/-- An access just below the luma plane, while the command runs and a register block is mapped elsewhere. -/
theorem wit_OtherBusAccessesAreCarriedOut :
    OffTheBlocks (one busyMapped) 0xFFF 1 ∧
    (∀ x, InRun 0xFFF 1 x → x < 2 ^ (one busyMapped).cfg.addrW ∧ anyHas (one busyMapped).cfg.ram x = true) ∧
    (∀ e ∈ (one busyMapped).engines, e.run = .busy → ∀ x, InRun 0xFFF 1 x → ¬ InPlanes e x ∧ ¬ InPixels e x) := by
  have hx : ∀ x, InRun 0xFFF 1 x → x = 0xFFF := by
    intro x h
    unfold InRun at h
    omega
  refine ⟨busyMapped_off _ _ (by decide), fun x h => ?_, fun e he _ x h => ?_⟩
  · rw [hx x h]; decide +kernel
  · have : e = busyMapped := by simpa [State.engines, one, State.reset] using he
    rw [hx x h, this]
    unfold InPlanes InPixels InRun
    decide +kernel

/-- Two engines, the second one with its block right above the first one's. -/
def twoMapped : State :=
  { mapped with engR := [{ small with port := { Port.standard with csrBase := some 0x40000040 } }] }

theorem wit_RegisterBlockInMemory_two :
    twoMapped.refusal = none ∧
    (∃ f, (twoMapped.withInbox []).focus 1 = some f ∧ f.eng.port.csrBase = some 0x40000040) ∧
    (∀ (j : Nat) (e : Engine) (b : Nat), j ≠ 1 → twoMapped.engines[j]? = some e → e.port.csrBase = some b →
      ∀ x, InRun b 64 x → ¬ InRun 0x40000040 64 x) ∧
    InRun 0x4000003C 8 0x40000040 ∧ InRun 0x40000040 64 0x40000040 := by
  refine ⟨rfl, ⟨_, rfl, rfl⟩, ?_, by unfold InRun; decide, by unfold InRun; decide⟩
  intro j e b hj he hb x hx
  match j with
  | 0 =>
    cases he
    cases hb
    unfold InRun at *
    omega
  | 1 => exact absurd rfl hj
  | _ + 2 => cases he

theorem wit_RegisterBlockInMemory :
    mapped.refusal = none ∧ (mapped.withInbox []).focus 0 = some mapped ∧ mapped.engines.length = 1 ∧
      mapped.eng.port.csrBase = some 0x40000000 ∧
      ([2, 0, 0, 0, 0, 0, 0, 0] : List Byte).length = 8 ∧
      (InRun 0x4000003C 8 0x4000003F ∧ InRun 0x40000000 64 0x4000003F ∧
        ¬ (8 = 8 ∧ ∃ n, n < 8 ∧ 0x4000003C = 0x40000000 + 8 * n)) := by
  refine ⟨rfl, rfl, rfl, rfl, rfl, ?_, ?_, ?_⟩
  · unfold InRun; decide
  · unfold InRun; decide
  · rintro ⟨_, n, _, h⟩
    omega

theorem wit_EveryStepKeepsTheInvariant : start.Inv ∧ ∃ t, step start = .next t := ⟨start_inv, _, rfl⟩

theorem wit_GroupStepsOfTwoEnginesCommute :
    two.Inv ∧ 0 ≠ 1 ∧ two.engines[0]? = some (busy small) ∧
      two.engines[1]? = some (busy (cmd 0x1000 0x1040 0x1080 0x3000 1 1)) ∧ (busy small).run = .busy ∧
      (busy (cmd 0x1000 0x1040 0x1080 0x3000 1 1)).run = .busy := ⟨two_inv, by decide, rfl, rfl, rfl, rfl⟩

/-- For CommandEndsAfterGTotalSteps and CommandPostcondition. -/
theorem wit_CommandPostcondition : JustStarted start ∧ 0 < start.eng.gTotal ∧ 63 < start.eng.samples :=
  ⟨start_just, by decide +kernel, by decide +kernel⟩

theorem anyStart_just : JustStarted { start with cfg := { Config.standard with groupOrder := .any } } :=
  ⟨inv_of_checks _ (by decide +kernel) (by decide +kernel) (by decide +kernel) (by decide +kernel)
    (by decide +kernel), rfl, rfl, rfl, rfl, rfl, rfl⟩

theorem wit_OrderOfGroupsDoesNotMatter :
    JustStarted start ∧ JustStarted { start with cfg := { start.cfg with groupOrder := .any } } ∧
      start.cfg.groupOrder = .ascending := ⟨start_just, anyStart_just, rfl⟩

/-- The planes far apart, so that both shapes of six blocks fit. -/
def grid (bc br : Nat) : State := one (busy (cmd 0x1000 0x2000 0x3000 0x4000 bc br))

theorem grid_just (bc br : Nat) (h : (grid bc br).Inv) : JustStarted (grid bc br) := ⟨h, rfl, rfl, rfl, rfl, rfl, rfl⟩

theorem grid23_inv : (grid 2 3).Inv :=
  inv_of_checks _ (by decide +kernel) (by decide +kernel) (by decide +kernel) (by decide +kernel) (by decide +kernel)

theorem grid61_inv : (grid 6 1).Inv :=
  inv_of_checks _ (by decide +kernel) (by decide +kernel) (by decide +kernel) (by decide +kernel) (by decide +kernel)

theorem wit_GeometryEntersOnlyThroughN :
    JustStarted (grid 2 3) ∧ JustStarted (grid 6 1) ∧
      (∀ o, o ≠ .blockCols → o ≠ .blockRows → (grid 6 1).eng.num o = (grid 2 3).eng.num o) ∧
      (grid 2 3).eng.num .blockCols * (grid 2 3).eng.num .blockRows =
        (grid 6 1).eng.num .blockCols * (grid 6 1).eng.num .blockRows := by
  refine ⟨grid_just 2 3 grid23_inv, grid_just 6 1 grid61_inv, ?_, by decide +kernel⟩
  intro o h1 h2
  cases o
  · rfl
  · rfl
  · rfl
  · rfl
  · exact absurd rfl h1
  · exact absurd rfl h2

/-- The two states differ in a byte outside the planes. -/
theorem wit_SameInputsGiveTheSamePixels :
    JustStarted (grid 2 3) ∧ JustStarted { grid 2 3 with mem := [(0x5000, 7)] } ∧
      (∀ a, InPlanes (grid 2 3).eng a → memRead [(0x5000, 7)] a = memRead (grid 2 3).mem a) := by
  refine ⟨grid_just 2 3 grid23_inv, ⟨inv_of_checks _ (by decide +kernel) (by decide +kernel) (by decide +kernel)
    (by decide +kernel) (by decide +kernel), rfl, rfl, rfl, rfl, rfl, rfl⟩, fun a ha => ?_⟩
  have h2 : (grid 2 3).eng.num .lumaBase = 0x1000 := by decide +kernel
  have h3 : (grid 2 3).eng.num .cbBase = 0x2000 := by decide +kernel
  have h4 : (grid 2 3).eng.num .crBase = 0x3000 := by decide +kernel
  have h5 : sampleCount (grid 2 3).eng = 384 := by decide +kernel
  have hne : ¬ 0x5000 = a := by
    simp only [InPlanes, InRun, h2, h3, h4, h5] at ha
    omega
  simp only [memRead, if_neg hne]
  rfl

/-- The 2 by 2 grid at 0x1000, cut into two 2 by 1 grids (95_test_vectors.md P3 has the shape). -/
theorem wit_TwoPartsLeaveTheMemoryOfTheWhole :
    JustStarted (grid 2 2) ∧ JustStarted (grid 2 1) ∧
      JustStarted (one (busy (cmd 0x1080 0x2080 0x3080 0x4200 2 1))) ∧
      (grid 2 1).eng.samples + (cmd 0x1080 0x2080 0x3080 0x4200 2 1).samples = (grid 2 2).eng.samples ∧
      (cmd 0x1080 0x2080 0x3080 0x4200 2 1).num .outBase =
        (grid 2 2).eng.num .outBase + 4 * (grid 2 1).eng.samples ∧
      (cmd 0x1080 0x2080 0x3080 0x4200 2 1).num .lumaBase =
        (grid 2 2).eng.num .lumaBase + (grid 2 1).eng.samples := by
  refine ⟨grid_just 2 2 ?_, grid_just 2 1 ?_, ⟨?_, rfl, rfl, rfl, rfl, rfl, rfl⟩, by decide +kernel, by decide +kernel,
    by decide +kernel⟩
  · exact inv_of_checks _ (by decide +kernel) (by decide +kernel) (by decide +kernel) (by decide +kernel)
      (by decide +kernel)
  · exact inv_of_checks _ (by decide +kernel) (by decide +kernel) (by decide +kernel) (by decide +kernel)
      (by decide +kernel)
  · exact inv_of_checks _ (by decide +kernel) (by decide +kernel) (by decide +kernel) (by decide +kernel)
      (by decide +kernel)

/-- The machine after reset with the whole program pending. -/
def program : State := { State.reset with inbox := convertActions 0 0x1000 0x1040 0x1080 0x2000 1 1 }

theorem program_inv : program.Inv :=
  inv_of_checks _ (by decide +kernel) (by decide +kernel) (by decide +kernel) (by decide +kernel) (by decide +kernel)

theorem wit_ConvertProgramWritesEveryPixel :
    program.Inv ∧ program.engL = [] ∧ program.engR = [] ∧ program.refusal = none ∧ program.eng.run ≠ .busy ∧
      program.inbox = convertActions 0 0x1000 0x1040 0x1080 0x2000 1 1 ++ [] ∧
      0x2000 < 2 ^ program.cfg.addrW ∧ 1 < 2 ^ program.cfg.dimW ∧
      DimsPositive (one small).eng ∧ BasesAligned (one small).cfg (one small).eng ∧
      RegionsInSpace (one small).cfg (one small).eng ∧ BytesAdmitted (one small) ∧ NoAlias (one small) := by
  obtain ⟨_, _, h1, h2, h3, h4, h5⟩ := wit_ConvertMeaning_accepted
  exact ⟨program_inv, rfl, rfl, rfl, by decide, by rw [List.append_nil]; rfl, by decide +kernel, by decide +kernel, h1,
    h2, h3, h4, h5⟩

end Sys2Proof.Tests
end

/-! PROOFS. The arithmetic of 00_scope.md: the saturating primitives (R7), the rounding to binary32 (R9) and the
conversion to an integer (R11). -/

namespace Sys2Proof.Proofs

open Sys2Proof Sys2Proof.Machine

/-! ## The saturating primitives -/

theorem satU16_toNat (v : BitVec 32) :
    ((satU16 v).toNat : Int) = if v.toInt < 0 then 0 else if 65535 < v.toInt then 65535 else v.toInt := by
  unfold satU16
  split
  case isTrue => rfl
  case isFalse hneg =>
    split
    case isTrue => rfl
    case isFalse hbig =>
      -- a word from 0 to 65535 is its own low half word
      have hv : v.toInt = v.toNat := BitVec.toInt_eq_toNat_of_lt (by
        have := BitVec.toInt_eq_toNat_cond v
        split at this <;> omega)
      rw [BitVec.toNat_setWidth, Nat.mod_eq_of_lt (by omega), hv]

theorem satU8_toNat (v : BitVec 16) : (satU8 v).toNat = if 255 < v.toNat then 255 else v.toNat := by
  unfold satU8
  split
  case isTrue => rfl
  case isFalse h => rw [BitVec.toNat_setWidth, Nat.mod_eq_of_lt (by omega)]

/-- Settles O35: the two narrows keep a value in range because its upper bits are 0; the clamp is its definition. -/
theorem saturatingPrimitives : Obligations.SaturatingPrimitives :=
  ⟨satU16_toNat, satU8_toNat, fun _ => rfl⟩

/-! ## Rounding to binary32 -/

/-- Rounding stays at or above an integer lower bound of the quotient. -/
theorem le_rneDiv {p q k : Nat} (hq : 0 < q) (h : k * q ≤ p) : k ≤ rneDiv p q := by
  obtain ⟨-, hup, -⟩ := rneDiv_nearest p q hq
  have : 2 * k * q ≤ (2 * rneDiv p q + 1) * q := by linarith
  have := Nat.le_of_mul_le_mul_right this hq
  omega

/-- Rounding stays at or below an integer upper bound of the quotient. -/
theorem rneDiv_le {p q k : Nat} (hq : 0 < q) (h : p ≤ k * q) : rneDiv p q ≤ k := by
  obtain ⟨hlow, -, -⟩ := rneDiv_nearest p q hq
  have : 2 * rneDiv p q * q ≤ (2 * k + 1) * q := by linarith
  have := Nat.le_of_mul_le_mul_right this hq
  omega

/-- The significand before rounding lies from `2^23` to below `2^24`, so the rounded one lies from `2^23` to `2^24`. -/
theorem significand_bounds {a d : Nat} (hd : 0 < d) (hmin : d ≤ a * 2 ^ 126) :
    2 ^ 23 ≤ rneDiv (a * F32.one) (d * 2 ^ ulpShift a d) ∧
      rneDiv (a * F32.one) (d * 2 ^ ulpShift a d) ≤ 2 ^ 24 := by
  obtain ⟨hlow, hup⟩ := ulpShift_spec hd hmin
  have hq : 0 < d * 2 ^ ulpShift a d := Nat.mul_pos hd (Nat.two_pow_pos _)
  have scale (k : Nat) : 2 ^ k * (d * 2 ^ ulpShift a d) = 2 ^ (ulpShift a d + k) * d := by ring
  constructor
  · exact le_rneDiv hq (by rw [scale]; exact hlow)
  · exact rneDiv_le hq (by rw [scale]; exact hup.le)

/-- On its stated domain `rnd32` rounds the magnitude and keeps the sign. -/
theorem rnd32_signed {a d : Nat} (neg : Bool) (ha : 0 < a) (hmin : d ≤ a * 2 ^ 126) (hmax : a < 2 ^ 128 * d) :
    rnd32 (if neg then -(a : Int) else a) d = ⟨(if neg then -1 else 1) * (rndMag a d : Int)⟩ := by
  have hdom : rndDomain a d = true := by simp only [rndDomain, hmin, hmax, decide_true, Bool.and_self]
  have hsign : (a : Int).sign = 1 := Int.sign_eq_one_of_pos (by omega)
  cases neg <;> simp [rnd32, hdom, hsign, ha.ne']

/-- Settles O33: the witnesses are the rounded significand `rneDiv` and the exponent `ulpShift` of `rndMag`. -/
theorem roundingIsNearestEven : Obligations.RoundingIsNearestEven := by
  refine ⟨fun _ => rfl, fun a d neg ha hd hmin hmax => ?_⟩
  obtain ⟨hlow, hup⟩ := ulpShift_spec hd hmin
  obtain ⟨hn1, hn2⟩ := significand_bounds hd hmin
  have hnear := rneDiv_nearest (a * F32.one) (d * 2 ^ ulpShift a d) (Nat.mul_pos hd (Nat.two_pow_pos _))
  have hscale (n : Nat) : n * (d * 2 ^ ulpShift a d) = n * 2 ^ ulpShift a d * d := by ring
  refine ⟨_, ulpShift a d, rnd32_signed neg ha hmin hmax, hn1, hn2, hlow, hup, ?_⟩
  generalize rneDiv (a * F32.one) (d * 2 ^ ulpShift a d) = n at hnear ⊢
  rw [hscale, Nat.mul_comm d] at hnear
  exact hnear

/-! ## Conversion to an integer -/

/-- A magnitude below `2^31 - 1` rounds to at most `2^31 - 1`. -/
theorem roundMag_le (t : CvtTies) {a : Nat} (h : a < 2147483647 * 2 ^ 149) : roundMag t a ≤ 2147483647 := by
  obtain ⟨hlow, -, -⟩ := roundMag_nearest t a
  rw [F32.one] at hlow
  omega

@[simp] theorem roundMag_zero (t : CvtTies) : roundMag t 0 = 0 := by
  have := roundMag_nearest t 0
  rw [F32.one] at this
  omega

theorem roundInt_natAbs (t : CvtTies) (f : F32) : (roundInt t f).natAbs = roundMag t f.units.natAbs := by
  by_cases h : f.units = 0
  · simp [roundInt, h]
  · rw [roundInt, Int.natAbs_mul, Int.natAbs_sign_of_ne_zero h, Nat.one_mul, Int.natAbs_natCast]

/-- Both tie rules are symmetric in the sign, so the error of a conversion is the error on the magnitude. -/
theorem roundInt_error (t : CvtTies) (f : F32) :
    (roundInt t f * 2 ^ 149 - f.units).natAbs =
      ((roundMag t f.units.natAbs * 2 ^ 149 : Int) - f.units.natAbs).natAbs := by
  by_cases h : f.units = 0
  · simp [roundInt, h]
  · have hfactor : roundInt t f * 2 ^ 149 - f.units =
        f.units.sign * ((roundMag t f.units.natAbs * 2 ^ 149 : Int) - f.units.natAbs) := by
      rw [Int.mul_sub, Int.sign_mul_natAbs, roundInt, Int.mul_assoc]
    rw [hfactor, Int.natAbs_mul, Int.natAbs_sign_of_ne_zero h, Nat.one_mul]

/-- Below `2^31 - 1` in magnitude the conversion stays in the s32 range, so the word holds the rounded integer. -/
theorem cvtS32_toInt (t : CvtTies) {f : F32} (h : f.units.natAbs < 2147483647 * 2 ^ 149) :
    (cvtS32 t f).toInt = roundInt t f := by
  have hmag : (roundInt t f).natAbs ≤ 2147483647 := roundInt_natAbs t f ▸ roundMag_le t h
  have hfits : fitsS32 (roundInt t f) = true := by
    rw [fitsS32, Bool.and_eq_true, decide_eq_true_iff, decide_eq_true_iff]
    omega
  rw [cvtS32, if_pos hfits]
  exact BitVec.toInt_ofInt_eq_self (by decide) (by omega) (by omega)

/-- Settles O34: the converted integer has the rounded magnitude and its error, and that magnitude is nearest. -/
theorem conversionIsNearest : Obligations.ConversionIsNearest := by
  intro t f hf
  obtain ⟨hlow, hup, htie⟩ := roundMag_nearest t f.units.natAbs
  have hmag := roundInt_natAbs t f
  rw [cvtS32_toInt t hf, roundInt_error, hmag]
  rw [F32.one] at hlow hup htie
  refine ⟨by omega, fun hhalf => ?_⟩
  obtain ⟨heven, haway⟩ := htie (by omega)
  exact ⟨fun ht => by have := heven ht; omega, haway⟩

end Sys2Proof.Proofs

/-! PROOFS. The state of 10_state.md: what one step can do to the parameters, the engines and memory, said once, and from
it the invariant and the life of a running command; after them the refusal mark, the reset values, `STATUS` and the
quantities computed from the dimensions. -/

namespace Sys2Proof.Proofs

open Sys2Proof Sys2Proof.Machine

/-! ## What a step can do -/

/-- Two states with the same parameters, engines and memory, whichever engine is in focus, whatever is pending and
whatever the latest reads returned. -/
structure SameMachine (s u : State) : Prop where
  cfg     : u.cfg = s.cfg
  engines : u.engines = s.engines
  mem     : u.mem = s.mem

/-- What one step makes of the parameters, the engines and memory. -/
inductive StepTo (s : State) : State → Prop
  /-- An operation on one of the engines. -/
  | operation {i : Instr} {u t : State} (hu : SameMachine s u) (h : exec i u = .next t) : StepTo s t
  /-- None of the three changes: a bus read, WAIT, or nothing at all. -/
  | same {t : State} (ht : SameMachine s t) : StepTo s t
  /-- A bus write to bytes that are all ordinary memory. -/
  | busWrite {u : State} {a : Nat} {bytes : List Byte} (hu : SameMachine s u)
      (hole : firstHole u a bytes.length = none) : StepTo s (u.withMem (memWriteBytes u.mem a bytes))
  /-- The reset of one of the engines. -/
  | reset {u : State} {rest : List Event} (hu : SameMachine s u) (hx : s.inbox = .reset u.here :: rest) :
      StepTo s u.resetEngine

theorem sameMachine_refl (s : State) : SameMachine s s := ⟨rfl, rfl, rfl⟩

theorem sameMachine_withInbox (s : State) (l : List Event) : SameMachine s (s.withInbox l) := ⟨rfl, rfl, rfl⟩

/-- Bringing another engine into focus changes none of the three. -/
theorem SameMachine.focus {s v u : State} {k : Nat} (hv : SameMachine s v) (hf : v.focus k = some u) :
    SameMachine s u := by
  obtain ⟨-, hengines, -, hcfg, hmem, -⟩ := focus_eq_some hf
  exact ⟨hcfg.trans hv.cfg, hengines.trans hv.engines, hmem.trans hv.mem⟩

/-- A coded operation, on the engine it names. -/
theorem stepTo_of_onEngine_runCode {s v t : State} {k : Nat} {c : Code} (hv : SameMachine s v)
    (h : onEngine k v (runCode c) = .next t) : StepTo s t := by
  obtain ⟨u, hf, hc⟩ := onEngine_next h
  obtain ⟨i, -, hi⟩ := runCode_next hc
  exact .operation (hv.focus hf) hi

theorem stepTo_of_busRead {s v t : State} {a n : Nat} (hv : SameMachine s v) (h : busRead a n v = .next t) :
    StepTo s t := by
  unfold busRead at h
  split at h
  · split at h
    · cases h
    · exact stepTo_of_onEngine_runCode hv h
  · obtain ⟨rfl, -, -⟩ := memAccess_next h
    exact .same ⟨hv.cfg, hv.engines, hv.mem⟩

theorem stepTo_of_busWrite {s v t : State} {a : Nat} {bytes : List Byte} (hv : SameMachine s v)
    (h : busWrite a bytes v = .next t) : StepTo s t := by
  unfold busWrite at h
  split at h
  · split at h
    · cases h
    · exact stepTo_of_onEngine_runCode hv h
  · obtain ⟨rfl, hole, -⟩ := memAccess_next h
    exact .busWrite hv hole

theorem stepTo_of_serve {s t : State} {ev : Event} {rest : List Event} (hx : s.inbox = ev :: rest)
    (h : serve ev (s.withInbox rest) = .next t) : StepTo s t := by
  have hv := sameMachine_withInbox s rest
  cases ev with
  | code k c => exact stepTo_of_onEngine_runCode hv h
  | busRead a n => exact stepTo_of_busRead hv h
  | busWrite a bytes => exact stepTo_of_busWrite hv h
  | wait k =>
    obtain ⟨u, hf, hw⟩ := onEngine_next h
    have hu := hv.focus hf
    rcases waitRound_next hw with ⟨-, rfl⟩ | ⟨-, rfl⟩
    · exact .same ⟨hu.cfg, hu.engines, hu.mem⟩
    · exact .same ⟨hu.cfg, hu.engines, hu.mem⟩
  | reset k =>
    obtain ⟨u, hf, hr⟩ := onEngine_next h
    cases hr
    obtain ⟨-, -, rfl, -⟩ := focus_eq_some hf
    exact .reset (hv.focus hf) hx

/-- The inversion of `step`. -/
theorem stepTo_of_step {s t : State} (h : step s = .next t) : StepTo s t := by
  unfold step at h
  split at h
  · cases h
  split at h
  case h_2 ev rest hx => exact stepTo_of_serve hx h
  case h_1 =>
    unfold engineTurn at h
    split at h
    · cases h
      exact .same (sameMachine_refl s)
    · obtain ⟨u, hf, hg⟩ := onEngine_next h
      exact .operation ((sameMachine_refl s).focus hf) hg

/-! ## The invariant -/

theorem fresh_get (p : Port) (n : Nat) (o : OpReg) :
    ({ Engine.fresh p with freeIdx := n } : Engine).get o = .unwritten := by cases o <;> rfl

/-- An engine after its reset is right, wherever its free choices stand. -/
theorem fresh_inv {c : Config} {csr : List Span} {p : Port} (hp : p.legal c = true) (n : Nat) :
    ({ Engine.fresh p with freeIdx := n } : Engine).Inv c csr where
  portLegal := hp
  fits := by
    rw [Engine.fits, List.all_eq_true]
    intro o _
    rw [fresh_get]
    exact decide_eq_true (Nat.two_pow_pos _)
  gBound := Nat.two_pow_pos _
  busy h := nomatch h

/-- An engine that is not BUSY is apart from every other. -/
theorem apart_of_not_busy {e : Engine} (h : e.run ≠ .busy) (f : Engine) : e.apart f := fun hb => absurd hb h

theorem resetEngine_inv {s : State} (h : s.Inv) : s.resetEngine.Inv :=
  inv_withEng h rfl (fresh_inv (inv_eng h).portLegal _) fun _ _ => apart_of_not_busy Run.noConfusion _

theorem busWrite_inv {s : State} {a : Nat} {bytes : List Byte} (h : s.Inv)
    (hole : firstHole s a bytes.length = none) : (s.withMem (memWriteBytes s.mem a bytes)).Inv := by
  refine inv_withMem h (memWriteBytes_wf _ _ _ h.memWf) fun c hc => ?_
  rcases mem_memWriteBytes hc with ⟨hlow, hup⟩ | hold
  · exact (firstHole_none hole _ hlow hup).1
  · exact h.memIn c hold

/-- A command the launch checks accept starts with no group converted and in conflict with no running one. -/
theorem launch_inv {s t : State} (h : s.Inv) (hl : launch s = .next t) : t.Inv := by
  obtain ⟨hcheck, rfl⟩ := launch_next hl
  obtain ⟨-, hlaunchable, hclear⟩ := (launchCheck_none s).mp hcheck
  obtain ⟨-, hcols, hrows, -⟩ := launchable_parts hlaunchable
  have he := inv_eng h
  have hget (o : OpReg) : (started s).eng.get o = s.eng.get o := by cases o <;> rfl
  have hpos : 0 < (started s).eng.gTotal := gTotal_congr hget ▸ gTotal_pos hcols hrows
  refine inv_withEng h rfl ⟨he.portLegal, ?_, Nat.two_pow_pos _, fun _ => ⟨?_, ?_⟩⟩ fun f hf hbusy hfbusy => ?_
  · exact (fits_congr hget s.cfg).trans he.fits
  · exact (launchable_congr hget rfl s.cfg s.csrBlocks).trans hlaunchable
  · rw [Engine.position, Bool.and_eq_true]
    refine ⟨decide_eq_true hpos, ?_⟩
    cases s.cfg.groupOrder <;> rfl
  · have hno := (conflicts_congr hget f).trans (hclear f hf)
    exact ⟨hno, (conflicts_symm _ _ hbusy hfbusy).symm.trans hno⟩

theorem writeOperand_inv {s : State} {o : OpReg} {w : Word64} (h : s.Inv) (hidle : s.eng.run ≠ .busy)
    (hw : w.toNat < 2 ^ fieldWidth s.cfg o) : (writeOperand s o w).Inv := by
  have he := inv_eng h
  have hrun : (s.eng.set o ⟨lowField (fieldWidth s.cfg o) w, true⟩).run ≠ .busy := by rwa [set_run]
  refine inv_withEng h (set_port _ _ _) ⟨?_, ?_, ?_, fun hb => absurd hb hrun⟩ fun f _ => apart_of_not_busy hrun f
  · rw [set_port]; exact he.portLegal
  · exact fits_set he.fits o _ (decide_eq_true (by rwa [lowField_of_lt hw]))
  · rw [set_g]; exact he.gBound

theorem convertGroup_inv {s : State} (h : s.Inv) (hb : s.eng.run = .busy) (hs : s.storeFault = none) :
    s.convertGroup.Inv := by
  rw [convertGroup_eq_withEng]
  exact inv_advance h hb (inv_store h hs _) (convertGroup_get s) (convertGroup_port s) (convertGroup_g s)
    (convertGroup_run s) (convertGroup_converted s)

theorem exec_inv {i : Instr} {s t : State} (h : s.Inv) (hi : exec i s = .next t) : t.Inv := by
  have stage (hst : t = s ∨ ∃ d, t = s.withDp d) : t.Inv := by
    rcases hst with rfl | ⟨d, rfl⟩
    · exact h
    · exact inv_withDp h d
  cases i with
  | wrreg r w =>
    cases r with
    | op o =>
      obtain ⟨hidle, hw, rfl⟩ := execWrreg_op_next hi
      exact writeOperand_inv h hidle hw
    | ctrl =>
      simp only [exec, execWrreg] at hi
      split at hi
      · exact launch_inv h hi
      · split at hi
        · cases hi; exact h
        · cases hi
    | status => cases hi
  | rdreg r =>
    obtain ⟨w, rfl⟩ := execRdreg_next hi
    exact inv_congr h rfl rfl rfl
  | convert => exact launch_inv h hi
  | ctrlnop => cases hi; exact h
  | group =>
    rcases execGroup_next hi with ⟨-, rfl⟩ | ⟨hb, -, hs, rfl⟩
    · exact h
    · exact convertGroup_inv h hb hs
  | ldw =>
    rcases execLdw_next hi with ⟨-, rfl⟩ | ⟨-, -, rfl⟩
    · exact h
    · exact inv_withDp h _
  | store =>
    rcases execStore_next hi with ⟨-, rfl⟩ | ⟨-, hs, rfl⟩
    · exact h
    · exact inv_store h hs _
  | center => exact stage (exec_middle_stage_next (by simp) hi)
  | matr => exact stage (exec_middle_stage_next (by simp) hi)
  | matg => exact stage (exec_middle_stage_next (by simp) hi)
  | matb => exact stage (exec_middle_stage_next (by simp) hi)
  | cvt => exact stage (exec_middle_stage_next (by simp) hi)
  | sat16 => exact stage (exec_middle_stage_next (by simp) hi)
  | sat8 => exact stage (exec_middle_stage_next (by simp) hi)
  | pack => exact stage (exec_middle_stage_next (by simp) hi)

theorem SameMachine.inv {s u : State} (hu : SameMachine s u) (h : s.Inv) : u.Inv :=
  inv_congr h hu.cfg hu.engines hu.mem

/-- Settles O52: each of the four things a step can do keeps the invariant. -/
theorem everyStepKeepsTheInvariant : Obligations.EveryStepKeepsTheInvariant := by
  intro s t h hstep
  cases stepTo_of_step hstep with
  | operation hu hi => exact exec_inv (hu.inv h) hi
  | same ht => exact ht.inv h
  | busWrite hu hole => exact busWrite_inv (hu.inv h) hole
  | reset hu _ => exact resetEngine_inv (hu.inv h)

/-- Settles O51: the standard parameters are legal, memory is empty, and the one engine is fresh. -/
theorem invariantAtReset : Obligations.InvariantAtReset where
  cfgLegal := by decide
  memWf := rfl
  memIn := fun c hc => nomatch hc
  engines := fun e he => by
    obtain rfl : e = Engine.fresh .standard := List.mem_singleton.mp he
    exact fresh_inv rfl 0
  apart := List.pairwise_singleton _ _

/-! ## The life of a running command -/

/-- A running command from one moment to the next: the operands stay, and either nothing moved or one more group is
converted, after which the command runs on unless the group was the last (40_convert_command.md rule R113). -/
structure CommandGoesOn (e e' : Engine) : Prop where
  get      : ∀ o, e'.get o = e.get o
  progress : (e'.g = e.g ∧ e'.run = .busy) ∨
    (e'.g = e.g + 1 ∧ e'.run = if e.g + 1 = e.gTotal then .done else .busy)

theorem exec_commandGoesOn {i : Instr} {s t : State} (h : exec i s = .next t) (hb : s.eng.run = .busy) :
    CommandGoesOn s.eng t.eng := by
  rcases exec_next_busy h hb with rfl | ⟨hget, hrun, hg⟩
  · exact ⟨convertGroup_get s, .inr ⟨convertGroup_g s, by rw [convertGroup_run, hb]⟩⟩
  · exact ⟨hget, .inl ⟨hg, hrun.trans hb⟩⟩

/-- An operation replaces the engine in focus and no other. -/
theorem exec_engines {i : Instr} {s t : State} (h : exec i s = .next t) :
    t.engines = (s.withEng t.eng).engines := by
  obtain ⟨-, hL, hR, -⟩ := exec_next_around h
  rw [withEng_engines, State.engines, hL, hR]

/-- The engine in place `j` after the engine in focus is replaced: the new one there, every other as before. -/
theorem withEng_place {s : State} {j : Nat} {e : Engine} (he : s.engines[j]? = some e) (f : Engine) :
    (j = s.here ∧ e = s.eng ∧ (s.withEng f).engines[j]? = some f) ∨ (s.withEng f).engines[j]? = some e := by
  rw [withEng_getElem?]
  by_cases hj : j = s.here
  · obtain ⟨hfocus, -⟩ := focus_eq_some (focus_here s)
    rw [hj, hfocus] at he
    cases he
    exact .inl ⟨hj, rfl, if_pos hj⟩
  · rw [if_neg hj]
    exact .inr he

/-- What a step from `s` makes of the engine in place `j`: it keeps its port, and if it is BUSY its command goes on or
the step is its reset. -/
structure PlaceGoesOn (s : State) (j : Nat) (e e' : Engine) : Prop where
  port : e'.port = e.port
  busy : e.run = .busy → CommandGoesOn e e' ∨ (e'.run = .idle ∧ ∃ rest, s.inbox = .reset j :: rest)

theorem placeGoesOn_refl (s : State) (j : Nat) (e : Engine) : PlaceGoesOn s j e e :=
  ⟨rfl, fun hb => .inl ⟨fun _ => rfl, .inl ⟨rfl, hb⟩⟩⟩

theorem StepTo.engine {s t : State} (h : StepTo s t) {j : Nat} {e : Engine} (he : s.engines[j]? = some e) :
    ∃ e', t.engines[j]? = some e' ∧ PlaceGoesOn s j e e' := by
  have unmoved := placeGoesOn_refl s j e
  cases h with
  | operation hu hi =>
    obtain ⟨-, -, -, -, -, -, hport⟩ := exec_next_around hi
    rw [exec_engines hi]
    rcases withEng_place (hu.engines ▸ he) t.eng with ⟨-, rfl, ht⟩ | ht
    · exact ⟨_, ht, hport, fun hb => .inl (exec_commandGoesOn hi hb)⟩
    · exact ⟨e, ht, unmoved⟩
  | same ht => exact ⟨e, ht.engines ▸ he, unmoved⟩
  | busWrite hu _ => exact ⟨e, hu.engines ▸ he, unmoved⟩
  | reset hu hx =>
    rcases withEng_place (hu.engines ▸ he) _ with ⟨rfl, rfl, ht⟩ | ht
    · exact ⟨_, ht, rfl, fun _ => .inr ⟨rfl, _, hx⟩⟩
    · exact ⟨e, ht, unmoved⟩

/-- No step writes a parameter of 00_scope.md rule R6. -/
theorem StepTo.cfg {s t : State} (h : StepTo s t) : t.cfg = s.cfg := by
  cases h with
  | operation hu hi => exact (exec_next_around hi).1.trans hu.cfg
  | same ht => exact ht.cfg
  | busWrite hu _ => exact hu.cfg
  | reset hu _ => exact hu.cfg

/-- Settles O43: a command that goes on is BUSY still, or DONE with its last group. -/
theorem busyEndsByLastGroupOrReset : Obligations.BusyEndsByLastGroupOrReset := by
  intro s t j e hstep he hb
  obtain ⟨e', he', -, hlife⟩ := (stepTo_of_step hstep).engine he
  refine ⟨e', he', ?_⟩
  rcases hlife hb with ⟨-, ⟨-, hbusy⟩ | ⟨hg, hrun⟩⟩ | hreset
  · exact .inl hbusy
  · by_cases hlast : e.g + 1 = e.gTotal
    · exact .inr (.inl ⟨by rw [hrun, if_pos hlast], hg, hg.trans hlast⟩)
    · exact .inl (by rw [hrun, if_neg hlast])
  · exact .inr (.inr hreset)

/-- Settles O44: a command that goes on has the operands it had, and its counter stays or goes up by one. -/
theorem runningCommandKeepsItsOperands : Obligations.RunningCommandKeepsItsOperands := by
  intro s t j e hstep he
  have hto := stepTo_of_step hstep
  obtain ⟨e', he', hport, hlife⟩ := hto.engine he
  refine ⟨hto.cfg, e', he', hport, fun hb => ?_⟩
  rcases hlife hb with ⟨hget, hprogress⟩ | ⟨-, hreset⟩
  · exact .inr ⟨hget, hprogress.imp And.left And.left⟩
  · exact .inl hreset

/-- Settles O20: in any order the group in hand is taken from those that remain. -/
theorem groupInHandIsUnconverted : Obligations.GroupInHandIsUnconverted := by
  intro s hp
  refine ⟨curGroup_lt hp, curGroup_ascending, fun hany => ⟨?_, fun t hb hgroup => ?_⟩⟩
  · exact ((mem_remaining _ _).mp (curGroup_any hany hp)).2
  · rcases execGroup_next hgroup with ⟨hidle, -⟩ | ⟨-, -, -, rfl⟩
    · exact absurd hb hidle
    · rw [convertGroup_converted, if_pos hany]

/-! ## The refusal mark -/

theorem settle_of_refused {s : State} {r : Refusal} (h : step s = .refused r) : settle s = s.markRefusal r := by
  rw [settle, h]

/-- With the mark set the run is over (10_state.md rule R37). -/
theorem step_of_marked {s : State} {r : Refusal} (h : s.refusal = some r) : step s = .refused r := by
  rw [step, h]

theorem runFor_of_marked {s : State} {r : Refusal} (h : s.refusal = some r) (n : Nat) : runFor n s = s := by
  induction n with
  | zero => rfl
  | succ n ih => rw [runFor, settle_of_refused (step_of_marked h), markRefusal_set _ _ _ h, ih]

/-- Settles O8: a refusal is recorded by `markRefusal`, which leaves a set mark alone. -/
theorem refusalMarkIsSetOnceAndKept : Obligations.RefusalMarkIsSetOnceAndKept := by
  refine ⟨rfl, fun s r hclear h => ?_, fun s r h => ⟨step_of_marked h, runFor_of_marked h⟩⟩
  rw [settle_of_refused h, State.markRefusal, hclear]

/-! ## Reset values, `STATUS` and the dimensions -/

/-- Settles O12: the one engine of the reset state is fresh, and a fresh register has its mark clear. -/
theorem resetValues : Obligations.ResetValues :=
  ⟨fun o => congrArg OperandReg.written (fresh_get .standard 0 o), rfl, rfl, rfl, rfl⟩

/-- Settles O42, run state by run state. -/
theorem statusHasThreeValues : Obligations.StatusHasThreeValues := by
  refine ⟨rfl, rfl, rfl, fun r => ?_⟩
  cases r with
  | idle => decide
  | busy => decide
  | done => decide

/-- Settles O45: `W` and `H` are 8 times the block counts, so `N` is 64 times their product, and `G_TOTAL` 16 times. -/
theorem geometryQuantities : Obligations.GeometryQuantities := by
  intro e
  have hW : e.width = 8 * e.num .blockCols := rfl
  have hH : e.height = 8 * e.num .blockRows := rfl
  have hN : e.samples = 64 * e.num .blockCols * e.num .blockRows := rfl
  refine ⟨hW, hH, ?_, hN, samples_eq e, by omega, by omega, fun hcols hrows => ?_⟩
  · rw [hN, hW, hH]
    ring
  · have : 1 ≤ e.num .blockCols * e.num .blockRows := Nat.mul_pos hcols hrows
    rw [Engine.gTotal, Nat.mul_assoc]
    omega

end Sys2Proof.Proofs

/-! PROOFS. The memory of 20_memory.md: which samples an index and a group name (R43, R44), the reach of an engine (R47)
and the independence of two running commands (R56). -/

namespace Sys2Proof.Proofs

open Sys2Proof Sys2Proof.Machine Sys2Proof.Claims

/-! ## The linear index -/

theorem samples_eq_height_mul_width (e : Engine) : e.samples = e.height * e.width := by
  obtain ⟨-, -, hN, -⟩ := geometryQuantities e
  rw [hN, Nat.mul_comm]

theorem index_div_width {e : Engine} {row col : Nat} (h : col < e.width) : e.index row col / e.width = row := by
  rw [Engine.index, Nat.mul_comm, Nat.mul_add_div (by omega), Nat.div_eq_of_lt h, Nat.add_zero]

theorem index_mod_width {e : Engine} {row col : Nat} (h : col < e.width) : e.index row col % e.width = col := by
  rw [Engine.index, Nat.mul_add_mod_self_right, Nat.mod_eq_of_lt h]

theorem index_lt_samples {e : Engine} {row col : Nat} (hr : row < e.height) (hc : col < e.width) :
    e.index row col < e.samples := by
  calc e.index row col < (row + 1) * e.width := by rw [Engine.index, Nat.succ_mul]; omega
    _ ≤ e.height * e.width := Nat.mul_le_mul_right _ hr
    _ = e.samples := (samples_eq_height_mul_width e).symm

theorem index_div_mod (e : Engine) (i : Nat) : e.index (i / e.width) (i % e.width) = i := by
  rw [Engine.index, Nat.mul_comm, Nat.div_add_mod]

/-- Settles O46: the row and the column of an index are its quotient and its remainder by `W`. -/
theorem indexNamesEverySampleOnce : Obligations.IndexNamesEverySampleOnce := by
  refine fun e => ⟨fun row col hr hc => ⟨rfl, index_lt_samples hr hc⟩, fun i hi => ?_⟩
  rw [samples_eq_height_mul_width] at hi
  have hW : 0 < e.width := Nat.pos_of_ne_zero fun h0 => by simp [h0] at hi
  refine ⟨i / e.width, i % e.width, (Nat.div_lt_iff_lt_mul hW).mpr hi, Nat.mod_lt _ hW, index_div_mod e i, ?_⟩
  rintro row col - hc rfl
  exact ⟨(index_div_width hc).symm, (index_mod_width hc).symm⟩

/-! ## The bytes of a group -/

/-- The bytes of a run are its base with each offset below its length. -/
theorem inRun_iff_offset {base n a : Nat} : InRun base n a ↔ ∃ i, i < n ∧ a = base + i := by
  constructor
  · rintro ⟨hlow, hup⟩
    exact ⟨a - base, by omega, by omega⟩
  · rintro ⟨i, hi, rfl⟩
    exact ⟨by omega, by omega⟩

theorem mem_groupReads_iff {base g a : Nat} : a ∈ groupReads base g ↔ InRun (base + 4 * g) 4 a := by
  simp only [groupReads, List.mem_cons, List.not_mem_nil, or_false, InRun]
  omega

theorem mem_groupWrites_iff {base g a : Nat} : a ∈ groupWrites base g ↔ InRun (base + 16 * g) 16 a :=
  mem_groupWrites

/-- `W` is a multiple of 4, so the samples of a group are in the row of the first. -/
theorem group_same_row (e : Engine) (g : Nat) {i : Nat} (hi : i < 4) :
    (4 * g + i) / e.width = 4 * g / e.width := by
  obtain ⟨-, -, -, -, -, -, hmod, -⟩ := geometryQuantities e
  obtain ⟨w, hW⟩ := Nat.dvd_of_mod_eq_zero hmod
  rw [hW, ← Nat.div_div_eq_div_mul, ← Nat.div_div_eq_div_mul, show (4 * g + i) / 4 = 4 * g / 4 by omega]

/-- In one row, the column goes up with the index. -/
theorem group_columns_adjacent (e : Engine) (g : Nat) {i : Nat} (hi : i < 4) :
    (4 * g + i) % e.width = 4 * g % e.width + i := by
  have hfirst := Nat.div_add_mod (4 * g) e.width
  have hith := Nat.div_add_mod (4 * g + i) e.width
  rw [group_same_row e g hi] at hith
  omega

/-- Settles O47: a row holds whole groups, and the group and lane of an index are its quotient and remainder by 4. -/
theorem groupIsFourAdjacentSamples : Obligations.GroupIsFourAdjacentSamples := by
  refine ⟨fun e g i hg hi => ⟨group_same_row e g hi, group_columns_adjacent e g hi, ?_⟩, fun e j hj => ?_,
    fun base g a => ?_, fun base g a => ?_⟩
  · rw [samples_eq]
    omega
  · rw [samples_eq] at hj
    exact ⟨j / 4, j % 4, by omega, by omega, by omega, fun g i hi h => ⟨by omega, by omega⟩⟩
  · simp only [← Nat.add_assoc, mem_groupReads_iff, inRun_iff_offset]
  · rw [mem_groupWrites_iff, inRun_iff_offset]

/-! ## The reach of an engine -/

theorem mem_loadAddrs {s : State} {a : Nat} : a ∈ s.loadAddrs ↔ InGroupReads s.eng s.curGroup a := by
  simp only [State.loadAddrs, List.mem_append, mem_groupReads_iff, InGroupReads, or_assoc]

theorem mem_storeAddrs {s : State} {a : Nat} : a ∈ s.storeAddrs ↔ InGroupWrites s.eng s.curGroup a :=
  mem_groupWrites_iff

/-- A search that has something to find finds an element on which the predicate is false. -/
theorem exists_find?_not_eq_some {l : List Nat} {p : Nat → Bool} {a : Nat} (ha : a ∈ l) (hp : p a = false) :
    ∃ b, l.find? (fun x => !p x) = some b ∧ b ∈ l ∧ p b = false := by
  have hfound : (l.find? fun x => !p x).isSome := List.find?_isSome.mpr ⟨a, ha, by rw [hp, Bool.not_false]⟩
  obtain ⟨b, hb⟩ := Option.isSome_iff_exists.mp hfound
  exact ⟨b, hb, List.mem_of_find?_eq_some hb, by simpa using List.find?_some hb⟩

/-- A byte of the group that may not be read makes the check on the loads find one, perhaps another one. -/
theorem loadFault_eq_some {s : State} {a : Nat} (ha : InGroupReads s.eng s.curGroup a) (hr : s.mayRead a = false) :
    ∃ b, s.loadFault = some b ∧ InGroupReads s.eng s.curGroup b ∧ s.mayRead b = false := by
  simpa only [State.loadFault, mem_loadAddrs] using exists_find?_not_eq_some (mem_loadAddrs.mpr ha) hr

theorem storeFault_eq_some {s : State} {a : Nat} (ha : InGroupWrites s.eng s.curGroup a)
    (hw : s.mayWrite a = false) :
    ∃ b, s.storeFault = some b ∧ InGroupWrites s.eng s.curGroup b ∧ s.mayWrite b = false := by
  simpa only [State.storeFault, mem_storeAddrs] using exists_find?_not_eq_some (mem_storeAddrs.mpr ha) hw

theorem loadFault_eq_none {s : State} (h : ∀ a, InGroupReads s.eng s.curGroup a → s.mayRead a = true) :
    s.loadFault = none :=
  List.find?_eq_none.mpr fun a ha => by simp [h a (mem_loadAddrs.mp ha)]

section Busy

variable {s : State} (hb : s.eng.run = .busy)
include hb

theorem exec_group_of_reach (hl : s.loadFault = none) (hs : s.storeFault = none) :
    exec .group s = .next s.convertGroup := by
  rw [exec, execGroup, whenBusy_of_busy hb, hl, hs]

theorem exec_group_of_loadFault {a : Nat} (hl : s.loadFault = some a) :
    exec .group s = .fault (.engineAccess a) := by
  rw [exec, execGroup, whenBusy_of_busy hb, hl]

theorem exec_group_of_storeFault {a : Nat} (hl : s.loadFault = none) (hs : s.storeFault = some a) :
    exec .group s = .fault (.engineAccess a) := by
  rw [exec, execGroup, whenBusy_of_busy hb, hl, hs]

theorem exec_ldw_of_reach (hl : s.loadFault = none) : exec .ldw s = .next s.loadStage := by
  rw [exec, execLdw, whenBusy_of_busy hb, hl]

theorem exec_ldw_of_loadFault {a : Nat} (hl : s.loadFault = some a) :
    exec .ldw s = .fault (.engineAccess a) := by
  rw [exec, execLdw, whenBusy_of_busy hb, hl]

theorem exec_store_of_reach (hs : s.storeFault = none) : exec .store s = .next s.storeStage := by
  rw [exec, execStore, whenBusy_of_busy hb, hs]

theorem exec_store_of_storeFault {a : Nat} (hs : s.storeFault = some a) :
    exec .store s = .fault (.engineAccess a) := by
  rw [exec, execStore, whenBusy_of_busy hb, hs]

/-- Inside the invariant the group in hand of a BUSY engine is one of its command's. -/
theorem curGroup_lt_of_inv (h : s.Inv) : s.curGroup < s.eng.gTotal :=
  curGroup_lt ((inv_eng h).busy hb).2

theorem loadFault_none_of_inv (h : s.Inv) : s.loadFault = none :=
  loadFault_none ((inv_eng h).busy hb).1 (curGroup_lt_of_inv hb h)

theorem storeFault_none_of_inv (h : s.Inv) : s.storeFault = none :=
  storeFault_none ((inv_eng h).busy hb).1 (curGroup_lt_of_inv hb h)

end Busy

/-- Settles O21: a step of a BUSY engine stops exactly with what the two checks of its bytes find. -/
theorem outOfReachStops : Obligations.OutOfReachStops := by
  refine ⟨fun s h hb => ?_, fun s hb => ⟨fun a ha hr => ?_, fun a ha hw => ?_⟩⟩
  · have hl := loadFault_none_of_inv hb h
    have hs := storeFault_none_of_inv hb h
    exact ⟨⟨_, exec_group_of_reach hb hl hs⟩, ⟨_, exec_ldw_of_reach hb hl⟩, _, exec_store_of_reach hb hs⟩
  · obtain ⟨b, hl, hbyte⟩ := loadFault_eq_some ha hr
    exact ⟨⟨b, exec_group_of_loadFault hb hl, hbyte⟩, b, exec_ldw_of_loadFault hb hl, hbyte⟩
  · obtain ⟨b, hs, hbyte⟩ := storeFault_eq_some ha hw
    refine ⟨fun hreads => ⟨b, ?_, hbyte⟩, b, exec_store_of_storeFault hb hs, hbyte⟩
    exact exec_group_of_storeFault hb (loadFault_eq_none hreads) hs

/-! ## Two running commands -/

theorem groupReads_in_planes {e : Engine} {g a : Nat} (hg : g < e.gTotal) (h : InGroupReads e g a) :
    anyHas e.planes a = true := by
  have hn := samples_eq e
  simp only [anyHas, Engine.planes, Engine.lumaPlane, Engine.cbPlane, Engine.crPlane, List.any_cons, List.any_nil,
    Bool.or_eq_true, has_iff]
  simp only [InGroupReads, InRun] at h
  omega

theorem groupWrites_in_outRegion {e : Engine} {g a : Nat} (hg : g < e.gTotal) (h : InGroupWrites e g a) :
    Span.has e.outRegion a = true := by
  have hn := samples_eq e
  simp only [Engine.outRegion, has_iff]
  simp only [InGroupWrites, InRun] at h
  omega

/-- Of two running commands that are apart, one writes no byte the other reads or writes (20_memory.md rule R56). -/
theorem groupWrites_disjoint {e f : Engine} {g g' a : Nat} (h : e.apart f) (he : e.run = .busy) (hf : f.run = .busy)
    (hg : g < e.gTotal) (hg' : g' < f.gTotal) (ha : InGroupWrites e g a) :
    ¬ InGroupReads f g' a ∧ ¬ InGroupWrites f g' a := by
  have hclear : anyMeets f.regions e.outRegion = false := by
    have hno := (h he hf).1
    simp only [Engine.conflicts, hf, decide_true, Bool.true_and, Bool.or_eq_false_iff] at hno
    exact hno.1
  have hnone := not_anyHas_of_not_anyMeets hclear (groupWrites_in_outRegion hg ha)
  have hregions : anyHas f.regions a = (anyHas f.planes a || Span.has f.outRegion a) := by
    simp [anyHas, Engine.regions, Engine.planes, Bool.or_assoc]
  rw [hregions, Bool.or_eq_false_iff] at hnone
  obtain ⟨hplanes, hout⟩ := hnone
  exact ⟨fun hc => by simp [groupReads_in_planes hg' hc] at hplanes,
    fun hc => by simp [groupWrites_in_outRegion hg' hc] at hout⟩

/-- The engines in two different places are apart. -/
theorem apart_of_places {s : State} {j k : Nat} {e f : Engine} (h : s.Inv) (hjk : j ≠ k)
    (he : s.engines[j]? = some e) (hf : s.engines[k]? = some f) : e.apart f := by
  obtain ⟨hj, rfl⟩ := List.getElem?_eq_some_iff.mp he
  obtain ⟨hk, rfl⟩ := List.getElem?_eq_some_iff.mp hf
  have hpairs := List.pairwise_iff_getElem.mp h.apart
  rcases Nat.lt_or_gt_of_ne hjk with hlt | hgt
  · exact hpairs j k hj hk hlt
  · exact apart_symm (hpairs k j hk hj hgt)

/-- The group step leaves every byte outside the sixteen of its group. -/
theorem memRead_convertGroup_of_not_written {s : State} {a : Nat} (h : ¬ InGroupWrites s.eng s.curGroup a) :
    memRead s.convertGroup.mem a = memRead s.mem a := by
  rw [convertGroup_mem, memRead_storeGroup]
  exact if_neg h

/-- Two stores of groups that share no byte can be made in either order. -/
theorem memRead_storeGroup_comm {m : List Host.Cell} {b b' g g' : Nat} (p p' : Lanes (BitVec 32))
    (h : ∀ a, InRun (b + 16 * g) 16 a → ¬ InRun (b' + 16 * g') 16 a) (a : Nat) :
    memRead (storeGroup (storeGroup m b g p) b' g' p') a =
      memRead (storeGroup (storeGroup m b' g' p') b g p) a := by
  have hdisj := h a
  simp only [InRun] at hdisj
  simp only [memRead_storeGroup]
  by_cases h1 : b + 16 * g ≤ a ∧ a < b + 16 * g + 16
  · simp only [if_pos h1, if_neg (hdisj h1)]
  · simp only [if_neg h1]

/-! ### What a group step depends on -/

/-- The engine in focus is the same, in the same place and under the same parameters. -/
structure SameTask (u w : State) : Prop where
  cfg  : w.cfg = u.cfg
  here : w.here = u.here
  eng  : w.eng = u.eng

theorem SameTask.curGroup {u w : State} (h : SameTask u w) : w.curGroup = u.curGroup := by
  simp only [State.curGroup, h.cfg, h.here, h.eng]

/-- What a group step makes of its engine does not depend on memory. -/
theorem SameTask.convertGroup_eng {u w : State} (h : SameTask u w) : w.convertGroup.eng = u.convertGroup.eng := by
  simp only [Machine.convertGroup_eng, h.curGroup, h.cfg, h.eng]

/-- Two vectors with the same four lanes are the same. -/
theorem lanes_ext {α : Type} {v w : Lanes α} (h : ∀ i, i < 4 → v.get i = w.get i) : v = w := by
  obtain ⟨v0, v1, v2, v3⟩ := v
  obtain ⟨w0, w1, w2, w3⟩ := w
  obtain rfl : v0 = w0 := h 0 (by decide)
  obtain rfl : v1 = w1 := h 1 (by decide)
  obtain rfl : v2 = w2 := h 2 (by decide)
  obtain rfl : v3 = w3 := h 3 (by decide)
  rfl

/-- The pixels of a group depend on the twelve bytes it reads. -/
theorem SameTask.groupPixels {u w : State} (h : SameTask u w)
    (hm : ∀ a, InGroupReads u.eng u.curGroup a → memRead w.mem a = memRead u.mem a) :
    w.groupPixels = u.groupPixels := by
  have hlane (i : Nat) (hi : i < 4) : w.groupPixels.get i = u.groupPixels.get i := by
    rw [groupPixels_get w hi, groupPixels_get u hi, h.curGroup, h.cfg, h.eng,
      hm _ (.inl ⟨by omega, by omega⟩), hm _ (.inr (.inl ⟨by omega, by omega⟩)),
      hm _ (.inr (.inr ⟨by omega, by omega⟩))]
  exact lanes_ext hlane

/-! ### The turn of one engine, and the turn of a second one after it -/

theorem focus_of_place {s : State} {j : Nat} {e : Engine} (he : s.engines[j]? = some e) :
    ∃ u, s.focus j = some u ∧ u.eng = e := by
  rw [State.focus, he]
  exact ⟨_, rfl, rfl⟩

/-- The turn of a BUSY engine is its group step. -/
theorem serve_turn {s u : State} {j : Nat} (h : s.Inv) (hu : s.focus j = some u) (hb : u.eng.run = .busy) :
    serve (.code j (.stage 0)) s = .next u.convertGroup := by
  have hi := inv_focus h hu
  rw [serve, onEngine, hu]
  change exec .group u = _
  exact exec_group_of_reach hb (loadFault_none_of_inv hb hi) (storeFault_none_of_inv hb hi)

theorem convertGroup_engines {s u : State} {j : Nat} (hu : s.focus j = some u) (i : Nat) :
    u.convertGroup.engines[i]? = if i = j then some u.convertGroup.eng else s.engines[i]? := by
  obtain ⟨-, hengines, hhere, -⟩ := focus_eq_some hu
  obtain ⟨-, hL, hR, -⟩ := convertGroup_rest u
  have hplace : u.convertGroup.engines = (u.withEng u.convertGroup.eng).engines := by
    rw [withEng_engines, State.engines, hL, hR]
  rw [hplace, withEng_getElem?, hengines, hhere]

/-- After the turn of the engine in place `j` the one in place `k` has the task it had, over the memory left by that
turn. -/
theorem focus_after_turn {s u v : State} {j k : Nat} (hjk : j ≠ k) (hu : s.focus j = some u)
    (hv : s.focus k = some v) :
    ∃ w, u.convertGroup.focus k = some w ∧ SameTask v w ∧ w.mem = u.convertGroup.mem := by
  obtain ⟨-, -, -, hucfg, -⟩ := focus_eq_some hu
  obtain ⟨hvplace, -, hvhere, hvcfg, -⟩ := focus_eq_some hv
  have hplace : u.convertGroup.engines[k]? = some v.eng := by
    rw [convertGroup_engines hu, if_neg hjk.symm, hvplace]
  obtain ⟨w, hw, hweng⟩ := focus_of_place hplace
  obtain ⟨-, -, hwhere, hwcfg, hwmem, -⟩ := focus_eq_some hw
  obtain ⟨hccfg, -⟩ := convertGroup_rest u
  exact ⟨w, hw, ⟨by rw [hwcfg, hccfg, hucfg, hvcfg], hwhere.trans hvhere.symm, hweng⟩, hwmem⟩

/-- The turn of the engine in place `k` after that of the engine in place `j` gives its engine and its sixteen bytes the
same values as it would have given them before. -/
theorem serve_turn_after_turn {s u v : State} {j k : Nat} (h : s.Inv) (hjk : j ≠ k) (hu : s.focus j = some u)
    (hv : s.focus k = some v) (hub : u.eng.run = .busy) (hvb : v.eng.run = .busy)
    (hapart : ∀ a, InGroupReads v.eng v.curGroup a → ¬ InGroupWrites u.eng u.curGroup a) :
    ∃ w, serve (.code k (.stage 0)) u.convertGroup = .next w ∧
      w.mem = storeGroup u.convertGroup.mem (v.eng.num .outBase) v.curGroup v.groupPixels ∧
      ∀ i, w.engines[i]? = if i = k then some v.convertGroup.eng else
        if i = j then some u.convertGroup.eng else s.engines[i]? := by
  obtain ⟨-, -, -, -, humem, -⟩ := focus_eq_some hu
  obtain ⟨-, -, -, -, hvmem, -⟩ := focus_eq_some hv
  obtain ⟨w, hw, htask, hwmem⟩ := focus_after_turn hjk hu hv
  have hinv : u.convertGroup.Inv :=
    convertGroup_inv (inv_focus h hu) hub (storeFault_none_of_inv hub (inv_focus h hu))
  have hpixels : w.groupPixels = v.groupPixels := htask.groupPixels fun a ha => by
    rw [hwmem, memRead_convertGroup_of_not_written (hapart a ha), humem, hvmem]
  refine ⟨w.convertGroup, serve_turn hinv hw (by rw [htask.eng]; exact hvb), ?_, fun i => ?_⟩
  · rw [convertGroup_mem, hwmem, htask.eng, htask.curGroup, hpixels]
  · rw [convertGroup_engines hw, convertGroup_engines hu, htask.convertGroup_eng]

/-- Settles O53: neither engine writes a byte the other reads or writes, so each order makes the same two stores and
leaves the same two engines. -/
theorem groupStepsOfTwoEnginesCommute : Obligations.GroupStepsOfTwoEnginesCommute := by
  intro s j k e f h hjk he hf heb hfb
  obtain ⟨u, hu, rfl⟩ := focus_of_place he
  obtain ⟨v, hv, rfl⟩ := focus_of_place hf
  have hug := curGroup_lt_of_inv heb (inv_focus h hu)
  have hvg := curGroup_lt_of_inv hfb (inv_focus h hv)
  have hapart := apart_of_places h hjk he hf
  have huv (a : Nat) := groupWrites_disjoint (a := a) hapart heb hfb hug hvg
  have hvu (a : Nat) := groupWrites_disjoint (a := a) (apart_symm hapart) hfb heb hvg hug
  obtain ⟨w, hw, hwmem, hwengines⟩ := serve_turn_after_turn h hjk hu hv heb hfb fun a hr hc => (huv a hc).1 hr
  obtain ⟨x, hx, hxmem, hxengines⟩ := serve_turn_after_turn h hjk.symm hv hu hfb heb fun a hr hc => (hvu a hc).1 hr
  obtain ⟨-, -, -, -, humem, -⟩ := focus_eq_some hu
  obtain ⟨-, -, -, -, hvmem, -⟩ := focus_eq_some hv
  refine ⟨_, w, _, x, serve_turn h hu heb, hw, serve_turn h hv hfb, hx, fun a => ?_, ?_⟩
  · rw [hwmem, hxmem, convertGroup_mem, convertGroup_mem, humem, hvmem]
    exact memRead_storeGroup_comm _ _ (fun a ha => (hvu a ha).2) a
  · refine List.ext_getElem? fun i => ?_
    rw [hwengines, hxengines]
    by_cases hij : i = j
    · rw [if_pos hij, if_neg (by omega), if_pos hij]
    · rw [if_neg hij, if_neg hij]

end Sys2Proof.Proofs

/-! PROOFS. The encoding of 30_encoding.md: the register slots (R141), the decoder against the encoder (R144, R147, R150),
what a step makes of a code, the reserved encodings (R146) and the register block as seen through memory (R142, R143). -/

namespace Sys2Proof.Proofs

open Sys2Proof Sys2Proof.Machine Sys2Proof.Claims

/-! ## The register slots -/

@[simp] theorem ofNum_num (r : Reg) : Reg.ofNum r.num = r := by
  cases r with
  | op o => cases o <;> rfl
  | ctrl => rfl
  | status => rfl

@[simp] theorem num_ofNum (n : BitVec 3) : (Reg.ofNum n).num = n := by
  revert n
  decide

@[simp] theorem slotReg_slotOffset (r : Reg) : slotReg (slotOffset r) = r := by
  rw [slotReg, slotOffset, BitVec.extractLsb'_append_eq_left, ofNum_num]

theorem wholeSlot_iff (offset : BitVec 6) (size : Nat) :
    wholeSlot offset size = true ↔ size = 8 ∧ offset.toNat % 8 = 0 := by
  simp [wholeSlot, ← BitVec.toNat_inj, BitVec.extractLsb'_toNat]

@[simp] theorem wholeSlot_slotOffset (r : Reg) : wholeSlot (slotOffset r) 8 = true := by
  rw [wholeSlot_iff, Laws.slotOffset_toNat]
  omega

/-- A whole slot lies at the offset of the register it names. -/
theorem slotOffset_slotReg {offset : BitVec 6} (h : offset.toNat % 8 = 0) : slotOffset (slotReg offset) = offset := by
  apply BitVec.eq_of_toNat_eq
  rw [Laws.slotOffset_toNat, slotReg, num_ofNum, BitVec.extractLsb'_toNat]
  omega

/-! ## The decoder and the encoder -/

/-- An access that is a whole slot is decoded by its register alone (30_encoding.md rule R147). -/
theorem decode_write_slot (r : Reg) (w : Word64) : decode (.write (slotOffset r) 8 w) = decodeWrite r w := by
  rw [decode, wholeSlot_slotOffset, if_pos rfl, slotReg_slotOffset]

theorem decode_read_slot (r : Reg) : decode (.read (slotOffset r) 8) = .ok (.rdreg r) := by
  rw [decode, wholeSlot_slotOffset, if_pos rfl, slotReg_slotOffset]

/-- Settles O1: a register access decodes by its slot, and each stage name by its row of rule R150. -/
theorem decodeOfEncodeIsTheOperation : Obligations.DecodeOfEncodeIsTheOperation := by
  intro i hi
  cases i with
  | wrreg r w =>
    rw [encode, decode_write_slot]
    cases r with
    | op o => rfl
    | ctrl => cases hi
    | status => rfl
  | rdreg r => exact decode_read_slot r
  | convert => exact decode_write_slot .ctrl 1
  | ctrlnop => exact decode_write_slot .ctrl 0
  | group => rfl
  | ldw => rfl
  | center => rfl
  | matr => rfl
  | matg => rfl
  | matb => rfl
  | cvt => rfl
  | sat16 => rfl
  | sat8 => rfl
  | pack => rfl
  | store => rfl

/-- A write of a register that is an operation is encoded as that write. -/
theorem encode_of_decodeWrite {r : Reg} {w : Word64} {i : Instr} (h : decodeWrite r w = .ok i) :
    encode i = .write (slotOffset r) 8 w ∧ i.wellFormed = true := by
  cases r with
  | op o => cases h; exact ⟨rfl, rfl⟩
  | status => cases h; exact ⟨rfl, rfl⟩
  | ctrl =>
    unfold decodeWrite at h
    split_ifs at h with hone hzero
    · cases h; exact ⟨hone ▸ rfl, rfl⟩
    · cases h; exact ⟨hzero ▸ rfl, rfl⟩

/-- A stage name that names an operation is that operation's name. -/
theorem encode_of_decodeStage {n : BitVec 4} {i : Instr} (h : decodeStage n = .ok i) :
    encode i = .stage n ∧ i.wellFormed = true := by
  have table : ∀ n : BitVec 4,
      ((decodeStage n).toOption.all fun i => decide (encode i = .stage n) && i.wellFormed) = true := by decide
  simpa [h, Except.toOption] using table n

/-- Settles O2: format by format, what decodes to an operation is a whole slot or a stage name of the table. -/
theorem encodeOfDecodeIsTheCode : Obligations.EncodeOfDecodeIsTheCode := by
  intro c i h
  cases c with
  | write offset size w =>
    rw [decode] at h
    split_ifs at h with hslot
    obtain ⟨rfl, hmul⟩ := (wholeSlot_iff _ _).mp hslot
    simpa only [slotOffset_slotReg hmul] using encode_of_decodeWrite h
  | read offset size =>
    rw [decode] at h
    split_ifs at h with hslot
    obtain ⟨rfl, hmul⟩ := (wholeSlot_iff _ _).mp hslot
    cases h
    exact ⟨by rw [encode, slotOffset_slotReg hmul], rfl⟩
  | stage n => exact encode_of_decodeStage h

/-- Settles O3: each word is a closed term, and the decoder computes on it. -/
theorem specWordsDecode : Obligations.SpecWordsDecode :=
  ⟨rfl, rfl, rfl, rfl, rfl, rfl, rfl, rfl, rfl, rfl, rfl, rfl, rfl, rfl⟩

/-- Settles O4: a name from `1011` on is none of the eleven rows. -/
theorem stagePatternsNameTheStages : Obligations.StagePatternsNameTheStages :=
  ⟨rfl, rfl, rfl, rfl, rfl, rfl, rfl, rfl, rfl, rfl, rfl, by decide⟩

/-! ## What a step runs -/

theorem runCode_of_decode {c : Code} {i : Instr} (h : decode c = .ok i) (s : State) : runCode c s = exec i s := by
  rw [runCode, h]

theorem runCode_of_reject {c : Code} {r : Reject} (h : decode c = .error r) (s : State) :
    runCode c s = .refused (refusalOfReject r) := by
  rw [runCode, h]

theorem runCode_encode {i : Instr} (h : i.wellFormed = true) (s : State) : runCode (encode i) s = exec i s :=
  runCode_of_decode (decodeOfEncodeIsTheOperation i h) s

theorem onEngine_of_focus {s f : State} {k : Nat} (h : s.focus k = some f) (act : State → Out) :
    onEngine k s act = act f := by
  rw [onEngine, h]

/-- With the mark clear, the oldest pending action is taken out and carried out. -/
theorem step_of_pending {s : State} {ev : Event} {rest : List Event} (hr : s.refusal = none)
    (hx : s.inbox = ev :: rest) : step s = serve ev (s.withInbox rest) := by
  simp only [step, hr, hx]

theorem step_of_code {s f : State} {k : Nat} {c : Code} {rest : List Event} (hr : s.refusal = none)
    (hx : s.inbox = .code k c :: rest) (hf : (s.withInbox rest).focus k = some f) : step s = runCode c f := by
  rw [step_of_pending hr hx, serve, onEngine_of_focus hf]

/-- Settles O6: a pending code is `runCode` on its engine in focus, and `runCode` follows the decoder. -/
theorem stepRunsTheDecodedOperation : Obligations.StepRunsTheDecodedOperation := by
  refine ⟨fun s f k c rest hr hx hf => ?_, fun s k c rest hr hx hk => ?_⟩
  · obtain ⟨hplace, hengines, -, hcfg, hmem, -, -, -, hinbox⟩ := focus_eq_some hf
    have hstep := step_of_code hr hx hf
    exact ⟨fun i hi => hstep.trans (runCode_of_decode hi f), fun r he => hstep.trans (runCode_of_reject he f),
      hinbox, hplace, hengines, hmem, hcfg⟩
  · have hnone : (s.withInbox rest).focus k = none := (focus_eq_none _ _).mpr hk
    rw [step_of_pending hr hx, serve, onEngine, hnone]

/-- Settles O7: taking the placed word out again leaves the state it was placed in, its engine still in focus. -/
theorem placedWordIsRunNext : Obligations.PlacedWordIsRunNext := by
  intro s nbits w i hr hw
  have hdecode : decode (codeOfTableWord nbits w) = .ok i := by
    rw [decodeTableWord] at hw
    cases h : decode (codeOfTableWord nbits w) with
    | ok j => rw [h] at hw; exact congrArg Except.ok (Option.some.inj hw)
    | error r => rw [h] at hw; cases hw
  have hfocus : ((s.withFetchWord nbits w).withInbox s.inbox).focus s.here = some s := focus_here s
  exact (step_of_code (s := s.withFetchWord nbits w) hr rfl hfocus).trans (runCode_of_decode hdecode s)

/-! ## Reserved encodings -/

theorem exec_wrreg_of_not_fits {s : State} {o : OpReg} {w : Word64} (hidle : s.eng.run ≠ .busy)
    (hw : 2 ^ fieldWidth s.cfg o ≤ w.toNat) : exec (.wrreg (.op o) w) s = .refused .refReservedBits := by
  have hfits : fitsField (fieldWidth s.cfg o) w = false := decide_eq_false (Nat.not_lt.mpr hw)
  rw [exec, execWrreg, if_neg hidle, hfits, Bool.not_false, if_pos rfl]

/-- An access to the block that is no whole slot is refused whatever its direction. -/
theorem runCode_of_partial {offset : BitVec 6} {size : Nat} (h : ¬ (size = 8 ∧ offset.toNat % 8 = 0)) (w : Word64)
    (s : State) : runCode (.write offset size w) s = .refused .refPartialAccess ∧
      runCode (.read offset size) s = .refused .refPartialAccess := by
  have hslot : ¬ wholeSlot offset size = true := mt (wholeSlot_iff offset size).mp h
  have hwrite : decode (.write offset size w) = .error .partialAccess := if_neg hslot
  have hread : decode (.read offset size) = .error .partialAccess := if_neg hslot
  exact ⟨runCode_of_reject hwrite s, runCode_of_reject hread s⟩

/-- A write of `CTRL` with a bit above bit 0 set is no operation. -/
theorem decodeWrite_ctrl_reserved {w : Word64} (h : 2 ≤ w.toNat) : decodeWrite .ctrl w = .error .reservedBits := by
  have hone : w ≠ 1 := by rintro rfl; exact absurd h (by decide)
  have hzero : w ≠ 0 := by rintro rfl; exact absurd h (by decide)
  rw [decodeWrite, if_neg hone, if_neg hzero]

/-- Settles O5: the decoder refuses the partial accesses and the reserved bits of `CTRL`, and the host actions the other
rows. -/
theorem reservedEncodingsAreRefused : Obligations.ReservedEncodingsAreRefused := by
  refine ⟨fun s o w hidle hw => ?_, fun s w hw => ?_, fun s w => ?_, fun s => ?_, fun s o hmark => ?_,
    fun s offset size w h => runCode_of_partial h w s, fun s => ?_⟩
  · exact (runCode_encode (i := .wrreg (.op o) w) rfl s).trans (exec_wrreg_of_not_fits hidle hw)
  · exact runCode_of_reject ((decode_write_slot .ctrl w).trans (decodeWrite_ctrl_reserved hw)) s
  · exact runCode_encode (i := .wrreg .status w) rfl s
  · exact runCode_encode (i := .rdreg .ctrl) rfl s
  · rw [runCode_of_decode (decode_read_slot (.op o)), exec, execRdreg, hmark]
    rfl
  · refine ⟨s.withRdata s.eng.run.statusWord, runCode_encode (i := .rdreg .status) rfl s, ?_⟩
    rw [withRdata_rdata]
    cases s.eng.run <;> decide

/-! ## The register block in memory -/

/-- A block that is found is the mapped block of the engine in that place, and shares a byte with the access. -/
theorem blockAt_some {l : List Engine} {j k b : Nat} {r : Span} (h : blockAt l j r = some (k, b)) :
    ∃ i e, k = j + i ∧ l[i]? = some e ∧ e.port.csrBase = some b ∧ Span.meets ⟨b, 64⟩ r = true := by
  induction l generalizing j with
  | nil => cases h
  | cons e l ih =>
    have later (h : blockAt l (j + 1) r = some (k, b)) : ∃ i f, k = j + i ∧ (e :: l)[i]? = some f ∧
        f.port.csrBase = some b ∧ Span.meets ⟨b, 64⟩ r = true := by
      obtain ⟨i, f, hk, hf⟩ := ih h
      exact ⟨i + 1, f, by omega, hf⟩
    rw [blockAt, Engine.csrBlock] at h
    cases hb : e.port.csrBase with
    | none => rw [hb] at h; exact later h
    | some a =>
      rw [hb] at h
      dsimp only [Option.map_some] at h
      split_ifs at h with hmeets
      · cases h
        exact ⟨0, e, rfl, rfl, hb, hmeets⟩
      · exact later h

/-- An access that shares a byte with a mapped block finds one, perhaps another one. -/
theorem blockAt_of_meets {l : List Engine} {e : Engine} {b : Nat} {r : Span} (he : e ∈ l)
    (hb : e.port.csrBase = some b) (hmeets : Span.meets ⟨b, 64⟩ r = true) (j : Nat) :
    ∃ p, blockAt l j r = some p := by
  induction l generalizing j with
  | nil => cases he
  | cons f l ih =>
    rw [blockAt, Engine.csrBlock]
    rcases List.mem_cons.mp he with rfl | he
    · rw [hb]
      exact ⟨_, if_pos hmeets⟩
    · cases f.port.csrBase with
      | none => exact ih he _
      | some a =>
        dsimp only [Option.map_some]
        split_ifs
        · exact ⟨_, rfl⟩
        · exact ih he _

theorem blockOffset_eq_some {b : Nat} {r : Span} {o : BitVec 6} :
    blockOffset b r = some o ↔ (b ≤ r.base ∧ r.base + r.size ≤ b + 64) ∧ BitVec.ofNat 6 (r.base - b) = o := by
  simp [blockOffset]

/-- The engine in place `k` has its block at `base`, and no other block shares a byte with it (60_exceptions.md rule
R170). -/
structure OwnBlock (s : State) (k base : Nat) : Prop where
  mapped : ∃ e, s.engines[k]? = some e ∧ e.port.csrBase = some base
  apart  : ∀ (j : Nat) (e : Engine) (b : Nat), j ≠ k → s.engines[j]? = some e → e.port.csrBase = some b →
    ∀ x, InRun b 64 x → ¬ InRun base 64 x

/-- The block an access finds when it has a byte of the block at `base`: that one, or one apart from it. -/
theorem blockAt_of_touch {s : State} {k base x : Nat} {r : Span} (h : OwnBlock s k base)
    (hr : InRun r.base r.size x) (hx : InRun base 64 x) :
    ∃ j b, blockAt s.engines 0 r = some (j, b) ∧ ((j = k ∧ b = base) ∨
      (∃ y, InRun b 64 y ∧ InRun r.base r.size y) ∧ ∀ y, InRun b 64 y → ¬ InRun base 64 y) := by
  obtain ⟨e, he, hb⟩ := h.mapped
  have hmeets : Span.meets ⟨base, 64⟩ r = true := (meets_iff _ _).mpr ⟨x, (has_iff _ _).mpr hx, (has_iff _ _).mpr hr⟩
  obtain ⟨⟨j, b⟩, hfound⟩ := blockAt_of_meets (List.mem_of_getElem? he) hb hmeets 0
  refine ⟨j, b, hfound, ?_⟩
  obtain ⟨i, f, hij, hf, hfb, hfmeets⟩ := blockAt_some hfound
  obtain rfl : j = i := hij.trans (Nat.zero_add i)
  by_cases hjk : j = k
  · subst hjk
    rw [he] at hf
    cases hf
    exact .inl ⟨rfl, Option.some.inj (hfb.symm.trans hb)⟩
  · obtain ⟨y, hyb, hyr⟩ := (meets_iff _ _).mp hfmeets
    exact .inr ⟨⟨y, (has_iff _ _).mp hyb, (has_iff _ _).mp hyr⟩, h.apart j f b hjk hf hfb⟩

/-- A slot of the block finds it, at the offset of its register (30_encoding.md rule R141). -/
theorem blockAt_slot {s : State} {k base : Nat} (h : OwnBlock s k base) (r : Reg) :
    blockAt s.engines 0 ⟨base + 8 * r.num.toNat, 8⟩ = some (k, base) ∧
      blockOffset base ⟨base + 8 * r.num.toNat, 8⟩ = some (slotOffset r) := by
  have hnum : r.num.toNat < 8 := r.num.isLt
  have hfirst : InRun (base + 8 * r.num.toNat) 8 (base + 8 * r.num.toNat) := ⟨by omega, by omega⟩
  have hinside : InRun base 64 (base + 8 * r.num.toNat) := ⟨by omega, by omega⟩
  constructor
  · obtain ⟨j, b, hfound, ⟨rfl, rfl⟩ | ⟨⟨y, hyb, hylow, hyup⟩, hapart⟩⟩ :=
      blockAt_of_touch (r := ⟨base + 8 * r.num.toNat, 8⟩) h hfirst hinside
    · exact hfound
    · dsimp only at hylow hyup
      exact absurd ⟨by omega, by omega⟩ (hapart y hyb)
  · refine blockOffset_eq_some.mpr ⟨⟨by simp, by simp; omega⟩, BitVec.eq_of_toNat_eq ?_⟩
    rw [Laws.slotOffset_toNat, BitVec.toNat_ofNat]
    dsimp only
    omega

/-- Any other access that touches the block finds one of which it is no whole slot, or over whose edge it runs. -/
theorem blockAt_partial {s : State} {k base a n x : Nat} (h : OwnBlock s k base) (hr : InRun a n x)
    (hx : InRun base 64 x) (hslot : ¬ (n = 8 ∧ ∃ m, m < 8 ∧ a = base + 8 * m)) :
    ∃ j b, blockAt s.engines 0 ⟨a, n⟩ = some (j, b) ∧
      ∀ o, blockOffset b ⟨a, n⟩ = some o → j = k ∧ ¬ (n = 8 ∧ o.toNat % 8 = 0) := by
  obtain ⟨j, b, hfound, hwhich⟩ := blockAt_of_touch (r := ⟨a, n⟩) h hr hx
  refine ⟨j, b, hfound, fun o ho => ?_⟩
  obtain ⟨⟨hlow, hup⟩, ho⟩ := blockOffset_eq_some.mp ho
  dsimp only at hlow hup ho
  obtain ⟨hrlow, hrup⟩ := hr
  rcases hwhich with ⟨hj, rfl⟩ | ⟨-, hapart⟩
  · refine ⟨hj, fun ⟨h8, hmod⟩ => hslot ⟨h8, ?_⟩⟩
    rw [← ho, BitVec.toNat_ofNat] at hmod
    exact ⟨(a - b) / 8, by omega, by omega⟩
  · exact absurd hx (hapart x ⟨by omega, by omega⟩)

section Bus

variable {s f : State} {k base : Nat} (h : OwnBlock s k base) (hf : s.focus k = some f)
include h hf

theorem busWrite_slot {bytes : List Byte} (r : Reg) (hlen : bytes.length = 8) :
    busWrite (base + 8 * r.num.toNat) bytes s =
      runCode (.write (slotOffset r) 8 (BitVec.ofNat 64 (bytesLE bytes))) f := by
  obtain ⟨hblock, hoffset⟩ := blockAt_slot h r
  simp only [busWrite, hlen, hblock, hoffset, onEngine_of_focus hf]

theorem busRead_slot (r : Reg) : busRead (base + 8 * r.num.toNat) 8 s = runCode (.read (slotOffset r) 8) f := by
  obtain ⟨hblock, hoffset⟩ := blockAt_slot h r
  simp only [busRead, hblock, hoffset, onEngine_of_focus hf]

theorem busWrite_partial {a x : Nat} {bytes : List Byte} (hr : InRun a bytes.length x) (hx : InRun base 64 x)
    (hslot : ¬ (bytes.length = 8 ∧ ∃ m, m < 8 ∧ a = base + 8 * m)) :
    busWrite a bytes s = .refused .refPartialAccess := by
  obtain ⟨j, b, hblock, hoffset⟩ := blockAt_partial h hr hx hslot
  rw [busWrite, hblock]
  dsimp only
  split
  · rfl
  · rename_i o ho
    obtain ⟨rfl, hpartial⟩ := hoffset o ho
    rw [onEngine_of_focus hf, (runCode_of_partial hpartial _ f).1]

theorem busRead_partial {a n x : Nat} (hr : InRun a n x) (hx : InRun base 64 x)
    (hslot : ¬ (n = 8 ∧ ∃ m, m < 8 ∧ a = base + 8 * m)) : busRead a n s = .refused .refPartialAccess := by
  obtain ⟨j, b, hblock, hoffset⟩ := blockAt_partial h hr hx hslot
  rw [busRead, hblock]
  dsimp only
  split
  · rfl
  · rename_i o ho
    obtain ⟨rfl, hpartial⟩ := hoffset o ho
    rw [onEngine_of_focus hf, (runCode_of_partial hpartial 0 f).2]

end Bus

/-- Settles O50: an access of a whole slot finds the block it lies in; any other finds one of which it is no slot. -/
theorem registerBlockInMemory : Obligations.RegisterBlockInMemory := by
  intro s f k base rest hr hf hbase hapart
  have hown : OwnBlock (s.withInbox rest) k base := ⟨⟨f.eng, (focus_eq_some hf).1, hbase⟩, hapart⟩
  refine ⟨fun r bytes hlen hx => ?_, fun r hx => ?_, fun a bytes x hx hrun hblock hslot => ?_,
    fun a n x hx hrun hblock hslot => ?_⟩ <;> rw [step_of_pending hr hx, serve]
  · exact busWrite_slot hown hf r hlen
  · exact busRead_slot hown hf r
  · exact busWrite_partial hown hf hrun hblock hslot
  · exact busRead_partial hown hf hrun hblock hslot

end Sys2Proof.Proofs

/-! PROOFS. A whole command, group by group in either order (40_convert_command.md R113, R116 and R119), and the host
program CONVERT that starts one and waits for its end (30_encoding.md R149). -/

namespace Sys2Proof.Proofs

open Sys2Proof Sys2Proof.Machine Sys2Proof.Claims

/-! ## The operands of a command, byte by byte -/

theorem has_outRegion_iff {e : Engine} {a : Nat} : Span.has e.outRegion a = true ↔ InPixels e a := has_iff _ _

theorem anyHas_planes_iff {e : Engine} {a : Nat} : anyHas e.planes a = true ↔ InPlanes e a := by
  simp only [anyHas, Engine.planes, List.any_cons, List.any_nil, Bool.or_false, Bool.or_eq_true, has_iff]
  rfl

/-- The pixel buffer is clear of the planes exactly when they share no byte (20_memory.md rule R48). -/
theorem selfAlias_eq_false_iff {e : Engine} : e.selfAlias = false ↔ ∀ a, ¬ (InPixels e a ∧ InPlanes e a) := by
  rw [Engine.selfAlias, Bool.eq_false_iff, ne_eq, anyMeets_iff]
  simp only [← has_outRegion_iff, ← anyHas_planes_iff, anyHas_iff, meets_iff]
  constructor
  · rintro h a ⟨hout, p, hp, ha⟩
    exact h ⟨p, hp, a, ha, hout⟩
  · rintro h ⟨p, hp, a, ha, hout⟩
    exact h a ⟨hout, p, hp, ha⟩

theorem allWritten_iff {e : Engine} : e.allWritten = true ↔ Written e := by
  simp only [Engine.allWritten, Bool.and_eq_true]
  constructor
  · rintro ⟨⟨⟨⟨⟨h0, h1⟩, h2⟩, h3⟩, h4⟩, h5⟩ o
    cases o <;> assumption
  · intro h
    exact ⟨⟨⟨⟨⟨h .lumaBase, h .cbBase⟩, h .crBase⟩, h .outBase⟩, h .blockCols⟩, h .blockRows⟩

theorem aligned_iff {c : Config} {e : Engine} : e.aligned c = true ↔ BasesAligned c e := by
  simp only [Engine.aligned, BasesAligned, Bool.and_eq_true, decide_eq_true_eq, and_assoc]

theorem inSpace_iff {c : Config} {e : Engine} : e.inSpace c = true ↔ RegionsInSpace c e := by
  simp only [Engine.inSpace, Engine.regions, List.all_cons, List.all_nil, Bool.and_eq_true, decide_eq_true_eq, and_true]
  rfl

/-- A region is admitted when each of its bytes is ordinary memory there is leave for. -/
theorem admits_of_bytes {c : Config} {csr allowed : List Span} {r : Span}
    (h : ∀ a, Span.has r a = true → ordinary c csr a = true ∧ anyHas allowed a = true) :
    admits c csr allowed r = true := by
  simp only [ordinary, Bool.and_eq_true, Bool.not_eq_true'] at h
  simp only [admits, Bool.and_eq_true, Bool.not_eq_true', covers_iff, Bool.eq_false_iff, ne_eq, anyMeets_iff, meets_iff]
  refine ⟨⟨fun a ha => ?_, fun a ha => ?_⟩, ?_⟩
  · obtain ⟨⟨⟨-, hram⟩, -⟩, -⟩ := h a ha
    exact hram
  · obtain ⟨-, hallowed⟩ := h a ha
    exact hallowed
  · rintro ⟨t, ht, a, hta, ha⟩
    obtain ⟨⟨-, hoff⟩, -⟩ := h a ha
    have hon : anyHas csr a = true := (anyHas_iff _ _).mpr ⟨t, ht, hta⟩
    rw [hoff] at hon
    cases hon

theorem admitted_of_bytesAdmitted {s : State} (h : BytesAdmitted s) : s.eng.admitted s.cfg s.csrBlocks = true := by
  obtain ⟨hread, hwrite⟩ := h
  simp only [State.mayRead, State.mayWrite, Bool.and_eq_true] at hread hwrite
  rw [Engine.admitted, Bool.and_eq_true, List.all_eq_true]
  refine ⟨fun r hr => admits_of_bytes fun a ha => hread a ?_, admits_of_bytes fun a ha => hwrite a ?_⟩
  · exact anyHas_planes_iff.mp ((anyHas_iff _ _).mpr ⟨r, hr, ha⟩)
  · exact has_outRegion_iff.mp ha

/-! ## Memory and runs -/

/-- A value is read where its bytes are. -/
theorem memReadLE_of_bytes {m : List Host.Cell} {a n v : Nat}
    (h : ∀ k, k < n → memRead m (a + k) = BitVec.ofNat 8 (v / 256 ^ k)) : memReadLE m a n = v % 256 ^ n := by
  rw [← memReadLE_memWriteLE m a n v]
  refine memReadLE_congr fun x hlow hup => ?_
  rw [memRead_memWriteLE, if_pos ⟨hlow, hup⟩, ← h (x - a) (by omega), Nat.add_sub_cancel' hlow]

theorem run_inv {n : Nat} {s t : State} (h : s.Inv) (hrun : Host.Core.run Sys2Proof.core n s = .next t) : t.Inv := by
  induction n generalizing s with
  | zero => cases hrun; exact h
  | succ n ih =>
    obtain ⟨u, hu, hrun⟩ := run_succ_next hrun
    exact ih (everyStepKeepsTheInvariant s u h hu) hrun

/-! ## A command while its groups are converted -/

/-- The groups of the running command converted so far, in either group order (10_state.md rule R31). -/
def convertedGroups (s : State) : List Nat :=
  match s.cfg.groupOrder with
  | .ascending => List.range s.eng.g
  | .any => s.eng.converted

theorem convertedGroups_ascending {s : State} (h : s.cfg.groupOrder = .ascending) :
    convertedGroups s = List.range s.eng.g := by simp only [convertedGroups, h]

theorem convertedGroups_any {s : State} (h : s.cfg.groupOrder = .any) : convertedGroups s = s.eng.converted := by
  simp only [convertedGroups, h]

/-- A group step converts the group in hand and no other. -/
theorem mem_convertedGroups_convertGroup {s : State} {x : Nat} :
    x ∈ convertedGroups s.convertGroup ↔ x = s.curGroup ∨ x ∈ convertedGroups s := by
  obtain ⟨hcfg, -⟩ := convertGroup_rest s
  cases ho : s.cfg.groupOrder with
  | ascending =>
    rw [convertedGroups_ascending (hcfg ▸ ho), convertedGroups_ascending ho, convertGroup_g, curGroup_ascending ho,
      List.mem_range, List.mem_range]
    omega
  | any =>
    rw [convertedGroups_any (hcfg ▸ ho), convertedGroups_any ho, convertGroup_converted, if_pos ho, List.mem_cons]

section Position

variable {s : State} (hp : s.eng.position s.cfg = true)
include hp

/-- The groups converted so far are `g` different groups of the command. -/
theorem convertedGroups_of_position :
    (convertedGroups s).Nodup ∧ (convertedGroups s).length = s.eng.g ∧ ∀ x ∈ convertedGroups s, x < s.eng.gTotal := by
  cases ho : s.cfg.groupOrder with
  | ascending =>
    rw [convertedGroups_ascending ho]
    exact ⟨List.nodup_range, List.length_range, fun x hx => (List.mem_range.mp hx).trans (position_lt hp)⟩
  | any =>
    rw [convertedGroups_any ho]
    exact position_any hp ho

theorem curGroup_not_mem_convertedGroups : s.curGroup ∉ convertedGroups s := by
  obtain ⟨-, hascending, hany⟩ := groupInHandIsUnconverted s hp
  cases ho : s.cfg.groupOrder with
  | ascending =>
    rw [convertedGroups_ascending ho, hascending ho]
    exact List.not_mem_range_self
  | any =>
    rw [convertedGroups_any ho]
    exact (hany ho).1

/-- After the last group step every group of the command is converted: `G_TOTAL` different ones are. -/
theorem mem_convertedGroups_of_last (hlast : s.eng.g + 1 = s.eng.gTotal) {x : Nat} (hx : x < s.eng.gTotal) :
    x ∈ convertedGroups s.convertGroup := by
  obtain ⟨hnodup, hlength, hbound⟩ := convertedGroups_of_position hp
  have hsub : s.curGroup :: convertedGroups s ⊆ List.range s.eng.gTotal :=
    List.cons_subset.mpr ⟨List.mem_range.mpr (curGroup_lt hp), fun y hy => List.mem_range.mpr (hbound y hy)⟩
  have hperm : (s.curGroup :: convertedGroups s).Perm (List.range s.eng.gTotal) :=
    ((List.nodup_cons.mpr ⟨curGroup_not_mem_convertedGroups hp, hnodup⟩).subperm hsub).perm_of_length_le (by
      rw [List.length_range, List.length_cons, hlength, hlast])
  rw [mem_convertedGroups_convertGroup]
  exact List.mem_cons.mp (hperm.mem_iff.mpr (List.mem_range.mpr hx))

end Position

/-- Byte `k` of the pixel buffer of the command in `s`: byte `k mod 4` of pixel `k / 4` (20_memory.md rule R41). -/
def pixelByte (s : State) (k : Nat) : Byte := BitVec.ofNat 8 ((pixelAt s (k / 4)).toNat / 256 ^ (k % 4))

/-- `t` is a moment of the command that stands in `s`: the groups converted so far have their pixels in memory, and
every byte outside the pixel buffer is as in `s`. -/
structure Converts (s t : State) : Prop where
  cfg    : t.cfg = s.cfg
  get    : ∀ o, t.eng.get o = s.eng.get o
  pixels : ∀ k, k < 4 * s.eng.samples → k / 16 ∈ convertedGroups t →
    memRead t.mem (s.eng.num .outBase + k) = pixelByte s k
  others : ∀ a, ¬ InPixels s.eng a → memRead t.mem a = memRead s.mem a

theorem converts_of_none_converted {s : State} (h : convertedGroups s = []) : Converts s s :=
  ⟨rfl, fun _ => rfl, fun k _ hk => by simp [h] at hk, fun _ _ => rfl⟩

theorem Converts.congr {s t u : State} (h : Converts s t) (hcfg : u.cfg = t.cfg) (heng : u.eng = t.eng)
    (hmem : u.mem = t.mem) : Converts s u := by
  have hgroups : convertedGroups u = convertedGroups t := by simp only [convertedGroups, hcfg, heng]
  exact ⟨hcfg.trans h.cfg, fun o => heng ▸ h.get o, fun k hk hg => hmem ▸ h.pixels k hk (hgroups ▸ hg),
    fun a ha => hmem ▸ h.others a ha⟩

/-- The samples stay as they were: the planes of an accepted command are clear of its pixel buffer. -/
theorem Converts.pixelAt_eq {s t : State} (h : Converts s t) (hclear : t.eng.selfAlias = false) {i : Nat}
    (hi : i < s.eng.samples) : pixelAt t i = pixelAt s i := by
  have hsame : s.eng.selfAlias = t.eng.selfAlias := by
    simp only [Engine.selfAlias, planes_congr h.get, outRegion_congr h.get]
  have kept (a : Nat) (ha : InPlanes s.eng a) : memRead t.mem a = memRead s.mem a :=
    h.others a fun hpixels => selfAlias_eq_false_iff.mp (hsame.trans hclear) a ⟨hpixels, ha⟩
  have hbyte (base : Nat) : InRun base (sampleCount s.eng) (base + i) := inRun_iff_offset.mpr ⟨i, hi, rfl⟩
  simp only [pixelAt, sample, h.cfg, num_congr h.get, kept _ (.inl (hbyte _)), kept _ (.inr (.inl (hbyte _))),
    kept _ (.inr (.inr (hbyte _)))]

theorem groupPixels_get_eq_pixelAt (s : State) {i : Nat} (hi : i < 4) :
    s.groupPixels.get i = pixelAt s (4 * s.curGroup + i) := by
  simp only [groupPixels_get s hi, pixelAt, sample, Nat.add_assoc]

/-- A group step of the command brings the pixels of one more group into memory. -/
theorem Converts.convertGroup {s t : State} (h : Converts s t) (hi : t.Inv) (hb : t.eng.run = .busy) :
    Converts s t.convertGroup := by
  obtain ⟨hcfg, -⟩ := convertGroup_rest t
  obtain ⟨hlaunchable, hp⟩ := (inv_eng hi).busy hb
  obtain ⟨-, -, -, -, -, -, hclear⟩ := launchable_parts hlaunchable
  have hcur : t.curGroup < s.eng.gTotal := gTotal_congr h.get ▸ curGroup_lt hp
  have hN := samples_eq s.eng
  have hout := num_congr h.get .outBase
  refine ⟨hcfg.trans h.cfg, fun o => (convertGroup_get t o).trans (h.get o), fun k hk hg => ?_, fun a ha => ?_⟩
  · rw [convertGroup_mem, memRead_storeGroup, hout]
    by_cases hgroup : k / 16 = t.curGroup
    · generalize s.eng.num .outBase = out
      have hlane : 4 * t.curGroup + (out + k - (out + 16 * t.curGroup)) / 4 = k / 4 := by omega
      have hbyte : (out + k - (out + 16 * t.curGroup)) % 4 = k % 4 := by omega
      rw [if_pos (by omega), groupPixels_get_eq_pixelAt t (by omega), hlane, hbyte, h.pixelAt_eq hclear (by omega),
        pixelByte]
    · rw [if_neg (by omega)]
      exact h.pixels k hk ((mem_convertedGroups_convertGroup.mp hg).resolve_left hgroup)
  · rw [memRead_convertGroup_of_not_written fun hw => ha ?_, h.others a ha]
    simp only [InGroupWrites, InRun, hout] at hw
    exact ⟨by omega, by change a < _ + 4 * s.eng.samples; omega⟩

/-- With every group converted, every pixel is in its place (40_convert_command.md rule R116). -/
theorem Converts.memReadLE_pixel {s t : State} (h : Converts s t)
    (hall : ∀ x, x < s.eng.gTotal → x ∈ convertedGroups t) {i : Nat} (hi : i < s.eng.samples) :
    memReadLE t.mem (s.eng.num .outBase + 4 * i) 4 = (pixelAt s i).toNat := by
  have hN := samples_eq s.eng
  rw [memReadLE_of_bytes (v := (pixelAt s i).toNat) fun k hk => ?_]
  · exact Nat.mod_eq_of_lt (pixelAt s i).isLt
  · have hpixel : (4 * i + k) / 4 = i := by omega
    have hbyte : (4 * i + k) % 4 = k := by omega
    rw [Nat.add_assoc, h.pixels (4 * i + k) (by omega) (hall _ (by omega)), pixelByte, hpixel, hbyte]

/-! ## The host waits for the end of a command -/

/-- With no engine before it, the engine in focus is the one in place 0. -/
theorem focus_zero {s : State} (h : s.engL = []) : s.focus 0 = some s := by
  simpa only [State.here, h, List.length_nil] using focus_here s

/-- The engine in focus is the only one, and the mark is clear. -/
structure OneEngine (s : State) : Prop where
  left  : s.engL = []
  right : s.engR = []
  clear : s.refusal = none

theorem OneEngine.length_engines {s : State} (h : OneEngine s) : s.engines.length = 1 := by
  rw [State.engines, h.left, h.right]
  rfl

theorem OneEngine.peers {s : State} (h : OneEngine s) : s.peers = [] := by
  rw [State.peers, h.left, h.right]
  rfl

/-- The oldest pending code is carried out on the only engine. -/
theorem OneEngine.step_code {s : State} {c : Code} {rest : List Event} (h : OneEngine s)
    (hx : s.inbox = .code 0 c :: rest) : step s = runCode c (s.withInbox rest) :=
  step_of_code h.clear hx (focus_zero (s := s.withInbox rest) h.left)

/-- WAIT on the only engine is the oldest pending action. -/
structure HostWaits (t : State) (rest : List Event) : Prop extends OneEngine t where
  inv     : t.Inv
  pending : t.inbox = .wait 0 :: rest

section Waiting

variable {t : State} {rest : List Event} (h : HostWaits t rest)
include h

theorem HostWaits.step_eq : step t = waitRound 0 (t.withInbox rest) := by
  rw [step_of_pending h.clear h.pending, serve, onEngine_of_focus (focus_zero (s := t.withInbox rest) h.left)]

/-- On a DONE engine WAIT is over with a read that returns 2. -/
theorem HostWaits.over (hd : t.eng.run = .done) : step t = .next ((t.withInbox rest).withRdata 2) :=
  h.step_eq.trans (waitRound_of_done hd)

/-- On a BUSY engine a round of WAIT is a read and a group step of its command, and WAIT goes on (log 18). -/
theorem HostWaits.round {s : State} (hc : Converts s t) (hb : t.eng.run = .busy) : ∃ u : State,
    Host.Core.run Sys2Proof.core 2 t = .next u ∧ HostWaits u rest ∧ Converts s u ∧ u.eng.g = t.eng.g + 1 ∧
      (u.eng.run = .busy ∨ u.eng.run = .done ∧ ∀ x, x < s.eng.gTotal → x ∈ convertedGroups u) := by
  let v := (t.withRdata t.eng.run.statusWord).withInbox (.code 0 (.stage 0) :: .wait 0 :: rest)
  let w := (t.withRdata t.eng.run.statusWord).withInbox (.wait 0 :: rest)
  have hnot : (t.withInbox rest).eng.run ≠ .done := by rw [withInbox_eng, hb]; decide
  have hread : step t = .next v := by
    rw [h.step_eq, waitRound_of_not_done hnot, withInbox_engines, h.length_engines]
    rfl
  have hw : w.Inv := inv_congr h.inv rfl rfl rfl
  have hwb : w.eng.run = .busy := hb
  have hs := storeFault_none_of_inv hwb hw
  have hturn : step v = .next w.convertGroup := by
    have hone : OneEngine v := ⟨h.left, h.right, h.clear⟩
    rw [hone.step_code rfl]
    exact exec_group_of_reach hwb (loadFault_none_of_inv hwb hw) hs
  have hcw : Converts s w := hc.congr rfl rfl rfl
  obtain ⟨-, hL, hR, hrefusal, -, -, hinbox⟩ := convertGroup_rest w
  refine ⟨w.convertGroup, run_snoc (run_of_step hread) hturn, ⟨⟨hL.trans h.left, hR.trans h.right,
    hrefusal.trans h.clear⟩, convertGroup_inv hw hwb hs, hinbox⟩, hcw.convertGroup hw hwb, convertGroup_g w, ?_⟩
  rw [convertGroup_run, ← gTotal_congr hcw.get]
  by_cases hlast : w.eng.g + 1 = w.eng.gTotal
  · exact .inr ⟨if_pos hlast, fun x => mem_convertedGroups_of_last ((inv_eng hw).busy hwb).2 hlast⟩
  · exact .inl ((if_neg hlast).trans hwb)

end Waiting

/-- WAIT during a command goes on to the command's end: each round brings it one group nearer. -/
theorem HostWaits.ends {s t : State} {rest : List Event} (h : HostWaits t rest) (hc : Converts s t)
    (hb : t.eng.run = .busy) : ∃ n u, Host.Core.run Sys2Proof.core n t = .next u ∧ u.inbox = rest ∧
      u.eng.run = .done ∧ u.rdata = 2 ∧ Converts s u ∧ ∀ x, x < s.eng.gTotal → x ∈ convertedGroups u := by
  have inRange {t : State} (h : HostWaits t rest) (hc : Converts s t) (hb : t.eng.run = .busy) :
      t.eng.g < s.eng.gTotal := gTotal_congr hc.get ▸ position_lt ((inv_eng h.inv).busy hb).2
  induction hleft : s.eng.gTotal - t.eng.g using Nat.strong_induction_on generalizing t with
  | h left ih =>
    have hlt := inRange h hc hb
    obtain ⟨u, hround, hwaits, hcu, hg, hbusy | ⟨hdone, hall⟩⟩ := h.round hc hb
    · obtain ⟨n, v, hrun, hend⟩ := ih _ (by omega) hwaits hcu hbusy rfl
      exact ⟨n + 2, v, run_add hround hrun, hend⟩
    · exact ⟨3, _, run_snoc hround (hwaits.over hdone), rfl, hdone, rfl, hcu.congr rfl rfl rfl, hall⟩

/-! ## The launch of a legal command -/

/-- The operands of a command are legal, byte by byte (40_convert_command.md rule R112). -/
structure LegalOperands (s : State) : Prop where
  written  : Written s.eng
  dims     : DimsPositive s.eng
  aligned  : BasesAligned s.cfg s.eng
  inSpace  : RegionsInSpace s.cfg s.eng
  admitted : BytesAdmitted s
  noAlias  : NoAlias s

/-- On the only engine the launch checks accept every command whose operands are legal. -/
theorem LegalOperands.launch {s : State} (h : LegalOperands s) (hone : OneEngine s) (hidle : s.eng.run ≠ .busy) :
    launch s = .next (started s) := by
  have hdims : s.eng.num .blockCols ≠ 0 ∧ s.eng.num .blockRows ≠ 0 := h.dims
  have hlaunchable : s.eng.launchable s.cfg s.csrBlocks = true := by
    rw [Engine.launchable, allWritten_iff.mpr h.written, decide_eq_true hdims, aligned_iff.mpr h.aligned,
      inSpace_iff.mpr h.inSpace, admitted_of_bytesAdmitted h.admitted, selfAlias_eq_false_iff.mpr h.noAlias.1]
    rfl
  have hcheck : launchCheck s = none := (launchCheck_none s).mpr ⟨hidle, hlaunchable, by simp [hone.peers]⟩
  rw [Machine.launch, hcheck]

/-- A command that has just started has no group converted. -/
theorem convertedGroups_started (s : State) : convertedGroups (started s) = [] := by
  cases ho : s.cfg.groupOrder with
  | ascending => exact convertedGroups_ascending (s := started s) ho
  | any => exact convertedGroups_any (s := started s) ho

/-! ## The host program CONVERT -/

theorem exec_wrreg_of_fits {s : State} {o : OpReg} {w : Word64} (hidle : s.eng.run ≠ .busy)
    (hw : w.toNat < 2 ^ fieldWidth s.cfg o) :
    exec (.wrreg (.op o) w) s = .next (s.withEng (s.eng.set o ⟨w, true⟩)) := by
  have hfits : fitsField (fieldWidth s.cfg o) w = true := decide_eq_true hw
  rw [exec, execWrreg, if_neg hidle, hfits, Bool.not_true, if_neg Bool.false_ne_true, writeOperand, lowField_of_lt hw]

/-- The writes of a list of operand registers. -/
def operandWrites (ops : List (OpReg × Nat)) : List Event := ops.map fun p => wr 0 (.op p.1) p.2

/-- The engine after these writes. -/
def writeOperands (e : Engine) (ops : List (OpReg × Nat)) : Engine :=
  ops.foldl (fun e p => e.set p.1 ⟨BitVec.ofNat 64 p.2, true⟩) e

@[simp] theorem writeOperands_run (e : Engine) (ops : List (OpReg × Nat)) : (writeOperands e ops).run = e.run := by
  induction ops generalizing e with
  | nil => rfl
  | cons p ops ih => exact (ih _).trans (set_run _ _ _)

/-- While the engine is not BUSY, writes of values that fit are all carried out. -/
theorem run_operandWrites {s : State} {ops : List (OpReg × Nat)} {rest : List Event} (hone : OneEngine s)
    (hidle : s.eng.run ≠ .busy) (hx : s.inbox = operandWrites ops ++ rest)
    (hfits : ∀ p ∈ ops, (BitVec.ofNat 64 p.2).toNat < 2 ^ fieldWidth s.cfg p.1) :
    Host.Core.run Sys2Proof.core ops.length s = .next ((s.withEng (writeOperands s.eng ops)).withInbox rest) := by
  induction ops generalizing s with
  | nil => subst hx; rfl
  | cons p ops ih =>
    obtain ⟨o, v⟩ := p
    have hwrite := exec_wrreg_of_fits (s := s.withInbox (operandWrites ops ++ rest)) hidle (hfits (o, v) (by simp))
    have hstep := (hone.step_code hx).trans ((runCode_encode (i := .wrreg (.op o) _) rfl _).trans hwrite)
    rw [List.length_cons, run_of_step hstep]
    exact ih ⟨hone.left, hone.right, hone.clear⟩ (by rwa [withEng_eng, set_run]) rfl fun p hp => hfits p (by simp [hp])

/-- START is the launch of the command in the registers. -/
theorem OneEngine.step_start {s : State} {rest : List Event} (h : OneEngine s) (hx : s.inbox = wr 0 .ctrl 1 :: rest) :
    step s = launch (s.withInbox rest) :=
  (h.step_code hx).trans (runCode_encode (i := .convert) rfl _)

/-- The writes of legal operands, START and WAIT run to the end of the command in the registers written. -/
theorem run_program {s u : State} {ops : List (OpReg × Nat)} {rest : List Event} (hinv : s.Inv) (hone : OneEngine s)
    (hidle : s.eng.run ≠ .busy) (hx : s.inbox = operandWrites ops ++ wr 0 .ctrl 1 :: .wait 0 :: rest)
    (hfits : ∀ p ∈ ops, (BitVec.ofNat 64 p.2).toNat < 2 ^ fieldWidth s.cfg p.1)
    (hu : u = s.withEng (writeOperands s.eng ops)) (hlegal : LegalOperands u) :
    ∃ n t, Host.Core.run Sys2Proof.core n s = .next t ∧ t.inbox = rest ∧ t.eng.run = .done ∧ t.rdata = 2 ∧
      (∀ i, i < u.eng.samples → memReadLE t.mem (u.eng.num .outBase + 4 * i) 4 = (pixelAt u i).toNat) ∧
      (∀ a, ¬ InPixels u.eng a → memRead t.mem a = memRead u.mem a) := by
  let p := u.withInbox (wr 0 .ctrl 1 :: .wait 0 :: rest)
  let v := u.withInbox (.wait 0 :: rest)
  have hwrites : Host.Core.run Sys2Proof.core ops.length s = .next p := by
    subst hu
    exact run_operandWrites hone hidle hx hfits
  have honeu : OneEngine u := by subst hu; exact ⟨hone.left, hone.right, hone.clear⟩
  have honep : OneEngine p := ⟨honeu.left, honeu.right, honeu.clear⟩
  have honev : OneEngine v := ⟨honeu.left, honeu.right, honeu.clear⟩
  have hidlev : v.eng.run ≠ .busy := by
    rwa [withInbox_eng, hu, withEng_eng, writeOperands_run]
  have hlegalv : LegalOperands v :=
    ⟨hlegal.written, hlegal.dims, hlegal.aligned, hlegal.inSpace, hlegal.admitted, hlegal.noAlias⟩
  have hstart := run_snoc hwrites ((honep.step_start rfl).trans (hlegalv.launch honev hidlev))
  have hwaits : HostWaits (started v) rest :=
    ⟨⟨honeu.left, honeu.right, honeu.clear⟩, run_inv hinv hstart, rfl⟩
  obtain ⟨n, t, hrun, hinbox, hdone, hrdata, hc, hall⟩ :=
    hwaits.ends (converts_of_none_converted (convertedGroups_started v)) rfl
  exact ⟨_, t, run_add hstart hrun, hinbox, hdone, hrdata, fun i => hc.memReadLE_pixel hall, hc.others⟩

/-- A value that fits a register of the widths rule R6 allows is its own low 64 bits. -/
theorem toNat_ofNat_of_lt {f v : Nat} (hf : f ≤ 64) (hv : v < 2 ^ f) : (BitVec.ofNat 64 v).toNat = v := by
  rw [BitVec.toNat_ofNat, Nat.mod_eq_of_lt (lt_of_lt_of_le hv (Nat.pow_le_pow_right (by decide) hf))]

theorem legal_widths {c : Config} (h : c.legal = true) : c.addrW ≤ 64 ∧ c.dimW ≤ 64 := by
  simp only [Config.legal, Bool.and_eq_true, decide_eq_true_eq] at h
  omega

/-- Settles O60: the six writes make the operands, the launch checks accept them, and WAIT goes on to the end. -/
theorem convertProgramWritesEveryPixel : Obligations.ConvertProgramWritesEveryPixel := by
  intro s u l cb cr out bc br rest hinv hL hR hclear hidle hx hl hcb hcr hout hbc hbr hu hdims haligned hspace
    hadmitted halias
  obtain ⟨haddrW, hdimW⟩ := legal_widths hinv.cfgLegal
  have hlv := toNat_ofNat_of_lt haddrW hl
  have hcbv := toNat_ofNat_of_lt haddrW hcb
  have hcrv := toNat_ofNat_of_lt haddrW hcr
  have houtv := toNat_ofNat_of_lt haddrW hout
  have hbcv := toNat_ofNat_of_lt hdimW hbc
  have hbrv := toNat_ofNat_of_lt hdimW hbr
  let ops : List (OpReg × Nat) :=
    [(.lumaBase, l), (.cbBase, cb), (.crBase, cr), (.outBase, out), (.blockCols, bc), (.blockRows, br)]
  have hfits : ∀ p ∈ ops, (BitVec.ofNat 64 p.2).toNat < 2 ^ fieldWidth s.cfg p.1 := by
    simp only [ops, List.forall_mem_cons, fieldWidth, hlv, hcbv, hcrv, houtv, hbcv, hbrv]
    exact ⟨hl, hcb, hcr, hout, hbc, hbr, nofun⟩
  have hwritten : Written u.eng := by subst hu; intro o; cases o <;> rfl
  obtain ⟨n, t, hrun, hinbox, hdone, hrdata, hpixels, hothers⟩ :=
    run_program (ops := ops) hinv ⟨hL, hR, hclear⟩ hidle hx hfits hu
      ⟨hwritten, hdims, haligned, hspace, hadmitted, halias⟩
  refine ⟨n, t, hrun, hinbox, hdone, hrdata, ?_, ?_⟩
  · subst hu
    simpa only [Engine.samples, Engine.num, Engine.get, pixelAt, sample, hlv, hcbv, hcrv, houtv, hbcv, hbrv]
      using hpixels
  · subst hu
    have hsize : 4 * (64 * bc * br) = 256 * bc * br := by ring
    simpa only [InPixels, sampleCount, Engine.num, Engine.get, houtv, hbcv, hbrv, hsize] using hothers

end Sys2Proof.Proofs

/-! PROOFS. The operations of 40_convert_command.md one by one: the pixel function (R117), the host actions WRREG, RDREG
and CTRLNOP (R110, R111, R115), the launch checks of CONVERT (R112) and the group step (R113). -/

namespace Sys2Proof.Proofs

open Sys2Proof Sys2Proof.Machine Sys2Proof.Claims

/-! ## A pixel -/

/-- A pixel word is the four bytes Alpha 0, Red, Green and Blue side by side (42_pixel_packer.md R83). -/
theorem packLane_eq_append (r g b : Byte) : packLane r g b = 0#8 ++ r ++ g ++ b := by
  ext i hi
  simp only [packLane, BitVec.getElem_or, BitVec.getElem_shiftLeft, BitVec.getElem_setWidth]
  grind

theorem packLane_blue (r g b : Byte) : (packLane r g b).extractLsb' 0 8 = b := by
  rw [packLane_eq_append, BitVec.extractLsb'_append_eq_right]

theorem packLane_green (r g b : Byte) : (packLane r g b).extractLsb' 8 8 = g := by
  rw [packLane_eq_append, BitVec.extractLsb'_append_eq_of_le (by decide)]
  exact BitVec.extractLsb'_append_eq_right

theorem packLane_red (r g b : Byte) : (packLane r g b).extractLsb' 16 8 = r := by
  rw [packLane_eq_append, BitVec.extractLsb'_append_eq_of_le (by decide),
    BitVec.extractLsb'_append_eq_of_le (by decide)]
  exact BitVec.extractLsb'_append_eq_right

theorem packLane_alpha (r g b : Byte) : (packLane r g b).extractLsb' 24 8 = 0 := by
  rw [packLane_eq_append, BitVec.extractLsb'_append_eq_of_le (by decide),
    BitVec.extractLsb'_append_eq_of_le (by decide)]
  exact BitVec.extractLsb'_append_eq_left

/-- The two-stage narrow is the clamp (42_pixel_packer.md R85): a value above 255 saturates in the first stage or in
the second. -/
theorem satU8_satU16_toNat (v : BitVec 32) : ((satU8 (satU16 v)).toNat : Int) = clamp255 v.toInt := by
  have h16 := satU16_toNat v
  rw [satU8_toNat, clamp255]
  split_ifs at h16 ⊢ <;> omega

theorem ch8_toNat (t : CvtTies) (f : F32) : ((ch8 t f).toNat : Int) = clamp255 (cvtS32 t f).toInt :=
  satU8_satU16_toNat _

/-- The bias, the literal 128.0, is exact (41_csc_matrix.md R60). -/
theorem kBias_eq : kBias = ⟨128 * 2 ^ 149⟩ := by decide

theorem centerLane_eq (c : F32) : centerLane c = fsub c ⟨128 * 2 ^ 149⟩ := by rw [centerLane, kBias_eq]

/-- Settles O41: the bytes of the packed word are 0 and the three narrowed channels, and the narrow is the clamp. -/
theorem pixelIsAlphaAndThreeChannels : Obligations.PixelIsAlphaAndThreeChannels := by
  intro c y cb cr
  simp only [pix, packLane_alpha, packLane_red, packLane_green, packLane_blue, ch8_toNat, redLane, greenLane, blueLane,
    centerLane_eq, and_self]

/-! ## WRREG, RDREG and CTRLNOP -/

theorem exec_wrreg_of_busy {s : State} {o : OpReg} {w : Word64} (hb : s.eng.run = .busy) :
    exec (.wrreg (.op o) w) s = .refused .refBusy := by
  rw [exec, execWrreg, if_pos hb]

/-- A write of `CTRL` is CONVERT or CTRLNOP by its data. -/
theorem decodeWrite_ctrl_ok {w : Word64} {i : Instr} (h : decodeWrite .ctrl w = .ok i) :
    (w = 1 ∧ i = .convert) ∨ (w = 0 ∧ i = .ctrlnop) := by
  rw [decodeWrite] at h
  split at h
  case isTrue hone => cases h; exact .inl ⟨hone, rfl⟩
  case isFalse =>
    split at h
    case isTrue hzero => cases h; exact .inr ⟨hzero, rfl⟩
    case isFalse => cases h

/-- Settles O14: the checks in their order, and an accepted write replaces one register of the engine. -/
theorem wrregMeaning : Obligations.WrregMeaning := by
  refine ⟨fun _ _ => rfl, fun w i h => decodeWrite_ctrl_ok ((decode_write_slot .ctrl w).symm.trans h),
    fun _ _ _ => exec_wrreg_of_busy, fun _ _ _ => exec_wrreg_of_not_fits, fun s o w hidle hw => ?_⟩
  exact ⟨_, exec_wrreg_of_fits hidle hw, get_set_same _ _ _, fun o' ho => get_set_other _ _ _ _ ho, set_port _ _ _,
    ⟨set_run _ _ _, set_g _ _ _, set_converted _ _ _, set_freeIdx _ _ _⟩, set_dp _ _ _, rfl, rfl,
    rfl, rfl, rfl, rfl, rfl, rfl⟩

theorem exec_rdreg_of_unwritten {s : State} {o : OpReg} (h : (s.eng.get o).written = false) :
    exec (.rdreg (.op o)) s = .refused .refUnwritten := by
  rw [exec, execRdreg, h, if_neg Bool.false_ne_true]

theorem exec_rdreg_of_written {s : State} {o : OpReg} (h : (s.eng.get o).written = true) :
    exec (.rdreg (.op o)) s = .next (s.withRdata (s.eng.get o).value) := by
  rw [exec, execRdreg, if_pos h]

/-- Settles O15: a read that is not refused replaces `rdata` and nothing else. -/
theorem rdregMeaning : Obligations.RdregMeaning := by
  obtain ⟨hidle, hbusy, hdone, -⟩ := statusHasThreeValues
  have status {s : State} {r : Run} {v : Word64} (hv : r.statusWord = v) (hr : s.eng.run = r) :
      (s.withRdata s.eng.run.statusWord).rdata = v := by rw [withRdata_rdata, hr, hv]
  exact ⟨fun _ => rfl, fun s => ⟨s.withRdata s.eng.run.statusWord, rfl, rfl, status hidle, status hbusy, status hdone⟩,
    fun _ _ => exec_rdreg_of_unwritten, fun _ _ => exec_rdreg_of_written⟩

/-- Settles O16: the data 0 selects CTRLNOP, whose answer is the state it is given. -/
theorem ctrlnopMeaning : Obligations.CtrlnopMeaning :=
  ⟨decode_write_slot .ctrl 0, fun _ => rfl⟩

/-! ## The launch checks of CONVERT -/

/-- In the address space, the regions of a command are admitted exactly when each of their bytes is. -/
theorem admitted_iff {s : State} (hspace : RegionsInSpace s.cfg s.eng) :
    s.eng.admitted s.cfg s.csrBlocks = true ↔ BytesAdmitted s := by
  refine ⟨fun h => ?_, admitted_of_bytesAdmitted⟩
  have hin := inSpace_iff.mpr hspace
  simp only [Engine.inSpace, List.all_eq_true, decide_eq_true_eq] at hin
  simp only [Engine.admitted, Bool.and_eq_true, List.all_eq_true] at h
  simp only [BytesAdmitted, State.mayRead, State.mayWrite, Bool.and_eq_true]
  obtain ⟨hplanes, hout⟩ := h
  refine ⟨fun a ha => ?_, fun a ha => ?_⟩
  · obtain ⟨r, hr, hra⟩ := (anyHas_iff _ _).mp (anyHas_planes_iff.mpr ha)
    exact admits_byte (hplanes r hr) (hin r (List.mem_append_left [s.eng.outRegion] hr)) hra
  · exact admits_byte hout (hin _ (List.mem_append_right s.eng.planes (List.mem_singleton_self _)))
      (has_outRegion_iff.mpr ha)

/-- A run of bytes meets one of a list exactly when they share a byte. -/
theorem anyMeets_iff_byte {l : List Span} {r : Span} :
    anyMeets l r = true ↔ ∃ a, anyHas l a = true ∧ Span.has r a = true := by
  simp only [anyMeets_iff, anyHas_iff, meets_iff]
  exact ⟨fun ⟨t, ht, a, hta, hra⟩ => ⟨a, ⟨t, ht, hta⟩, hra⟩, fun ⟨a, ⟨t, ht, hta⟩, hra⟩ => ⟨t, ht, a, hta, hra⟩⟩

theorem anyHas_regions_iff {e : Engine} {a : Nat} : anyHas e.regions a = true ↔ InPlanes e a ∨ InPixels e a := by
  have hsplit : anyHas e.regions a = (anyHas e.planes a || anyHas [e.outRegion] a) :=
    List.any_append (xs := e.planes) (ys := [e.outRegion])
  rw [hsplit, Bool.or_eq_true, anyHas_planes_iff, ← has_outRegion_iff, anyHas, List.any_cons, List.any_nil,
    Bool.or_false]

/-- A command is in no conflict with another engine exactly when that one does not run or the regions of the two share
no byte that either writes (20_memory.md R56). -/
theorem conflicts_eq_false_iff {e f : Engine} : e.conflicts f = false ↔ (f.run = .busy → ∀ a,
    ¬ (InPixels e a ∧ (InPlanes f a ∨ InPixels f a)) ∧ ¬ (InPlanes e a ∧ InPixels f a)) := by
  simp only [Engine.conflicts, Bool.eq_false_iff, ne_eq, Bool.and_eq_true, Bool.or_eq_true, decide_eq_true_eq,
    anyMeets_iff_byte, anyHas_regions_iff, anyHas_planes_iff, has_outRegion_iff, not_and, not_or, not_exists,
    forall_and]
  grind

theorem noAlias_iff {s : State} : NoAlias s ↔ s.eng.selfAlias = false ∧ ∀ f ∈ s.peers, s.eng.conflicts f = false := by
  simp only [NoAlias, selfAlias_eq_false_iff, conflicts_eq_false_iff]

theorem aliasCheck_iff {s : State} : (s.eng.selfAlias || s.peers.any s.eng.conflicts) = true ↔ ¬ NoAlias s := by
  rw [noAlias_iff, ← Bool.not_eq_false, Bool.or_eq_false_iff, List.any_eq_false]
  simp only [Bool.not_eq_true]

open Classical in
/-- The launch checks byte by byte, in their order. -/
theorem launchCheck_eq (s : State) : launchCheck s =
    if s.eng.run = .busy then some .refBusy
    else if ¬ Written s.eng then some .refUnwritten
    else if ¬ DimsPositive s.eng then some .refDimZero
    else if ¬ BasesAligned s.cfg s.eng then some .refMisaligned
    else if ¬ RegionsInSpace s.cfg s.eng then some .refRegionWrap
    else if ¬ BytesAdmitted s then some .refRegionNotAdmitted
    else if ¬ NoAlias s then some .refAlias
    else none := by
  have hdims : (s.eng.num .blockCols = 0 ∨ s.eng.num .blockRows = 0) ↔ ¬ DimsPositive s.eng := by
    rw [DimsPositive]; omega
  simp only [launchCheck, Bool.not_eq_true', ← Bool.not_eq_true, allWritten_iff, aligned_iff, inSpace_iff,
    aliasCheck_iff, hdims]
  by_cases hspace : RegionsInSpace s.cfg s.eng
  · simp only [admitted_iff hspace]
  · simp only [hspace, not_false_eq_true, if_true]

/-- The start of a command leaves every operand register and its mark. -/
theorem started_get (s : State) (o : OpReg) : (started s).eng.get o = s.eng.get o := by cases o <;> rfl

/-- Settles O17: of the launch checks, read byte by byte, the first that fails decides; with all passed the command
starts. -/
theorem convertMeaning : Obligations.ConvertMeaning := by
  refine ⟨fun s w hw => runCode_of_reject ((decode_write_slot .ctrl w).trans (decodeWrite_ctrl_reserved hw)) s,
    decode_write_slot .ctrl 1, fun s => ?_⟩
  obtain ⟨-, hstatus, -⟩ := statusHasThreeValues
  refine ⟨fun _ => ?_, fun _ _ => ?_, fun _ _ _ => ?_, fun _ _ _ _ => ?_, fun _ _ _ _ _ => ?_, fun _ _ _ _ _ _ => ?_,
    fun _ _ _ _ _ _ _ => ?_, fun _ _ _ _ _ _ _ => ⟨started s, ?_, rfl, rfl, hstatus, ⟨started_get s, rfl⟩, rfl, rfl,
      rfl, rfl, rfl, rfl, rfl, rfl, rfl⟩⟩
  all_goals
    simp only [exec, execConvert, launch, launchCheck_eq, *, not_true, not_false_eq_true, if_true, if_false]

/-! ## The steps of the engine -/

/-- Settles O18: each of the eleven is gated, and the gate answers the same state unless the engine is BUSY. -/
theorem engineStepsNeedBusy : Obligations.EngineStepsNeedBusy := by
  intro s i hidle hi
  simp only [List.mem_cons, List.not_mem_nil, or_false] at hi
  rcases hi with rfl | rfl | rfl | rfl | rfl | rfl | rfl | rfl | rfl | rfl | rfl
  all_goals
    simp only [exec, execGroup, execLdw, execCenter, execMatr, execMatg, execMatb, execCvt, execSat16, execSat8,
      execPack, execStore, whenBusy_of_not_busy hidle]

/-- The search finds a BUSY engine with none before it that is BUSY. -/
theorem firstBusy_eq_some {l : List Engine} {k : Nat} {e : Engine} (j : Nat) (he : l[k]? = some e)
    (hb : e.run = .busy) (hfirst : ∀ i f, i < k → l[i]? = some f → f.run ≠ .busy) :
    firstBusy l j = some (j + k) := by
  induction l generalizing j k with
  | nil => cases he
  | cons f l ih =>
    cases k with
    | zero => cases he; rw [firstBusy, if_pos hb]; rfl
    | succ k =>
      rw [firstBusy, if_neg (hfirst 0 f k.succ_pos rfl), ih (j + 1) he fun i g hi => hfirst (i + 1) g (by omega)]
      congr 1; omega

/-- Settles O10: the search for a BUSY engine ends at the first one, which focus brings to hand. -/
theorem busyEngineTakesTheGroupStep : Obligations.BusyEngineTakesTheGroupStep := by
  intro s f k hclear hx hf hb hfirst
  obtain ⟨hplace, hengines, -, hcfg, hmem, -, -, -, hinbox⟩ := focus_eq_some hf
  have hk : firstBusy s.engines 0 = some k := by simpa using firstBusy_eq_some 0 hplace hb hfirst
  refine ⟨?_, hinbox.trans hx, hplace, hengines, hmem, hcfg⟩
  rw [step, hclear, hx]
  simp only [engineTurn, hk, onEngine_of_focus hf]

/-! ## The group step -/

theorem storeFault_eq_none {s : State} (h : ∀ a, InGroupWrites s.eng s.curGroup a → s.mayWrite a = true) :
    s.storeFault = none :=
  List.find?_eq_none.mpr fun a ha => by simp [h a (mem_storeAddrs.mp ha)]

/-- The group step leaves pixel `4g + i` of the group in hand in its place (20_memory.md R44). -/
theorem memReadLE_convertGroup (s : State) {i : Nat} (hi : i < 4) :
    memReadLE s.convertGroup.mem (s.eng.num .outBase + 4 * (4 * s.curGroup + i)) 4 =
      (pixelAt s (4 * s.curGroup + i)).toNat := by
  rw [← Nat.mod_eq_of_lt (pixelAt s (4 * s.curGroup + i)).isLt]
  refine memReadLE_of_bytes fun k hk => ?_
  rw [convertGroup_mem, memRead_storeGroup, ← groupPixels_get_eq_pixelAt s hi]
  generalize s.eng.num .outBase = out
  have hlane : (out + 4 * (4 * s.curGroup + i) + k - (out + 16 * s.curGroup)) / 4 = i := by omega
  have hbyte : (out + 4 * (4 * s.curGroup + i) + k - (out + 16 * s.curGroup)) % 4 = k := by omega
  rw [if_pos (by omega), hlane, hbyte]

theorem convertGroup_dp (s : State) : s.convertGroup.eng.dp = .empty := by rw [convertGroup_eng]

/-- Settles O19: with its bytes within reach GROUP is the group step, which stores the pixels of the group and advances
the counter. -/
theorem groupConvertsItsFourPixels : Obligations.GroupConvertsItsFourPixels := by
  intro s hb hreads hwrites
  obtain ⟨hcfg, hL, hR, hrefusal, hrdata, hmdata, hinbox⟩ := convertGroup_rest s
  obtain ⟨-, hbusy, hdone, -⟩ := statusHasThreeValues
  have hrun := convertGroup_run s
  refine ⟨s.convertGroup, exec_group_of_reach hb (loadFault_eq_none hreads) (storeFault_eq_none hwrites),
    fun i => memReadLE_convertGroup s, fun a => memRead_convertGroup_of_not_written, convertGroup_g s,
    fun hlast => ?_, fun hmore => ?_, ⟨convertGroup_get s, convertGroup_port s⟩, hrdata,
    ⟨hcfg, hL, hR, hrefusal, hinbox, hmdata⟩, convertGroup_dp s⟩
  · rw [hrun, if_pos hlast]
    exact ⟨rfl, hdone⟩
  · rw [hrun, if_neg hmore, hb]
    exact ⟨rfl, hbusy⟩

end Sys2Proof.Proofs

/-! PROOFS. A whole command on the one engine with nothing else pending (40_convert_command.md): its end after `G_TOTAL`
steps (R114), what it leaves in memory (R116), and that this depends on its operands and planes alone, whatever the
order of its groups, its geometry and the parts it is cut into (R118, R119, R121 and R122). -/

namespace Sys2Proof.Proofs

open Sys2Proof Sys2Proof.Machine Sys2Proof.Claims

/-! ## A command step by step -/

/-- `t` is a moment of the command just accepted in `s`, and what no group step touches is as in `s`. -/
structure Underway (s t : State) : Prop extends Converts s t where
  inv    : t.Inv
  port   : t.eng.port = s.eng.port
  rdata  : t.rdata = s.rdata
  around : SameAround s t

section Command

variable {s : State} (h : JustStarted s)
include h

/-- A command just accepted has `g = 0` groups converted. -/
theorem underway_of_justStarted : Underway s s := by
  obtain ⟨hinv, -, -, -, -, hb, hg⟩ := h
  obtain ⟨-, hlength, -⟩ := convertedGroups_of_position ((inv_eng hinv).busy hb).2
  exact ⟨converts_of_none_converted (List.length_eq_zero_iff.mp (hlength.trans hg)), hinv, rfl, rfl,
    rfl, rfl, rfl, rfl, rfl, rfl⟩

/-- While the command is BUSY, the next step is its group step. -/
theorem Underway.step {t : State} (ht : Underway s t) (hb : t.eng.run = .busy) :
    step t = .next t.convertGroup ∧ Underway s t.convertGroup := by
  obtain ⟨-, hL, -, hx, hclear, -⟩ := h
  obtain ⟨hcfg, htL, htR, htclear, htx, htm⟩ := ht.around
  obtain ⟨hcfg', hL', hR', hclear', hrdata', hmdata', hx'⟩ := convertGroup_rest t
  have hs := storeFault_none_of_inv hb ht.inv
  refine ⟨?_, ht.toConverts.convertGroup ht.inv hb, convertGroup_inv ht.inv hb hs, (convertGroup_port t).trans ht.port,
    hrdata'.trans ht.rdata, hcfg'.trans hcfg, hL'.trans htL, hR'.trans htR, hclear'.trans htclear, hx'.trans htx,
    hmdata'.trans htm⟩
  rw [step_of_busy (htclear.trans hclear) (htx.trans hx) (htL.trans hL) hb]
  exact exec_group_of_reach hb (loadFault_none_of_inv hb ht.inv) hs

/-- After `n` steps below `G_TOTAL` the command is BUSY with `n` groups converted. -/
theorem run_underway {n : Nat} (hn : n < s.eng.gTotal) :
    ∃ t : State, Host.Core.run Sys2Proof.core n s = .next t ∧ Underway s t ∧ t.eng.run = .busy ∧ t.eng.g = n := by
  induction n with
  | zero =>
    have ⟨_, _, _, _, _, hb, hg⟩ := h
    exact ⟨s, rfl, underway_of_justStarted h, hb, hg⟩
  | succ n ih =>
    obtain ⟨t, hrun, ht, hb, hg⟩ := ih (by omega)
    obtain ⟨hstep, hnext⟩ := ht.step h hb
    refine ⟨t.convertGroup, run_snoc hrun hstep, hnext, ?_, by rw [convertGroup_g, hg]⟩
    rw [convertGroup_run, gTotal_congr ht.get, if_neg (by omega), hb]

end Command

/-- `t` is the end of the command just accepted in `s`: its `G_TOTAL` steps are taken and every group is converted. -/
structure CommandEnds (s t : State) : Prop extends Underway s t where
  run  : Host.Core.run Sys2Proof.core s.eng.gTotal s = .next t
  done : t.eng.run = .done
  g    : t.eng.g = s.eng.gTotal
  all  : ∀ x, x < s.eng.gTotal → x ∈ convertedGroups t

/-- A command just accepted reaches its end: the last of its groups follows `G_TOTAL - 1` others. -/
theorem exists_commandEnds {s : State} (h : JustStarted s) : ∃ t, CommandEnds s t := by
  have ⟨hinv, _, _, _, _, hb, _⟩ := h
  have hpos := position_lt ((inv_eng hinv).busy hb).2
  obtain ⟨t, hrun, ht, hb, hg⟩ := run_underway h (n := s.eng.gTotal - 1) (by omega)
  obtain ⟨hstep, hnext⟩ := ht.step h hb
  have hlast : t.eng.g + 1 = t.eng.gTotal := by rw [gTotal_congr ht.get]; omega
  have hend := run_snoc hrun hstep
  rw [Nat.sub_add_cancel (by omega)] at hend
  refine ⟨t.convertGroup, hnext, hend, ?_, ?_, ?_⟩
  · rw [convertGroup_run, if_pos hlast]
  · rw [convertGroup_g, hlast, gTotal_congr ht.get]
  · rw [← gTotal_congr ht.get]
    exact fun x => mem_convertedGroups_of_last ((inv_eng ht.inv).busy hb).2 hlast

theorem firstBusy_eq_none {l : List Engine} (h : ∀ e ∈ l, e.run ≠ .busy) (j : Nat) : firstBusy l j = none := by
  induction l generalizing j with
  | nil => rfl
  | cons e l ih =>
    rw [firstBusy, if_neg (h e List.mem_cons_self)]
    exact ih (fun f hf => h f (List.mem_cons_of_mem e hf)) (j + 1)

/-- With nothing pending and no engine BUSY, a step changes nothing (60_exceptions.md R172). -/
theorem step_of_rest {s : State} (hclear : s.refusal = none) (hx : s.inbox = [])
    (hidle : ∀ e ∈ s.engines, e.run ≠ .busy) : step s = .next s := by
  rw [step, hclear, hx]
  simp only [engineTurn, firstBusy_eq_none hidle]

theorem run_of_rest {s : State} (h : step s = .next s) (n : Nat) : Host.Core.run Sys2Proof.core n s = .next s := by
  induction n with
  | zero => rfl
  | succ n ih => rw [run_of_step h, ih]

/-- After its end the one engine rests. -/
theorem CommandEnds.step {s t : State} (h : JustStarted s) (ht : CommandEnds s t) : step t = .next t := by
  obtain ⟨-, hL, hR, hx, hclear, -⟩ := h
  obtain ⟨-, htL, htR, htclear, htx, -⟩ := ht.around
  refine step_of_rest (htclear.trans hclear) (htx.trans hx) fun e he => ?_
  rw [State.engines, htL, htR, hL, hR] at he
  obtain rfl : e = t.eng := List.mem_singleton.mp he
  rw [ht.done]
  decide

/-- Settles O54: each step of a running command converts one group, and after the last one the engine rests. -/
theorem commandEndsAfterGTotalSteps : Obligations.CommandEndsAfterGTotalSteps := by
  intro s h
  obtain ⟨-, -, hdone, -⟩ := statusHasThreeValues
  obtain ⟨t, ht⟩ := exists_commandEnds h
  refine ⟨fun n hn => ?_, t, ht.run, ht.done, ht.g, ht.done ▸ hdone, run_of_rest (ht.step h)⟩
  obtain ⟨u, hrun, -, hb, hg⟩ := run_underway h hn
  exact ⟨u, hrun, hb, hg⟩

/-- Settles O55: at its end the command has converted every group, so every pixel is in its place. -/
theorem commandPostcondition : Obligations.CommandPostcondition := by
  intro s h
  obtain ⟨t, ht⟩ := exists_commandEnds h
  exact ⟨t, ht.run, ht.done, fun i => ht.memReadLE_pixel ht.all, ht.others, ⟨ht.get, ht.port⟩, ht.rdata, ht.around⟩

/-! ## What the pixels depend on -/

/-- The command in `u` converts, under the same arithmetic, the samples of the command in `s` from index `off` on. -/
structure PartOf (s u : State) (off : Nat) : Prop where
  coeffSet : u.cfg.coeffSet = s.cfg.coeffSet
  cvtTies  : u.cfg.cvtTies = s.cfg.cvtTies
  luma     : u.eng.num .lumaBase = s.eng.num .lumaBase + off
  cb       : u.eng.num .cbBase = s.eng.num .cbBase + off
  cr       : u.eng.num .crBase = s.eng.num .crBase + off
  out      : u.eng.num .outBase = s.eng.num .outBase + 4 * off
  inside   : off + u.eng.samples ≤ s.eng.samples

/-- The planes of the command in `s` hold the same bytes in `u`. -/
def SamePlanes (s u : State) : Prop := ∀ a, InPlanes s.eng a → memRead u.mem a = memRead s.mem a

/-- `PIX` depends on the coefficients, the tie rule and the three samples (40_convert_command.md R117). -/
theorem pix_congr {c d : Config} (hcoeff : d.coeffSet = c.coeffSet) (hties : d.cvtTies = c.cvtTies) (y cb cr : Byte) :
    pix d y cb cr = pix c y cb cr := by
  rw [pix, pix, hcoeff, hties]

/-- At the end of the command every byte of its pixel buffer is in place. -/
theorem CommandEnds.memRead_pixel {s t : State} (h : CommandEnds s t) {k : Nat} (hk : k < 4 * s.eng.samples) :
    memRead t.mem (s.eng.num .outBase + k) = pixelByte s k := by
  have hN := samples_eq s.eng
  exact h.pixels k hk (h.all _ (by omega))

section Part

variable {s u : State} {off : Nat} (h : PartOf s u off)
include h

/-- The pixel buffer of a part is a stretch of that of the whole. -/
theorem PartOf.inPixels_iff {k : Nat} :
    InPixels u.eng (s.eng.num .outBase + k) ↔ 4 * off ≤ k ∧ k < 4 * (off + u.eng.samples) := by
  have hsize : sampleCount u.eng = u.eng.samples := rfl
  rw [InPixels, InRun, h.out, hsize]
  omega

theorem PartOf.inPixels {a : Nat} (ha : InPixels u.eng a) : InPixels s.eng a := by
  have hinside := h.inside
  obtain ⟨k, rfl⟩ : ∃ k, a = s.eng.num .outBase + k := by
    obtain ⟨i, -, rfl⟩ := inRun_iff_offset.mp ha
    exact ⟨4 * off + i, by rw [h.out, Nat.add_assoc]⟩
  obtain ⟨-, hup⟩ := h.inPixels_iff.mp ha
  exact inRun_iff_offset.mpr ⟨k, show k < 4 * s.eng.samples by omega, rfl⟩

/-- A pixel of a part is the pixel of the whole at its place. -/
theorem PartOf.pixelAt_eq (hplanes : SamePlanes s u) {i : Nat} (hi : i < u.eng.samples) :
    pixelAt u i = pixelAt s (off + i) := by
  have hin (base : Nat) : InRun base (sampleCount s.eng) (base + (off + i)) :=
    inRun_iff_offset.mpr ⟨off + i, lt_of_lt_of_le (by omega) h.inside, rfl⟩
  simp only [pixelAt, pix_congr h.coeffSet h.cvtTies, sample, h.luma, h.cb, h.cr, Nat.add_assoc,
    hplanes _ (.inl (hin _)), hplanes _ (.inr (.inl (hin _))), hplanes _ (.inr (.inr (hin _)))]

/-- The bytes a part leaves in its pixel buffer are those of the whole. -/
theorem PartOf.memRead_pixel (hplanes : SamePlanes s u) {v : State} (hv : CommandEnds u v) {k : Nat}
    (hk : InPixels u.eng (s.eng.num .outBase + k)) : memRead v.mem (s.eng.num .outBase + k) = pixelByte s k := by
  obtain ⟨hlow, hup⟩ := h.inPixels_iff.mp hk
  obtain ⟨j, rfl⟩ := Nat.exists_eq_add_of_le hlow
  have hpixel := hv.memRead_pixel (k := j) (by omega)
  have hplace : (4 * off + j) / 4 = off + j / 4 := by omega
  have hbyte : (4 * off + j) % 4 = j % 4 := by omega
  rw [h.out, Nat.add_assoc] at hpixel
  rw [hpixel, pixelByte, h.pixelAt_eq hplanes (by omega), pixelByte, hplace, hbyte]

end Part

/-- A command with the same bases and no more samples converts those from index 0 on. -/
theorem partOf_of_bases {s u : State} (hcoeff : u.cfg.coeffSet = s.cfg.coeffSet)
    (hties : u.cfg.cvtTies = s.cfg.cvtTies)
    (hbases : ∀ o, o ≠ .blockCols → o ≠ .blockRows → u.eng.num o = s.eng.num o)
    (hN : u.eng.samples ≤ s.eng.samples) : PartOf s u 0 where
  coeffSet := hcoeff
  cvtTies := hties
  luma := hbases .lumaBase nofun nofun
  cb := hbases .cbBase nofun nofun
  cr := hbases .crBase nofun nofun
  out := hbases .outBase nofun nofun
  inside := by omega

section Whole

variable {s u t v : State} (h : PartOf s u 0) (hN : u.eng.samples = s.eng.samples) (ht : CommandEnds s t)
  (hv : CommandEnds u v)
include h hN ht hv

/-- A command over the same samples leaves the same pixels (40_convert_command.md R122). -/
theorem samePixels_of_whole (hplanes : SamePlanes s u) {a : Nat} (ha : InPixels s.eng a) :
    memRead v.mem a = memRead t.mem a := by
  obtain ⟨k, hk, rfl⟩ := inRun_iff_offset.mp ha
  have hk : k < 4 * s.eng.samples := hk
  rw [ht.memRead_pixel hk, h.memRead_pixel hplanes hv (h.inPixels_iff.mpr ⟨by omega, by omega⟩)]

/-- A command over the same samples, begun with the same memory, leaves the same memory. -/
theorem sameMem_of_whole (hmem : u.mem = s.mem) : SameMem t v := by
  intro a
  by_cases ha : InPixels s.eng a
  · exact samePixels_of_whole h hN ht hv (fun a _ => by rw [hmem]) ha
  · rw [hv.others a (mt h.inPixels ha), hmem, ht.others a ha]

end Whole

/-- Settles O56: the order of the groups is no operand, and neither pixels nor samples depend on it. -/
theorem orderOfGroupsDoesNotMatter : Obligations.OrderOfGroupsDoesNotMatter := by
  intro s u hs hu hmem hget _ hcfg
  obtain ⟨t, ht⟩ := exists_commandEnds hs
  obtain ⟨v, hv⟩ := exists_commandEnds hu
  have hN : u.eng.samples = s.eng.samples := samples_congr hget
  have hpart : PartOf s u 0 :=
    partOf_of_bases (by rw [hcfg]) (by rw [hcfg]) (fun o _ _ => num_congr hget o) hN.le
  exact ⟨t, v, ht.run, hv.run, ht.done, hv.done, sameMem_of_whole hpart hN ht hv hmem⟩

/-- Settles O57: the dimensions enter a command only through the number of its samples. -/
theorem geometryEntersOnlyThroughN : Obligations.GeometryEntersOnlyThroughN := by
  intro s u hs hu hmem hcfg hbases hdims
  obtain ⟨t, ht⟩ := exists_commandEnds hs
  obtain ⟨v, hv⟩ := exists_commandEnds hu
  have hN : u.eng.samples = s.eng.samples := by
    rw [Engine.samples, Engine.samples, Nat.mul_assoc, Nat.mul_assoc, hdims]
  have hpart : PartOf s u 0 := partOf_of_bases (by rw [hcfg]) (by rw [hcfg]) hbases hN.le
  exact ⟨t, v, ht.run, hv.run, ht.done, hv.done, sameMem_of_whole hpart hN ht hv hmem⟩

/-- Settles O58: a pixel depends on the operands, the coefficients, the tie rule and its three samples alone. -/
theorem sameInputsGiveTheSamePixels : Obligations.SameInputsGiveTheSamePixels := by
  intro s u hs hu hcoeff hties hnum hplanes
  obtain ⟨t, ht⟩ := exists_commandEnds hs
  obtain ⟨v, hv⟩ := exists_commandEnds hu
  have hN : u.eng.samples = s.eng.samples := by rw [Engine.samples, Engine.samples, hnum, hnum]
  have hpart : PartOf s u 0 := partOf_of_bases hcoeff hties (fun o _ _ => hnum o) hN.le
  exact ⟨t, v, ht.run, hv.run, ht.done, hv.done, fun a ha => (samePixels_of_whole hpart hN ht hv hplanes ha).symm⟩

/-! ## Two parts of a command -/

theorem selfAlias_of_justStarted {s : State} (h : JustStarted s) : s.eng.selfAlias = false := by
  obtain ⟨hinv, -, -, -, -, hb, -⟩ := h
  obtain ⟨-, -, -, -, -, -, hclear⟩ := launchable_parts ((inv_eng hinv).busy hb).1
  exact hclear

/-- Two parts that together have every sample, the second begun with the memory the first leaves, leave the memory of
the whole: the first writes no byte of a plane, and the second no pixel it does not have. -/
theorem sameMem_of_parts {s p q t v w : State} {m n : Nat} (hs : JustStarted s) (hp : PartOf s p m) (hq : PartOf s q n)
    (hcover : ∀ i, i < s.eng.samples → (m ≤ i ∧ i < m + p.eng.samples) ∨ (n ≤ i ∧ i < n + q.eng.samples))
    (ht : CommandEnds s t) (hv : CommandEnds p v) (hw : CommandEnds q w) (hfirst : p.mem = s.mem)
    (hsecond : q.mem = v.mem) : SameMem t w := by
  have hclear := selfAlias_eq_false_iff.mp (selfAlias_of_justStarted hs)
  have hplanesP : SamePlanes s p := fun a _ => by rw [hfirst]
  have hplanesQ : SamePlanes s q := fun a ha => by
    rw [hsecond, hv.others a fun hpixels => hclear a ⟨hp.inPixels hpixels, ha⟩, hfirst]
  intro a
  by_cases ha : InPixels s.eng a
  · obtain ⟨k, hk, rfl⟩ := inRun_iff_offset.mp ha
    have hk : k < 4 * s.eng.samples := hk
    rw [ht.memRead_pixel hk]
    by_cases hkq : InPixels q.eng (s.eng.num .outBase + k)
    · exact hq.memRead_pixel hplanesQ hw hkq
    · have hplace := hcover (k / 4) (by omega)
      rw [hw.others _ hkq, hsecond]
      rw [hq.inPixels_iff] at hkq
      exact hp.memRead_pixel hplanesP hv (hp.inPixels_iff.mpr (by omega))
  · rw [hw.others a (mt hq.inPixels ha), hsecond, hv.others a (mt hp.inPixels ha), hfirst, ht.others a ha]

/-- Settles O59: the two parts have the samples below and from `N1` on, in either order. -/
theorem twoPartsLeaveTheMemoryOfTheWhole : Obligations.TwoPartsLeaveTheMemoryOfTheWhole := by
  intro s p q hs hp hq hpcoeff hqcoeff hpties hqties hN hbases hluma hcb hcr hout
  obtain ⟨t, ht⟩ := exists_commandEnds hs
  obtain ⟨v, hv⟩ := exists_commandEnds hp
  obtain ⟨w, hw⟩ := exists_commandEnds hq
  have hfirst : PartOf s p 0 := partOf_of_bases hpcoeff hpties hbases (by omega)
  have hlast : PartOf s q p.eng.samples := ⟨hqcoeff, hqties, hluma, hcb, hcr, hout, hN.le⟩
  exact ⟨t, v, w, ht.run, hv.run, hw.run, ht.done, hv.done, hw.done,
    sameMem_of_parts hs hfirst hlast (fun i hi => by omega) ht hv hw,
    sameMem_of_parts hs hlast hfirst (fun i hi => by omega) ht hw hv⟩

end Sys2Proof.Proofs

/-! PROOFS. The matrix of 41_csc_matrix.md: its constants (R60), the stages LDW, CENTER, MATR, MATG and MATB (R61 to
R65), the bounds of every value (R66), neutral grey (R68) and the sensitive pairs of the green row (R70). They rest on
two facts about one rounding: when it is exact, and which value it gives when it is not. -/

namespace Sys2Proof.Proofs

open Sys2Proof Sys2Proof.Machine Sys2Proof.Claims

/-! ## The constants -/

theorem kR_eq : kR = ⟨2940207 * 2 ^ 128⟩ := by decide

theorem kB_eq : kB = ⟨14864613 * 2 ^ 126⟩ := by decide

theorem kGB_std_eq : kGB .std = ⟨1443411 * 2 ^ 127⟩ := by decide

theorem kGR_std_eq : kGR .std = ⟨5990607 * 2 ^ 126⟩ := by decide

theorem kGB_ref_eq : kGB .ref = ⟨12812223 * 2 ^ 124⟩ := by decide

theorem kGR_ref_eq : kGR .ref = ⟨11981281 * 2 ^ 125⟩ := by decide

/-- Settles O37: the exact value of each literal rounded is also the value of its bit pattern. -/
theorem constantsAreTheTable : Obligations.ConstantsAreTheTable := by
  unfold Obligations.ConstantsAreTheTable
  rw [kBias_eq, kR_eq, kGB_std_eq, kGR_std_eq, kB_eq, kGB_ref_eq, kGR_ref_eq]
  decide

/-! ## What a rounding gives -/

/-- Two integers that are both nearest a quotient are neighbours, with the quotient half way between them. -/
theorem tie_of_both_nearest {p q m n : Nat} (hq : 0 < q) (h : m < n) (hm : 2 * p ≤ 2 * (m * q) + q)
    (hn : 2 * (n * q) ≤ 2 * p + q) : n = m + 1 ∧ 2 * p = 2 * (m * q) + q ∧ 2 * (n * q) = 2 * p + q := by
  obtain rfl : n = m + 1 := by
    have := Nat.le_of_mul_le_mul_right (a := n) (b := m + 1) (c := q) (by linarith) hq
    omega
  rw [Nat.succ_mul m q] at hn ⊢
  omega

/-- An integer nearest the quotient, and even at a tie, is the one `rneDiv` gives. -/
theorem rneDiv_eq {p q k : Nat} (hq : 0 < q) (hlow : 2 * (k * q) ≤ 2 * p + q) (hup : 2 * p ≤ 2 * (k * q) + q)
    (htie : 2 * p = 2 * (k * q) + q ∨ 2 * (k * q) = 2 * p + q → k % 2 = 0) : rneDiv p q = k := by
  obtain ⟨hlow', hup', htie'⟩ := rneDiv_nearest p q hq
  rcases Nat.lt_trichotomy (rneDiv p q) k with h | h | h
  · obtain ⟨hnext, hhalf, hhalf'⟩ := tie_of_both_nearest hq h hup' hlow
    have := htie (.inr hhalf')
    have := htie' (.inl hhalf)
    omega
  · exact h
  · obtain ⟨hnext, hhalf, hhalf'⟩ := tie_of_both_nearest hq h hup hlow'
    have := htie (.inl hhalf)
    have := htie' (.inr hhalf')
    omega

theorem rneDiv_mul_right (p q : Nat) {m : Nat} (hm : 0 < m) : rneDiv (p * m) (q * m) = rneDiv p q := by
  simp only [rneDiv, Nat.mul_mod_mul_right, Nat.mul_div_mul_right _ _ hm, ← Nat.mul_assoc, Nat.mul_lt_mul_right hm]

theorem ulpShift_mul_right (a d : Nat) {m : Nat} (hm : 0 < m) : ulpShift (a * m) (d * m) = ulpShift a d := by
  rw [ulpShift, Nat.mul_right_comm, Nat.mul_div_mul_right _ _ hm, ulpShift]

theorem rndMag_mul_right (a d : Nat) {m : Nat} (hm : 0 < m) : rndMag (a * m) (d * m) = rndMag a d := by
  rw [rndMag, ulpShift_mul_right a d hm, Nat.mul_right_comm a, Nat.mul_right_comm d, rneDiv_mul_right _ _ hm, rndMag]

theorem rndDomain_mul_right (a d : Nat) {m : Nat} (hm : 0 < m) : rndDomain (a * m) (d * m) = rndDomain a d := by
  simp only [rndDomain, Nat.mul_right_comm a m, ← Nat.mul_assoc, Nat.mul_le_mul_right_iff hm, Nat.mul_lt_mul_right hm]

theorem f32One_pos : 0 < F32.one := Nat.two_pow_pos 149

theorem ulpShift_one {a : Nat} (h : 2 ^ 23 ≤ a) :
    2 ^ (ulpShift a F32.one + 23) ≤ a ∧ a < 2 ^ (ulpShift a F32.one + 24) := by
  obtain ⟨hlow, hup⟩ := ulpShift_spec f32One_pos (a := a) (by rw [F32.one]; omega)
  exact ⟨Nat.le_of_mul_le_mul_right hlow f32One_pos, Nat.lt_of_mul_lt_mul_right hup⟩

/-- A magnitude `a` rounds to the multiple `v` of a unit `2^s` no finer than its own that is within half of its own, and
at a tie if its own is the finer one. -/
theorem rndMag_one_eq {a v s : Nat} (hmin : 2 ^ 23 ≤ a) (hbits : a < 2 ^ (s + 24)) (hgrid : 2 ^ s ∣ v)
    (hlow : 2 * v ≤ 2 * a + 2 ^ ulpShift a F32.one) (hup : 2 * a ≤ 2 * v + 2 ^ ulpShift a F32.one)
    (htie : 2 * a = 2 * v + 2 ^ ulpShift a F32.one ∨ 2 * v = 2 * a + 2 ^ ulpShift a F32.one →
      ulpShift a F32.one < s) : rndMag a F32.one = v := by
  obtain ⟨hulp, -⟩ := ulpShift_one hmin
  have hle : ulpShift a F32.one ≤ s := by
    have := (Nat.pow_lt_pow_iff_right (by decide)).mp (hulp.trans_lt hbits)
    omega
  rw [rndMag, Nat.mul_comm F32.one, rneDiv_mul_right _ _ f32One_pos]
  generalize ulpShift a F32.one = e at *
  obtain ⟨k, rfl⟩ := (pow_dvd_pow 2 hle).trans hgrid
  rw [Nat.mul_comm (2 ^ e)] at hlow hup htie ⊢
  rw [rneDiv_eq (Nat.two_pow_pos e) hlow hup fun h => ?_]
  -- at a tie `v` is a multiple of `2^(e+1)`, so its quotient by `2^e` is even
  have heven : 2 ^ e * 2 ∣ 2 ^ e * k := pow_succ 2 e ▸ (pow_dvd_pow 2 (htie h)).trans hgrid
  exact Nat.mod_eq_zero_of_dvd (Nat.dvd_of_mul_dvd_mul_left (Nat.two_pow_pos e) heven)

theorem rnd32_one_eq {u : Int} (hmin : 2 ^ 124 ≤ u.natAbs) (hmax : u.natAbs < 2 ^ 158) :
    rnd32 u F32.one = ⟨u.sign * (rndMag u.natAbs F32.one : Int)⟩ := by
  rw [rnd32, if_neg (by omega), if_pos (rndDomain_one hmin hmax)]

/-- A multiple of `2^s` units that needs 24 bits at most is kept. -/
theorem rnd32_exact {u : Int} {s : Nat} (hs : 124 ≤ s) (hgrid : 2 ^ s ∣ u.natAbs) (hbits : u.natAbs < 2 ^ (s + 24))
    (hmax : u.natAbs < 2 ^ 158) : rnd32 u F32.one = ⟨u⟩ := by
  by_cases h0 : u = 0
  · rw [h0, rnd32, if_pos rfl]
  · have hmin : 2 ^ 124 ≤ u.natAbs :=
      (Nat.pow_le_pow_right (by decide) hs).trans (Nat.le_of_dvd (Int.natAbs_pos.mpr h0) hgrid)
    have hpos := Nat.two_pow_pos (ulpShift u.natAbs F32.one)
    have hround : rndMag u.natAbs F32.one = u.natAbs :=
      rndMag_one_eq (by omega) hbits hgrid (by omega) (by omega) (by omega)
    rw [rnd32_one_eq hmin hmax, hround, Int.sign_mul_natAbs]

/-- From `2^(t+23)` to below `2^(s+24)` units, with `t < s`, a multiple of `2^s` units is what every magnitude within
half of `2^t` units of it rounds to. -/
theorem rnd32_near {a v s t : Nat} (ht : 124 ≤ t) (hts : t < s) (hmin : 2 ^ (t + 23) ≤ a) (hbits : a < 2 ^ (s + 24))
    (hmax : a < 2 ^ 158) (hgrid : 2 ^ s ∣ v) (hlow : 2 * v ≤ 2 * a + 2 ^ t) (hup : 2 * a ≤ 2 * v + 2 ^ t) :
    rnd32 a F32.one = ⟨v⟩ := by
  have hmin' : 2 ^ 124 ≤ a := (Nat.pow_le_pow_right (by decide) (by omega)).trans hmin
  obtain ⟨-, hulp⟩ := ulpShift_one (a := a) (by omega)
  have hle : t ≤ ulpShift a F32.one := by
    have := (Nat.pow_lt_pow_iff_right (by decide)).mp (hmin.trans_lt hulp)
    omega
  have hhalf : 2 ^ t ≤ 2 ^ ulpShift a F32.one := Nat.pow_le_pow_right (by decide) hle
  have htie (h : 2 ^ ulpShift a F32.one ≤ 2 ^ t) : ulpShift a F32.one < s :=
    ((Nat.pow_le_pow_iff_right (by decide)).mp h).trans_lt hts
  have hround : rndMag a F32.one = v :=
    rndMag_one_eq (by omega) hbits hgrid (by omega) (by omega) fun h => htie (by omega)
  rw [rnd32_one_eq (by omega) (by omega), Int.natAbs_natCast, hround, Int.sign_eq_one_of_pos (by omega), Int.one_mul]

/-- The value depends on the fraction alone where rule R9 of 00_scope.md states it. -/
theorem rnd32_mul_right {n : Int} {d m : Nat} (hm : 0 < m) (h : n ≠ 0 → rndDomain n.natAbs d = true) :
    rnd32 (n * m) (d * m) = rnd32 n d := by
  by_cases h0 : n = 0
  · rw [h0, Int.zero_mul, rnd32, rnd32, if_pos rfl, if_pos rfl]
  · have hsign : (m : Int).sign = 1 := Int.sign_eq_one_of_pos (by omega)
    have h0' : n * m ≠ 0 := Int.mul_ne_zero h0 (by omega)
    rw [rnd32, rnd32, if_neg h0, if_neg h0', Int.natAbs_mul, Int.natAbs_natCast, rndDomain_mul_right _ _ hm, h h0,
      rndMag_mul_right _ _ hm, Int.sign_mul, hsign, Int.mul_one]
    rfl

/-- A product with an integer is one rounding of the constant taken so many times. -/
theorem fmul_integer {a : F32} {c : Int} (hgrid : 2 ^ 124 ∣ a.units.natAbs) (hmax : (a.units * c).natAbs < 2 ^ 158) :
    fmul a ⟨c * 2 ^ 149⟩ = rnd32 (a.units * c) F32.one := by
  have hnum : a.units * (c * 2 ^ 149) = a.units * c * (F32.one : Nat) := by
    rw [F32.one, ← Int.mul_assoc]
    push_cast
    rfl
  rw [fmul, hnum]
  refine rnd32_mul_right f32One_pos fun h0 => rndDomain_one ?_ hmax
  exact Nat.le_of_dvd (Int.natAbs_pos.mpr h0) (Int.natAbs_mul a.units c ▸ hgrid.mul_right _)

/-! ## The stages -/

theorem onlyDatapath_withDp (s : State) (d : Datapath) : OnlyDatapath s (s.withDp d) d :=
  ⟨rfl, ⟨fun o => by cases o <;> rfl, rfl⟩, ⟨rfl, rfl, rfl, rfl⟩, rfl, rfl, rfl, rfl, rfl, rfl, rfl, rfl⟩

section Busy

variable {s : State} (hb : s.eng.run = .busy)
include hb

theorem exec_center_of_busy : exec .center s = .next (s.withDp s.eng.dp.center) := by
  rw [exec, execCenter, whenBusy_of_busy hb]

theorem exec_matr_of_busy : exec .matr s = .next (s.withDp s.eng.dp.matr) := by
  rw [exec, execMatr, whenBusy_of_busy hb]

theorem exec_matg_of_busy : exec .matg s = .next (s.withDp (s.eng.dp.matg s.cfg.coeffSet)) := by
  rw [exec, execMatg, whenBusy_of_busy hb]

theorem exec_matb_of_busy : exec .matb s = .next (s.withDp s.eng.dp.matb) := by
  rw [exec, execMatb, whenBusy_of_busy hb]

end Busy

/-- Settles O22: an engine with its group in reach loads it, lane by lane, and a byte widened is its number. -/
theorem ldwLoadsAndWidens : Obligations.LdwLoadsAndWidens := by
  intro s hb hreach
  have hldw := exec_ldw_of_reach hb (loadFault_eq_none hreach)
  refine ⟨_, _, hldw, onlyDatapath_withDp s _, fun i hi => ?_, rfl⟩
  simp only [load_fields, loadLanes, get_map, get_ofFn _ hi, sample, Nat.add_assoc, true_and]
  exact ⟨rfl, rfl, rfl⟩

/-- A byte is widened as an unsigned number (41_csc_matrix.md R61). -/
theorem u8ToF32_eq (b : Byte) : u8ToF32 b = ⟨(b.toNat : Int) * 2 ^ 149⟩ := by
  rw [u8ToF32, F32.one, Int.natCast_mul]
  rfl

/-- CENTER is exact on a byte, and makes of it a number from -128 to 127 (41_csc_matrix.md R62). -/
theorem centerLane_u8 (b : Byte) : centerLane (u8ToF32 b) = ⟨((b.toNat : Int) - 128) * 2 ^ 149⟩ := by
  have hb := b.isLt
  rw [centerLane_eq, u8ToF32_eq, fsub, ← Int.sub_mul]
  exact rnd32_exact (s := 149) (by decide) (by omega) (by omega) (by omega)

/-- Settles O23: the bias is 128.0, and a byte less 128 needs 8 bits. -/
theorem centerSubtractsTheBias : Obligations.CenterSubtractsTheBias := by
  refine ⟨fun s hb => ⟨_, _, exec_center_of_busy hb, onlyDatapath_withDp s _, fun i _ => ?_, rfl⟩, fun b => ?_⟩
  · simp only [center_fields, get_map, centerLane_eq, and_self]
  · rw [← centerLane_eq, centerLane_u8]

/-- Settles O24: the stage replaces `rf`, and its lanes are those of the red row. -/
theorem matrComputesTheRedRow : Obligations.MatrComputesTheRedRow :=
  fun s hb => ⟨_, _, exec_matr_of_busy hb, onlyDatapath_withDp s _, fun _ _ => get_map2 redLane _ _ _, rfl⟩

/-- Settles O25: the stage replaces `gf`, and its lanes are those of the green row. -/
theorem matgComputesTheGreenRow : Obligations.MatgComputesTheGreenRow :=
  fun s hb => ⟨_, _, exec_matg_of_busy hb, onlyDatapath_withDp s _, fun _ hi => get_ofFn _ hi, rfl⟩

/-- Settles O26: the stage replaces `bf`, and its lanes are those of the blue row. -/
theorem matbComputesTheBlueRow : Obligations.MatbComputesTheBlueRow :=
  fun s hb => ⟨_, _, exec_matb_of_busy hb, onlyDatapath_withDp s _, fun _ _ => get_map2 blueLane _ _ _, rfl⟩

/-! ## Neutral grey -/

theorem fmul_zero (a : F32) : fmul a ⟨0⟩ = ⟨0⟩ := by rw [fmul, Int.mul_zero, rnd32, if_pos rfl]

theorem fadd_u8_zero (y : Byte) : fadd (u8ToF32 y) ⟨0⟩ = u8ToF32 y := by
  have hy := y.isLt
  rw [u8ToF32_eq, fadd, Int.add_zero]
  dsimp only
  exact rnd32_exact (s := 149) (by decide) (by omega) (by omega) (by omega)

theorem fsub_u8_zero (y : Byte) : fsub (u8ToF32 y) ⟨0⟩ = u8ToF32 y := by
  have hsame : fsub (u8ToF32 y) ⟨0⟩ = fadd (u8ToF32 y) ⟨0⟩ := by rw [fsub, fadd, Int.sub_zero, Int.add_zero]
  rw [hsame, fadd_u8_zero]

/-- A byte converted back and narrowed is the same byte: an integer is the only one within a half of it. -/
theorem ch8_u8 (t : CvtTies) (y : Byte) : ch8 t (u8ToF32 y) = y := by
  have hy := y.isLt
  have hch := ch8_toNat t (u8ToF32 y)
  rw [u8ToF32_eq] at hch ⊢
  obtain ⟨hnear, -⟩ := conversionIsNearest t ⟨(y.toNat : Int) * 2 ^ 149⟩ (by dsimp only; omega)
  have hint : (cvtS32 t ⟨(y.toNat : Int) * 2 ^ 149⟩).toInt = y.toNat := by dsimp only at hnear; omega
  rw [hint, clamp255, if_neg (by omega), if_neg (by omega)] at hch
  exact BitVec.eq_of_toNat_eq (by omega)

/-- Settles O38: the two centred samples are 0, and so every row adds 0 to the luma. -/
theorem neutralGreyIsExact : Obligations.NeutralGreyIsExact := by
  have hcenter : centerLane (u8ToF32 128) = ⟨0⟩ := centerLane_u8 128
  have hred (y : Byte) : redLane (u8ToF32 y) ⟨0⟩ = u8ToF32 y := by rw [redLane, fmul_zero, fadd_u8_zero]
  have hgreen (k : CoeffSet) (y : Byte) : greenLane k (u8ToF32 y) ⟨0⟩ ⟨0⟩ = u8ToF32 y := by
    rw [greenLane, fmul_zero, fmul_zero, fsub_u8_zero, fsub_u8_zero]
  have hblue (y : Byte) : blueLane (u8ToF32 y) ⟨0⟩ = u8ToF32 y := by rw [blueLane, fmul_zero, fadd_u8_zero]
  refine ⟨hcenter, fun _ => ⟨fmul_zero _, fmul_zero _, fmul_zero _, fmul_zero _⟩, fun c y => ?_⟩
  rw [pix, hcenter, hred, hgreen, hblue, ch8_u8]
  exact ⟨rfl, rfl, rfl, rfl⟩

/-! ## No special value -/

/-- A multiple of `2^-25` of magnitude at most `m` times `2^-16`: the values of the matrix stay on this grid, and a
rounding widens the bound by at most 1 (41_csc_matrix.md R66). -/
structure Within (m : Nat) (v : F32) : Prop where
  grid  : 2 ^ 124 ∣ v.units.natAbs
  bound : v.units.natAbs ≤ m * 2 ^ 133

theorem Within.not_special {m : Nat} {v : F32} (h : Within m v) (hm : m < 2 ^ 25 := by decide) :
    v.units.natAbs < 512 * 2 ^ 149 ∧ (v.units = 0 ∨ 2 ^ 124 ≤ v.units.natAbs) := by
  obtain ⟨hgrid, hbound⟩ := h
  exact ⟨by omega, by omega⟩

theorem within_rnd32 {m : Nat} {u : Int} (hgrid : 2 ^ 124 ∣ u.natAbs) (hbound : u.natAbs ≤ m * 2 ^ 133)
    (hm : m < 2 ^ 25) : Within (m + 1) (rnd32 u F32.one) := by
  obtain ⟨hgrid', hbound'⟩ := rnd32_one hgrid (by omega)
  exact ⟨hgrid', by omega⟩

section Operations

variable {m n : Nat} {a b : F32} (ha : Within m a)
include ha

theorem within_fadd (hb : Within n b) (h : m + n < 2 ^ 25) : Within (m + n + 1) (fadd a b) := by
  obtain ⟨hga, hba⟩ := ha
  obtain ⟨hgb, hbb⟩ := hb
  exact within_rnd32 (by omega) (by omega) h

theorem within_fsub (hb : Within n b) (h : m + n < 2 ^ 25) : Within (m + n + 1) (fsub a b) := by
  obtain ⟨hga, hba⟩ := ha
  obtain ⟨hgb, hbb⟩ := hb
  exact within_rnd32 (by omega) (by omega) h

theorem within_fmul {c : Int} (hc : c.natAbs ≤ n) (h : m * n < 2 ^ 25) :
    Within (m * n + 1) (fmul a ⟨c * 2 ^ 149⟩) := by
  obtain ⟨hgrid, hbound⟩ := ha
  have hmul : (a.units * c).natAbs ≤ m * n * 2 ^ 133 := by
    calc (a.units * c).natAbs = a.units.natAbs * c.natAbs := Int.natAbs_mul _ _
      _ ≤ m * 2 ^ 133 * n := Nat.mul_le_mul hbound hc
      _ = m * n * 2 ^ 133 := Nat.mul_right_comm _ _ _
  rw [fmul_integer hgrid (by omega)]
  exact within_rnd32 (Int.natAbs_mul a.units c ▸ hgrid.mul_right _) hmul h

end Operations

theorem within_integer {c : Int} {n : Nat} (hc : c.natAbs ≤ n) : Within (n * 2 ^ 16) ⟨c * 2 ^ 149⟩ :=
  ⟨by dsimp only; omega, by dsimp only; omega⟩

/-! The constants, with the least bound of each. -/

theorem within_kR : Within 91882 kR := by rw [kR_eq]; exact ⟨by decide, by decide⟩

theorem within_kB : Within 116130 kB := by rw [kB_eq]; exact ⟨by decide, by decide⟩

theorem within_kGB (k : CoeffSet) : Within 25025 (kGB k) := by
  cases k with
  | std => rw [kGB_std_eq]; exact ⟨by decide, by decide⟩
  | ref => rw [kGB_ref_eq]; exact ⟨by decide, by decide⟩

theorem within_kGR (k : CoeffSet) : Within 46803 (kGR k) := by
  cases k with
  | std => rw [kGR_std_eq]; exact ⟨by decide, by decide⟩
  | ref => rw [kGR_ref_eq]; exact ⟨by decide, by decide⟩

theorem within_u8 (b : Byte) : Within (255 * 2 ^ 16) (u8ToF32 b) := by
  rw [u8ToF32_eq]
  exact within_integer (by omega)

theorem within_center (b : Byte) : Within (128 * 2 ^ 16) (centerLane (u8ToF32 b)) := by
  rw [centerLane_u8]
  exact within_integer (by omega)

theorem within_product {m : Nat} {a : F32} (ha : Within m a) (h : m * 128 < 2 ^ 25) (b : Byte) :
    Within (m * 128 + 1) (fmul a (centerLane (u8ToF32 b))) := by
  rw [centerLane_u8]
  exact within_fmul ha (by omega) h

/-- Settles O40: operation by operation, every value of the matrix stays on the grid and below `2^25` times `2^-16`. -/
theorem channelValuesStayBelow512 : Obligations.ChannelValuesStayBelow512 := by
  intro k y cb cr
  have hy := within_u8 y
  have hred := within_product within_kR (by decide) cr
  have hgreenB := within_product (within_kGB k) (by decide) cb
  have hgreenR := within_product (within_kGR k) (by decide) cr
  have hblue := within_product within_kB (by decide) cb
  have hdiff := within_fsub hy hgreenB (by decide)
  have hr := within_fadd hy hred (by decide)
  have hg := within_fsub hdiff hgreenR (by decide)
  have hb := within_fadd hy hblue (by decide)
  simp only [matrixValues, List.forall_mem_cons, List.not_mem_nil, false_implies, implies_true, and_true]
  exact ⟨hy.not_special, (within_u8 cb).not_special, (within_u8 cr).not_special, (within_center cb).not_special,
    (within_center cr).not_special, hred.not_special, hgreenB.not_special, hgreenR.not_special, hblue.not_special,
    hdiff.not_special, hr.not_special, hg.not_special, hb.not_special⟩

/-! ## The sensitive pairs of the green row

On a row of the table each of the two differences is the luma and a constant, and the rounding replaces this constant by
another one, the same for the whole range of `Y`: whether it does is settled at the two ends of the range. -/

/-- Over a range of the luma, in whole numbers, adding `c` units to it gives after the one rounding what adding `c'`
units gives exactly. -/
def RoundsOn (lo hi : Nat) (c c' : Int) : Prop :=
  ∀ y : Nat, lo ≤ y → y ≤ hi → rnd32 (y * 2 ^ 149 + c) F32.one = ⟨y * 2 ^ 149 + c'⟩

theorem luma_add_grid {s : Nat} (hs : s ≤ 149) {c : Int} (hgrid : 2 ^ s ∣ c) (y : Nat) :
    2 ^ s ∣ ((y : Int) * 2 ^ 149 + c).natAbs := by
  rw [← Int.natCast_dvd]
  push_cast
  exact dvd_add ((pow_dvd_pow 2 hs).mul_left _) hgrid

/-- A sum on the grid `2^s` is exact over a range when at both ends of it 24 bits hold it. -/
theorem roundsOn_exact {lo hi : Nat} {c : Int} (s : Nat) (h : 124 ≤ s ∧ s ≤ 134 ∧ 2 ^ s ∣ c ∧
    -2 ^ (s + 24) < lo * 2 ^ 149 + c ∧ hi * 2 ^ 149 + c < 2 ^ (s + 24)) : RoundsOn lo hi c c := by
  obtain ⟨hmin, hmax, hgrid, hlo, hhi⟩ := h
  intro y hly hyh
  have hbits : ((y : Int) * 2 ^ 149 + c).natAbs < 2 ^ (s + 24) := by
    zify
    exact abs_lt.mpr ⟨by omega, by omega⟩
  have hpow : 2 ^ (s + 24) ≤ 2 ^ 158 := Nat.pow_le_pow_right (by decide) (Nat.add_le_add_right hmax 24)
  exact rnd32_exact hmin (luma_add_grid (by omega) hgrid y) hbits (hbits.trans_le hpow)

/-- A sum between `2^(t+23)` and `2^(s+24)` units, with `t < s`, rounds to the sum on the grid `2^s` that is within half
of `2^t` units of it. -/
theorem roundsOn_near {lo hi : Nat} {c c' : Int} (s t : Nat) (h : 124 ≤ t ∧ t < s ∧ s ≤ 149 ∧ 2 ^ s ∣ c' ∧
    2 * (c' - c) ≤ 2 ^ t ∧ 2 * (c - c') ≤ 2 ^ t ∧ 2 ^ (t + 23) ≤ lo * 2 ^ 149 + c ∧
    hi * 2 ^ 149 + c < 2 ^ (s + 24) ∧ hi * 2 ^ 149 + c < 2 ^ 158) : RoundsOn lo hi c c' := by
  obtain ⟨ht, hts, hs, hgrid, hlow, hup, hlo, hbits, hmax⟩ := h
  intro y hly hyh
  have hpow : (2 : Int) ^ t ≤ 2 ^ (t + 23) := pow_le_pow_right₀ (by decide) (by omega)
  have hpos : (0 : Int) < 2 ^ t := pow_pos (by decide) t
  have hgrid' := luma_add_grid hs hgrid y
  obtain ⟨a, ha⟩ := Int.eq_ofNat_of_zero_le (a := (y : Int) * 2 ^ 149 + c) (by omega)
  obtain ⟨v, hv⟩ := Int.eq_ofNat_of_zero_le (a := (y : Int) * 2 ^ 149 + c') (by omega)
  rw [hv, Int.natAbs_natCast] at hgrid'
  rw [ha, hv]
  have hmin : 2 ^ (t + 23) ≤ a := by zify; omega
  have hbits' : a < 2 ^ (s + 24) := by zify; omega
  have hlow' : 2 * v ≤ 2 * a + 2 ^ t := by zify; omega
  have hup' : 2 * a ≤ 2 * v + 2 ^ t := by zify; omega
  exact rnd32_near ht hts hmin hbits' (by omega) hgrid' hlow' hup'

theorem greenRow_append {k : CoeffSet} {cb cr : Byte} {lo mid hi den : Nat} {num : Int}
    (hlow : GreenRow k cb cr lo mid num den) (hhigh : GreenRow k cb cr (mid + 1) hi num den) :
    GreenRow k cb cr lo hi num den := fun y hly hyh =>
  (Nat.lt_or_ge mid y.toNat).elim (fun h => hhigh y h hyh) (hlow y hly)

/-- The two products of the green row. -/
structure GreenProducts (k : CoeffSet) (cb cr : Byte) (p q : Int) : Prop where
  blue : fmul (kGB k) (centerLane (u8ToF32 cb)) = ⟨p⟩
  red  : fmul (kGR k) (centerLane (u8ToF32 cr)) = ⟨q⟩

/-- A row of the table from its two differences, each rounded. -/
theorem GreenProducts.greenRow {k : CoeffSet} {cb cr : Byte} {lo hi den : Nat} {p q num : Int} (c d : Int)
    (h : GreenProducts k cb cr p q) (hfirst : RoundsOn lo hi (-p) c) (hsecond : RoundsOn lo hi (c - q) d)
    (hd : d * den = num * 2 ^ 149) : GreenRow k cb cr lo hi num den := by
  intro y hly hyh
  have hdiff : fsub (u8ToF32 y) ⟨p⟩ = ⟨y.toNat * 2 ^ 149 + c⟩ := by
    rw [u8ToF32_eq, fsub, Int.sub_eq_add_neg, hfirst _ hly hyh]
  have hgreen : fsub ⟨y.toNat * 2 ^ 149 + c⟩ ⟨q⟩ = ⟨y.toNat * 2 ^ 149 + d⟩ := by
    rw [fsub, Int.add_sub_assoc, hsecond _ hly hyh]
  rw [greenLane, h.blue, h.red, hdiff, hgreen, add_sub_cancel_left, hd]

theorem greenProducts_std_78_178 : GreenProducts .std 78 178 (-9021319 * 2 ^ 130) (9360323 * 2 ^ 131) :=
  ⟨by decide, by decide⟩

theorem greenProducts_std_178_78 : GreenProducts .std 178 78 (9021319 * 2 ^ 130) (-9360323 * 2 ^ 131) :=
  ⟨by decide, by decide⟩

theorem greenProducts_ref_7_213 : GreenProducts .ref 7 213 (-12111555 * 2 ^ 131) (15912639 * 2 ^ 131) :=
  ⟨by decide, by decide⟩

theorem greenProducts_ref_10_231 : GreenProducts .ref 10 231 (-2952817 * 2 ^ 133) (9641187 * 2 ^ 132) :=
  ⟨by decide, by decide⟩

theorem greenProducts_ref_246_25 : GreenProducts .ref 246 25 (2952817 * 2 ^ 133) (-9641187 * 2 ^ 132) :=
  ⟨by decide, by decide⟩

/-- Settles O39, row by row: the constants `c` and `d` after the first and the second difference, and for each the grid
`2^s` it is on and, where the difference is not exact, the bound `2^t` on twice its error. In the sixth row the first
difference is exact up to `Y = 49` only. -/
theorem greenAtTheSensitivePairs : Obligations.GreenAtTheSensitivePairs := by
  refine ⟨?_, ?_, ?_, ?_, ?_, greenRow_append (mid := 49) ?_ ?_, ?_, ?_, ?_, ?_, ?_, ?_, ?_, ?_, ?_⟩
  · exact greenProducts_std_78_178.greenRow (9021319 * 2 ^ 130) (-9699327 * 2 ^ 130)
      (roundsOn_exact 130 (by decide)) (roundsOn_exact 130 (by decide)) (by decide)
  · exact greenProducts_std_78_178.greenRow (1127665 * 2 ^ 133) (-4849663 * 2 ^ 131)
      (roundsOn_near 133 131 (by decide)) (roundsOn_exact 131 (by decide)) (by decide)
  · exact greenProducts_std_78_178.greenRow (1127665 * 2 ^ 133) (-37 * 2 ^ 148)
      (roundsOn_near 133 131 (by decide)) (roundsOn_near 148 132 (by decide)) (by decide)
  · exact greenProducts_std_78_178.greenRow (70479 * 2 ^ 137) (-1212417 * 2 ^ 133)
      (roundsOn_near 137 134 (by decide)) (roundsOn_near 133 132 (by decide)) (by decide)
  · exact greenProducts_std_178_78.greenRow (-9021319 * 2 ^ 130) (9699327 * 2 ^ 130)
      (roundsOn_exact 130 (by decide)) (roundsOn_exact 130 (by decide)) (by decide)
  · exact greenProducts_std_178_78.greenRow (-9021319 * 2 ^ 130) (37 * 2 ^ 148)
      (roundsOn_exact 130 (by decide)) (roundsOn_near 148 131 (by decide)) (by decide)
  · exact greenProducts_std_178_78.greenRow (-1127665 * 2 ^ 133) (37 * 2 ^ 148)
      (roundsOn_near 133 131 (by decide)) (roundsOn_near 148 132 (by decide)) (by decide)
  · exact greenProducts_ref_7_213.greenRow (12111555 * 2 ^ 131) (-950271 * 2 ^ 133)
      (roundsOn_exact 131 (by decide)) (roundsOn_exact 131 (by decide)) (by decide)
  · exact greenProducts_ref_7_213.greenRow (3027889 * 2 ^ 133) (-3801083 * 2 ^ 131)
      (roundsOn_near 133 132 (by decide)) (roundsOn_exact 131 (by decide)) (by decide)
  · exact greenProducts_ref_7_213.greenRow (3027889 * 2 ^ 133) (-950271 * 2 ^ 133)
      (roundsOn_near 133 132 (by decide)) (roundsOn_near 133 132 (by decide)) (by decide)
  · exact greenProducts_ref_7_213.greenRow (189243 * 2 ^ 137) (-29 * 2 ^ 148)
      (roundsOn_near 137 134 (by decide)) (roundsOn_near 148 133 (by decide)) (by decide)
  · exact greenProducts_ref_10_231.greenRow (2952817 * 2 ^ 133) (-3735553 * 2 ^ 132)
      (roundsOn_exact 133 (by decide)) (roundsOn_exact 132 (by decide)) (by decide)
  · exact greenProducts_ref_10_231.greenRow (2952817 * 2 ^ 133) (-57 * 2 ^ 148)
      (roundsOn_exact 133 (by decide)) (roundsOn_near 148 133 (by decide)) (by decide)
  · exact greenProducts_ref_10_231.greenRow (184551 * 2 ^ 137) (-933889 * 2 ^ 134)
      (roundsOn_near 137 134 (by decide)) (roundsOn_near 134 133 (by decide)) (by decide)
  · exact greenProducts_ref_246_25.greenRow (-2952817 * 2 ^ 133) (3735553 * 2 ^ 132)
      (roundsOn_exact 133 (by decide)) (roundsOn_exact 132 (by decide)) (by decide)
  · exact greenProducts_ref_246_25.greenRow (-2952817 * 2 ^ 133) (57 * 2 ^ 148)
      (roundsOn_exact 133 (by decide)) (roundsOn_near 148 133 (by decide)) (by decide)

end Sys2Proof.Proofs

/-! PROOFS. The packer of 42_pixel_packer.md: the stages CVT, SAT16, SAT8 and PACK (R80 to R83), the two-stage narrow
(R85), and the store of a group (R84) with its layout in memory byte by byte (R88). -/

namespace Sys2Proof.Proofs

open Sys2Proof Sys2Proof.Machine Sys2Proof.Claims

/-! ## The store of a group -/

/-- Byte `j` of pixel `i` lies at offset `4i + j` of the sixteen bytes of the group. -/
theorem memRead_storeGroup_pixel (m : List Host.Cell) (base g : Nat) (p : Lanes (BitVec 32)) {i j : Nat} (hi : i < 4)
    (hj : j < 4) :
    memRead (storeGroup m base g p) (base + 16 * g + 4 * i + j) = BitVec.ofNat 8 ((p.get i).toNat / 256 ^ j) := by
  have hlane : (base + 16 * g + 4 * i + j - (base + 16 * g)) / 4 = i := by omega
  have hbyte : (base + 16 * g + 4 * i + j - (base + 16 * g)) % 4 = j := by omega
  rw [memRead_storeGroup, if_pos (by omega), hlane, hbyte]

/-- Settles O31: the four bytes read back at the place of a pixel are the pixel. -/
theorem storeWritesTheFourPixels : Obligations.StoreWritesTheFourPixels := by
  intro s hb hreach
  refine ⟨s.storeStage, exec_store_of_reach hb (storeFault_eq_none hreach), fun i hi => ?_, fun a ha => ?_,
    rfl, rfl, rfl, rfl, rfl, rfl, rfl, rfl⟩
  · rw [← Nat.mod_eq_of_lt (s.eng.dp.p.get i).isLt]
    exact memReadLE_of_bytes fun k hk => memRead_storeGroup_pixel _ _ _ _ hi hk
  · rw [State.storeStage, withMem_mem, memRead_storeGroup]
    exact if_neg ha

/-- Byte `j` of a word, counted from the least significant. -/
theorem ofNat_div_eq_extractLsb' (w : BitVec 32) (j : Nat) :
    BitVec.ofNat 8 (w.toNat / 256 ^ j) = w.extractLsb' (8 * j) 8 := by
  rw [BitVec.extractLsb', Nat.shiftRight_eq_div_pow, Nat.pow_mul]

/-- Settles O32: byte `j` of a stored pixel is byte `j` of the packed word, which is Blue, Green, Red and 0 in turn. -/
theorem groupBytesInMemory : Obligations.GroupBytesInMemory := by
  intro m base g r8 g8 b8 i hi
  have hbyte (j : Nat) (hj : j < 4) :
      memRead (storeGroup m base g (.ofFn fun i => packLane (r8.get i) (g8.get i) (b8.get i)))
        (base + 16 * g + 4 * i + j) = (packLane (r8.get i) (g8.get i) (b8.get i)).extractLsb' (8 * j) 8 := by
    rw [memRead_storeGroup_pixel _ _ _ _ hi hj, get_ofFn _ hi, ofNat_div_eq_extractLsb']
  exact ⟨(hbyte 0 (by decide)).trans (packLane_blue _ _ _), (hbyte 1 (by decide)).trans (packLane_green _ _ _),
    (hbyte 2 (by decide)).trans (packLane_red _ _ _), (hbyte 3 (by decide)).trans (packLane_alpha _ _ _)⟩

/-! ## The stages -/

section Busy

variable {s : State} (hb : s.eng.run = .busy)
include hb

theorem exec_cvt_of_busy : exec .cvt s = .next (s.withDp (s.eng.dp.cvt s.cfg.cvtTies)) := by
  rw [exec, execCvt, whenBusy_of_busy hb]

theorem exec_sat16_of_busy : exec .sat16 s = .next (s.withDp s.eng.dp.sat16) := by
  rw [exec, execSat16, whenBusy_of_busy hb]

theorem exec_sat8_of_busy : exec .sat8 s = .next (s.withDp s.eng.dp.sat8) := by
  rw [exec, execSat8, whenBusy_of_busy hb]

theorem exec_pack_of_busy : exec .pack s = .next (s.withDp s.eng.dp.pack) := by
  rw [exec, execPack, whenBusy_of_busy hb]

end Busy

/-- Settles O27: the stage replaces `ri`, `gi` and `bi`, and converts each of their lanes. -/
theorem cvtConvertsToIntegers : Obligations.CvtConvertsToIntegers :=
  fun s hb => ⟨_, _, exec_cvt_of_busy hb, onlyDatapath_withDp s _,
    fun _ _ => ⟨get_map _ _ _, get_map _ _ _, get_map _ _ _⟩, rfl⟩

theorem satU16_toNat_eq_max_min (v : BitVec 32) : ((satU16 v).toNat : Int) = max 0 (min 65535 v.toInt) := by
  rw [satU16_toNat]
  split_ifs <;> omega

theorem satU8_toNat_eq_min (v : BitVec 16) : (satU8 v).toNat = min 255 v.toNat := by
  rw [satU8_toNat]
  split <;> omega

/-- Settles O28: the stage replaces `rh`, `gh` and `bh`, and narrows each of their lanes. -/
theorem sat16NarrowsToSixteenBits : Obligations.Sat16NarrowsToSixteenBits := by
  refine fun s hb => ⟨_, _, exec_sat16_of_busy hb, onlyDatapath_withDp s _, fun i _ => ?_, rfl⟩
  simp only [sat16_fields, get_map, satU16_toNat_eq_max_min, and_self]

/-- Settles O29: the stage replaces `r8`, `g8` and `b8`, and narrows each of their lanes. -/
theorem sat8NarrowsToEightBits : Obligations.Sat8NarrowsToEightBits := by
  refine fun s hb => ⟨_, _, exec_sat8_of_busy hb, onlyDatapath_withDp s _, fun i _ => ?_, rfl⟩
  simp only [sat8_fields, get_map, satU8_toNat_eq_min, and_self]

/-- The four bytes of a pixel do not overlap, so the word is their weighted sum (42_pixel_packer.md R83). -/
theorem packLane_toNat (r g b : Byte) :
    (packLane r g b).toNat = r.toNat * 2 ^ 16 + g.toNat * 2 ^ 8 + b.toNat := by
  rw [packLane_eq_append, BitVec.toNat_append, BitVec.toNat_append, BitVec.toNat_append,
    ← Nat.shiftLeft_add_eq_or_of_lt b.isLt, ← Nat.shiftLeft_add_eq_or_of_lt g.isLt,
    ← Nat.shiftLeft_add_eq_or_of_lt r.isLt]
  simp only [Nat.shiftLeft_eq, BitVec.toNat_zero]
  omega

/-- Settles O30: the stage replaces `p`, and each of its lanes is the packed word of the three channels. -/
theorem packInterleavesTheChannels : Obligations.PackInterleavesTheChannels := by
  refine fun s hb => ⟨_, _, exec_pack_of_busy hb, onlyDatapath_withDp s _, fun i hi => ?_, rfl⟩
  rw [← packLane_toNat]
  exact congrArg BitVec.toNat (get_ofFn _ hi)

/-- Settles O36: a value above 255 saturates in the first narrow or in the second. -/
theorem twoStageNarrowIsTheClamp : Obligations.TwoStageNarrowIsTheClamp := ⟨satU8_satU16_toNat, ch8_toNat⟩

end Sys2Proof.Proofs

/-! PROOFS. What 60_exceptions.md gives in place of exceptions: the block at rest (R172), the turn of an engine, which never
fails (R160), and the turns every engine takes while the host waits (R173). -/

namespace Sys2Proof.Proofs

open Sys2Proof Sys2Proof.Machine Sys2Proof.Claims

/-! ## Nothing pending -/

/-- Settles O9: the search for a BUSY engine finds none. -/
theorem restingBlockDoesNothing : Obligations.RestingBlockDoesNothing := fun _ => step_of_rest

/-- With nothing pending the invariant gives a next state: the block rests, or the first BUSY engine, whose bytes are all
within reach, takes its turn. -/
theorem exists_step_of_none_pending {s : State} (h : s.Inv) (hclear : s.refusal = none) (hx : s.inbox = []) :
    ∃ t, step s = .next t := by
  cases hfirst : firstBusy s.engines 0 with
  | none => exact ⟨s, step_of_rest hclear hx (firstBusy_none hfirst)⟩
  | some k =>
    obtain ⟨e, -, he, hb⟩ := firstBusy_some hfirst
    obtain ⟨u, hu, rfl⟩ := focus_of_place he
    refine ⟨u.convertGroup, ?_⟩
    rw [step, hclear, hx]
    simp only [engineTurn, hfirst]
    exact serve_turn h hu hb

/-! ## A round of WAIT -/

/-- The engines in `places` have taken a turn each on the way from `s` to `t`, and no other engine has changed. -/
structure TookTurns (places : List Nat) (s t : State) : Prop where
  inv    : t.Inv
  clear  : t.refusal = none
  length : t.engines.length = s.engines.length
  others : ∀ i, i ∉ places → t.engines[i]? = s.engines[i]?
  turned : ∀ i ∈ places, ∀ e, s.engines[i]? = some e → ∃ f, t.engines[i]? = some f ∧ Turned e f

/-- Turns of different engines, pending one after the other, are all taken. -/
theorem run_turns {places : List Nat} {s : State} {rest : List Event} (h : s.Inv) (hclear : s.refusal = none)
    (hx : s.inbox = places.map (fun j => .code j (.stage 0)) ++ rest) (hdiff : places.Nodup)
    (hplaces : ∀ j ∈ places, j < s.engines.length) :
    ∃ t, Host.Core.run Sys2Proof.core places.length s = .next t ∧ t.inbox = rest ∧ TookTurns places s t := by
  induction places generalizing s with
  | nil => exact ⟨s, rfl, hx, h, hclear, rfl, fun _ _ => rfl, fun _ hi => nomatch hi⟩
  | cons j places ih =>
    obtain ⟨hj, hdiff⟩ := List.nodup_cons.mp hdiff
    obtain ⟨hjlt, hplaces⟩ := List.forall_mem_cons.mp hplaces
    obtain ⟨u, hstep, hinv, huclear, hux, hlen, hothers, hturned⟩ := step_turn h hclear hx hjlt
    obtain ⟨t, hrun, htx, ht⟩ := ih hinv huclear hux hdiff (by rwa [hlen])
    refine ⟨t, (run_of_step hstep).trans hrun, htx, ht.inv, ht.clear, ht.length.trans hlen, fun i hi => ?_,
      List.forall_mem_cons.mpr ⟨fun e he => ?_, fun i hi e he => ?_⟩⟩
    · obtain ⟨hij, hi⟩ := not_or.mp (mt List.mem_cons.mpr hi)
      rw [ht.others i hi, hothers i hij]
    · rw [ht.others j hj]
      exact hturned e he
    · have hij : i ≠ j := fun hij => hj (hij ▸ hi)
      exact ht.turned i hi e (by rwa [hothers i hij])

/-- The read of `STATUS` on an engine that is not DONE puts the turn of each engine in front of WAIT (log 18). -/
theorem step_wait_of_not_done {s : State} {k : Nat} {e : Engine} {rest : List Event} (hclear : s.refusal = none)
    (hx : s.inbox = .wait k :: rest) (he : s.engines[k]? = some e) (hnot : e.run ≠ .done) :
    ∃ u, step s = .next u ∧ SameMachine s u ∧ u.refusal = none ∧
      u.inbox = engineTurns s.engines.length ++ .wait k :: rest := by
  obtain ⟨v, hv, rfl⟩ := focus_of_place (s := s.withInbox rest) he
  obtain ⟨-, hengines, -, hcfg, hmem, hrefusal, -, -, hinbox⟩ := focus_eq_some hv
  have hstep : step s = waitRound k v := (step_of_pending hclear hx).trans (onEngine_of_focus hv _)
  refine ⟨_, hstep.trans (waitRound_of_not_done hnot), ⟨hcfg, hengines, hmem⟩, hrefusal.trans hclear, ?_⟩
  rw [withInbox_inbox, hengines, hinbox]
  rfl

/-- One round of WAIT on an engine that is not DONE: every engine takes its turn, and WAIT is oldest again. -/
theorem run_waitRound {s : State} {k : Nat} {e : Engine} {rest : List Event} (h : s.Inv) (hclear : s.refusal = none)
    (hx : s.inbox = .wait k :: rest) (he : s.engines[k]? = some e) (hnot : e.run ≠ .done) :
    ∃ t, Host.Core.run Sys2Proof.core (s.engines.length + 1) s = .next t ∧ t.inbox = .wait k :: rest ∧
      TookTurns (List.range s.engines.length) s t := by
  obtain ⟨u, hstep, hu, huclear, hux⟩ := step_wait_of_not_done hclear hx he hnot
  obtain ⟨t, hrun, htx, ht⟩ := run_turns (hu.inv h) huclear hux List.nodup_range
    fun j hj => by rw [hu.engines]; exact List.mem_range.mp hj
  rw [List.length_range] at hrun
  exact ⟨t, (run_of_step hstep).trans hrun, htx, ht.inv, ht.clear, hu.engines ▸ ht.length, hu.engines ▸ ht.others,
    hu.engines ▸ ht.turned⟩

/-- Settles O11: no turn fails under the invariant, and a round of WAIT holds a turn of each engine. -/
theorem engineTurnNeverFails : Obligations.EngineTurnNeverFails := by
  refine ⟨fun s => exists_step_of_none_pending, fun s k e rest h hclear hx he hnot => ?_⟩
  obtain ⟨t, hrun, htx, ht⟩ := run_waitRound h hclear hx he hnot
  refine ⟨t, hrun, ht.inv, ht.clear, htx, ht.length, fun j f hf => ?_⟩
  have hj : j < s.engines.length := (List.getElem?_eq_some_iff.mp hf).1
  obtain ⟨f', hf', hrest, hbusy⟩ := ht.turned j (List.mem_range.mpr hj) f hf
  exact ⟨fun hidle => hrest hidle ▸ hf', fun hb => ⟨f', hf', hbusy hb⟩⟩

end Sys2Proof.Proofs

/-! PROOFS. The reset of an engine and the accesses of other agents to memory, of 70_reset_and_hazards.md (R130 and
R133). -/

namespace Sys2Proof.Proofs

open Sys2Proof Sys2Proof.Machine Sys2Proof.Claims

/-! ## The reset of an engine -/

/-- The engines after the reset of the one brought into focus from place `k`. -/
theorem resetEngine_engines {s u : State} {k : Nat} (hu : s.focus k = some u) (j : Nat) :
    u.resetEngine.engines[j]? = if j = k then some u.resetEngine.eng else s.engines[j]? := by
  obtain ⟨-, hengines, hhere, -⟩ := focus_eq_some hu
  rw [State.resetEngine, withEng_getElem?, hengines, hhere, withEng_eng]

/-- Settles O13: the engine named is brought into focus and replaced by a fresh one, whatever its run state. -/
theorem resetOfAnEngine : Obligations.ResetOfAnEngine := by
  intro s k rest hr hx hk
  obtain ⟨u, hu, -⟩ := focus_of_place (s := s.withInbox rest) (List.getElem?_eq_getElem hk)
  obtain ⟨-, -, -, hcfg, hmem, hrefusal, -, -, hinbox⟩ := focus_eq_some hu
  have hstep : step s = .next u.resetEngine := (step_of_pending hr hx).trans (onEngine_of_focus hu _)
  obtain ⟨hstatus, -⟩ := statusHasThreeValues
  refine ⟨u.resetEngine, u.resetEngine.eng, hstep, (resetEngine_engines hu k).trans (if_pos rfl), rfl, rfl, hstatus,
    rfl, fun o => congrArg OperandReg.written (fresh_get _ _ o),
    fun j hj => (resetEngine_engines hu j).trans (if_neg hj), hmem, hrefusal.trans hr, hcfg, hinbox⟩

/-! ## Accesses outside the register blocks -/

/-- An access with no byte in a mapped register block finds none. -/
theorem blockAt_of_off {s : State} {a n : Nat} (h : OffTheBlocks s a n) : blockAt s.engines 0 ⟨a, n⟩ = none := by
  refine Option.eq_none_iff_forall_ne_some.mpr fun (k, b) hfound => ?_
  obtain ⟨i, e, -, he, hb, hmeets⟩ := blockAt_some hfound
  obtain ⟨x, hblock, hrun⟩ := (meets_iff _ _).mp hmeets
  exact h e (List.mem_of_getElem? he) b hb x ((has_iff _ _).mp hrun) ((has_iff _ _).mp hblock)

theorem step_of_busRead {s : State} {a n : Nat} {rest : List Event} (hr : s.refusal = none)
    (hx : s.inbox = .busRead a n :: rest) (hoff : OffTheBlocks s a n) :
    step s = memAccess false a n (s.withInbox rest) ((s.withInbox rest).withMdata (memReadBytes s.mem a n)) := by
  rw [step_of_pending hr hx, serve, busRead, withInbox_engines, blockAt_of_off hoff, withInbox_mem]

theorem step_of_busWrite {s : State} {a : Nat} {bytes : List Byte} {rest : List Event} (hr : s.refusal = none)
    (hx : s.inbox = .busWrite a bytes :: rest) (hoff : OffTheBlocks s a bytes.length) :
    step s = memAccess true a bytes.length (s.withInbox rest)
      ((s.withInbox rest).withMem (memWriteBytes s.mem a bytes)) := by
  rw [step_of_pending hr hx, serve, busWrite, withInbox_engines, blockAt_of_off hoff, withInbox_mem]

/-! ## What a running command forbids -/

/-- While its command runs an engine forbids the accesses with a byte of its pixel buffer, and of those that write also
the ones with a byte of a plane. -/
theorem touches_iff {w : Bool} {a n : Nat} {e : Engine} : touches w ⟨a, n⟩ e = true ↔
    e.run = .busy ∧ ∃ x, InRun a n x ∧ (InPixels e x ∨ w = true ∧ InPlanes e x) := by
  rw [touches, Bool.and_eq_true, decide_eq_true_eq]
  refine and_congr_right fun _ => ?_
  have hrun (x : Nat) : Span.has ⟨a, n⟩ x = true ↔ InRun a n x := has_iff _ _
  cases w with
  | false => simp [meets_iff, has_outRegion_iff, hrun, and_comm]
  | true => simp [anyMeets_iff_byte, anyHas_regions_iff, hrun, and_comm, or_comm]

theorem memAccess_of_touch {w : Bool} {a n x : Nat} {s t : State} {e : Engine} (he : e ∈ s.engines)
    (hb : e.run = .busy) (hrun : InRun a n x) (hx : InPixels e x ∨ w = true ∧ InPlanes e x) :
    memAccess w a n s t = .refused .refHostTouch :=
  if_pos (List.any_eq_true.mpr ⟨e, he, touches_iff.mpr ⟨hb, x, hrun, hx⟩⟩)

/-- Settles O48: the byte that is shared makes the access one a running command forbids. -/
theorem touchingARunningCommandIsRefused : Obligations.TouchingARunningCommandIsRefused := by
  refine ⟨fun s a bytes rest e x hr hx hoff he hb hrun htouch => ?_,
    fun s a n rest e x hr hx hoff he hb hrun htouch => ?_⟩
  · rw [step_of_busWrite hr hx hoff]
    exact memAccess_of_touch he hb hrun (htouch.symm.imp_right fun h => ⟨rfl, h⟩)
  · rw [step_of_busRead hr hx hoff]
    exact memAccess_of_touch he hb hrun (.inl htouch)

/-! ## The accesses that are carried out -/

/-- Where every byte is ordinary memory there is no hole. -/
theorem firstHole_eq_none {s : State} {a n : Nat}
    (h : ∀ x, InRun a n x → x < 2 ^ s.cfg.addrW ∧ anyHas s.cfg.ram x = true) : firstHole s a n = none := by
  induction n generalizing a with
  | zero => rfl
  | succ n ih =>
    have hfirst := h a ⟨Nat.le_refl a, by omega⟩
    rw [firstHole, if_pos (by simpa using hfirst)]
    exact ih fun x ⟨hlow, hup⟩ => h x ⟨by omega, by omega⟩

theorem memAccess_of_clear {w : Bool} {a n : Nat} {s t : State}
    (hram : ∀ x, InRun a n x → x < 2 ^ s.cfg.addrW ∧ anyHas s.cfg.ram x = true)
    (hclear : ∀ e ∈ s.engines, e.run = .busy → ∀ x, InRun a n x → ¬ (InPixels e x ∨ w = true ∧ InPlanes e x)) :
    memAccess w a n s t = .next t := by
  have huntouched : s.engines.any (touches w ⟨a, n⟩) = false :=
    List.any_eq_false.mpr fun e he htouch =>
      have ⟨hb, x, hrun, hx⟩ := touches_iff.mp htouch
      hclear e he hb x hrun hx
  rw [memAccess, huntouched, firstHole_eq_none hram]
  rfl

theorem memReadBytes_eq_map (m : List Host.Cell) (a n : Nat) :
    memReadBytes m a n = (List.range n).map (fun k => memRead m (a + k)) := by
  induction n generalizing a with
  | zero => rfl
  | succ n ih =>
    rw [memReadBytes, ih, List.range_succ_eq_map, List.map_cons, List.map_map]
    simp [Nat.add_assoc, Nat.add_comm 1]

/-- Settles O49: such an access is neither forbidden nor in a hole, so its own answer is the next state. -/
theorem otherBusAccessesAreCarriedOut : Obligations.OtherBusAccessesAreCarriedOut := by
  refine ⟨fun s a n rest hr hx hoff hram hclear => ?_, fun s a bytes rest hr hx hoff hram hclear => ?_⟩
  · rw [step_of_busRead hr hx hoff, memReadBytes_eq_map]
    exact memAccess_of_clear hram fun e he hb x hrun => by simpa using hclear e he hb x hrun
  · refine ⟨_, (step_of_busWrite hr hx hoff).trans (memAccess_of_clear hram fun e he hb x hrun => ?_),
      fun k hk => ?_, fun x hx => ?_, rfl, rfl, hr, rfl, rfl, rfl⟩
    · obtain ⟨hplanes, hpixels⟩ := hclear e he hb x hrun
      exact fun h => h.elim hpixels fun ⟨_, h⟩ => hplanes h
    · rw [withMem_mem, memRead_memWriteBytes, if_pos ⟨by omega, by omega⟩, Nat.add_sub_cancel_left]
    · rw [withMem_mem, memRead_memWriteBytes]
      exact if_neg hx

end Sys2Proof.Proofs
